-- ==== Sys2Proof/Word.lean ====
section
/-! DEFINITION. The widths of the block's fields (spec/00_scope.md R6: command word and register-window words 32 bits,
CRC, timeouts and lengths 16 bits, data bytes 8 bits). -/

namespace Sys2Proof

/-- A data byte, unsigned (R7). -/
abbrev Byte := BitVec 8

/-- A 16-bit field: a CRC value, a timeout in ticks, a length (R6). -/
abbrev Half := BitVec 16

/-- A command word or a register-window word (R6). -/
abbrev Word := BitVec 32

end Sys2Proof
end

