-- ==== Sys2Proof/Syntax.lean ====
section
/-! DEFINITION. The instructions: one constructor for each row of spec/opcode_table.json (spec/30_encoding.md R83, R84,
R91), with the operands R81 names. Bits that a row ignores (R82) are no operands (log 12). -/

namespace Sys2Proof

/-- The 15 commands, the reserved row, and the four rows of the response function-code decode. -/
inductive Instr where
  /-- NOP, OPC 0x00 (R190). -/
  | nop
  /-- CRC_INIT, OPC 0x01 (R115). -/
  | crcInit
  /-- CRC_BYTE b, OPC 0x02 (R116). -/
  | crcByte (b : Byte)
  /-- CRC_VERIFY, OPC 0x03 (R117). -/
  | crcVerify
  /-- FRM_CLEAR, OPC 0x10 (R191). -/
  | frmClear
  /-- FRM_PUSH b, OPC 0x11 (R192). -/
  | frmPush (b : Byte)
  /-- SET_REQ addr, fc, OPC 0x20 (R131). -/
  | setReq (addr fc : Byte)
  /-- START t, OPC 0x21 (R132). -/
  | start (t : Half)
  /-- DONE_ACK, OPC 0x22 (R135). -/
  | doneAck
  /-- VALIDATE, OPC 0x30 (R173). -/
  | validate
  /-- INIT d, OPC 0x40 (R193). -/
  | init (d : Half)
  /-- CLOSE, OPC 0x41 (R194). -/
  | close
  /-- CFG_SET cfg, OPC 0x42 (R195). -/
  | cfgSet (cfg : BitVec 3)
  /-- FLAGS_CLR clr, OPC 0x43 (R196). -/
  | flagsClr (clr : BitVec 3)
  /-- RX_CLEAR, OPC 0x50 (R197). -/
  | rxClear
  /-- A command word whose OPC is reserved (R84, R198). -/
  | reserved (opc : Byte)
  /-- Response function code 0x03 (R91 row 1, R139). -/
  | rspFcReadHolding
  /-- Response function code 0x10 (R91 row 2, R140). -/
  | rspFcWriteMultiple
  /-- Response function code f = REQ_FC + 0x80 (R91 row 3, R141). -/
  | rspFcException (f : Byte)
  /-- Any other response function code f (R91 row 4, R142). -/
  | rspFcOther (f : Byte)
  deriving DecidableEq, Repr

/-- The two encodings the block decodes: the host's command word (table format `cmd32`, R80) and the function-code byte
of a response (table format `rx_fc8`, R91). -/
inductive Encoded where
  | cmd32 (w : Word)
  | rxFc8 (f : Byte)
  deriving DecidableEq, Repr

end Sys2Proof
end

