-- ==== Sys2Proof/WellFormed.lean ====
section
/-! DEFINITION. Which instruction terms stand for an encoding: the reserved opcodes are the 241 values of
spec/30_encoding.md R84, and the response rows carry only bytes their conditions of R91 admit. -/

namespace Sys2Proof

/-- The reserved OPC values, as R84 lists them: 0x04–0x0F, 0x12–0x1F, 0x23–0x2F, 0x31–0x3F, 0x44–0x4F, 0x51–0xFF. -/
def isReservedOpc (opc : Byte) : Bool :=
  let n := opc.toNat
  (0x04 ≤ n && n ≤ 0x0F) || (0x12 ≤ n && n ≤ 0x1F) || (0x23 ≤ n && n ≤ 0x2F)
    || (0x31 ≤ n && n ≤ 0x3F) || (0x44 ≤ n && n ≤ 0x4F) || (0x51 ≤ n && n ≤ 0xFF)

/-- A well-formed instruction: its operands are values its encoding admits for some latched REQ_FC. -/
def Instr.wellFormed : Instr → Bool
  | .nop | .crcInit | .crcByte _ | .crcVerify | .frmClear | .frmPush _ | .setReq _ _ | .start _ | .doneAck => true
  | .validate | .init _ | .close | .cfgSet _ | .flagsClr _ | .rxClear => true
  | .reserved opc => isReservedOpc opc
  | .rspFcReadHolding | .rspFcWriteMultiple => true
  | .rspFcException f => decide (0x80 ≤ f.toNat)
  | .rspFcOther f => f != 0x03#8 && f != 0x10#8

/-- The condition R91 puts on the latched request's function code. Rows 3 and 4 of the response decode compare the byte
with REQ_FC + 0x80 as integers, with no wrap (R92). Every other row is selected whatever REQ_FC is. -/
def Instr.selectedUnder (reqFc : Byte) : Instr → Bool
  | .nop | .crcInit | .crcByte _ | .crcVerify | .frmClear | .frmPush _ | .setReq _ _ | .start _ | .doneAck => true
  | .validate | .init _ | .close | .cfgSet _ | .flagsClr _ | .rxClear | .reserved _ => true
  | .rspFcReadHolding | .rspFcWriteMultiple => true
  | .rspFcException f => f.toNat == reqFc.toNat + 0x80
  | .rspFcOther f => f.toNat != reqFc.toNat + 0x80

end Sys2Proof
end

