-- ==== Sys2Proof/Decode.lean ====
section
/-! DEFINITION. The decoder and the encoder, from spec/30_encoding.md R80 to R84 (command words) and R91, R92 (response
function codes). Decoding is total: every command word and every byte decodes, and a number of bits that is neither
format's is rejected by name. -/

namespace Sys2Proof

/-- OPC = word[31:24] (R80). -/
def opcOf (w : Word) : Byte := w.extractLsb' 24 8

/-- ARG = word[15:0] (R80). -/
def argOf (w : Word) : Half := w.extractLsb' 0 16

/-- ARG[7:0]: the data byte `b`, or the slave address `addr` (R81). -/
def argLow (arg : Half) : Byte := arg.extractLsb' 0 8

/-- ARG[15:8]: the function code `fc` of SET_REQ (R81). -/
def argHigh (arg : Half) : Byte := arg.extractLsb' 8 8

/-- ARG[2:0]: `cfg` or `clr` (R81). -/
def argBits (arg : Half) : BitVec 3 := arg.extractLsb' 0 3

/-- The opcode map of R83, and every other OPC is the reserved row (R84). RSV and unused ARG bits are not read (R82). -/
def decodeCommand (w : Word) : Instr :=
  match opcOf w with
  | 0x00#8 => .nop
  | 0x01#8 => .crcInit
  | 0x02#8 => .crcByte (argLow (argOf w))
  | 0x03#8 => .crcVerify
  | 0x10#8 => .frmClear
  | 0x11#8 => .frmPush (argLow (argOf w))
  | 0x20#8 => .setReq (argLow (argOf w)) (argHigh (argOf w))
  | 0x21#8 => .start (argOf w)
  | 0x22#8 => .doneAck
  | 0x30#8 => .validate
  | 0x40#8 => .init (argOf w)
  | 0x41#8 => .close
  | 0x42#8 => .cfgSet (argBits (argOf w))
  | 0x43#8 => .flagsClr (argBits (argOf w))
  | 0x50#8 => .rxClear
  | opc => .reserved opc

/-- The exception test "function code + 0x80": an integer compare, no truncation (R92). -/
def isExceptionFc (reqFc f : Byte) : Bool := f.toNat == reqFc.toNat + 0x80

/-- The response function-code decode: the rows of R91 in order, the first match wins. -/
def decodeResponse (reqFc f : Byte) : Instr :=
  if f = 0x03#8 then .rspFcReadHolding
  else if f = 0x10#8 then .rspFcWriteMultiple
  else if isExceptionFc reqFc f then .rspFcException f
  else .rspFcOther f

/-- The decoder of both formats, under the latched REQ_FC. It rejects nothing: no encoding traps (R84). -/
def decode (reqFc : Byte) : Encoded → Instr
  | .cmd32 w => decodeCommand w
  | .rxFc8 f => decodeResponse reqFc f

/-- Why bits are no encoding of the block. -/
inductive DecodeError where
  /-- Only 32-bit command words and 8-bit response function codes are encodings (R80, R91). -/
  | noSuchLength (nbits : Nat)
  deriving DecidableEq, Repr

/-- Decode `nbits` bits given as a number, bit 0 the least significant: the table numbers a command word and a response
byte in that way. -/
def decodeBits (reqFc : Byte) (nbits w : Nat) : Except DecodeError Instr :=
  if nbits = 32 then .ok (decode reqFc (.cmd32 (BitVec.ofNat 32 w)))
  else if nbits = 8 then .ok (decode reqFc (.rxFc8 (BitVec.ofNat 8 w)))
  else .error (.noSuchLength nbits)

/-- REQ_FC after reset (spec/10_state.md R54): the request under which `decodeTableWord` reads a response byte. -/
def resetReqFc : Byte := 0x00#8

/-- The instruction the decoder reads from a table row's bits, as right after reset (log 11). -/
def decodeTableWord (nbits w : Nat) : Option Instr :=
  match decodeBits resetReqFc nbits w with
  | .ok i => some i
  | .error _ => none

/-- A command word from its fields: OPC, RSV = 0, ARG (R80). -/
def commandWord (opc : Byte) (arg : Half) : Word := opc ++ (0x00#8 ++ arg)

/-- The encoding of a well-formed instruction. Ignored bits are written 0 (R82, log 12). -/
def encode : Instr → Encoded
  | .nop => .cmd32 (commandWord 0x00#8 0#16)
  | .crcInit => .cmd32 (commandWord 0x01#8 0#16)
  | .crcByte b => .cmd32 (commandWord 0x02#8 (0x00#8 ++ b))
  | .crcVerify => .cmd32 (commandWord 0x03#8 0#16)
  | .frmClear => .cmd32 (commandWord 0x10#8 0#16)
  | .frmPush b => .cmd32 (commandWord 0x11#8 (0x00#8 ++ b))
  | .setReq addr fc => .cmd32 (commandWord 0x20#8 (fc ++ addr))
  | .start t => .cmd32 (commandWord 0x21#8 t)
  | .doneAck => .cmd32 (commandWord 0x22#8 0#16)
  | .validate => .cmd32 (commandWord 0x30#8 0#16)
  | .init d => .cmd32 (commandWord 0x40#8 d)
  | .close => .cmd32 (commandWord 0x41#8 0#16)
  | .cfgSet cfg => .cmd32 (commandWord 0x42#8 (0x0000#13 ++ cfg))
  | .flagsClr clr => .cmd32 (commandWord 0x43#8 (0x0000#13 ++ clr))
  | .rxClear => .cmd32 (commandWord 0x50#8 0#16)
  | .reserved opc => .cmd32 (commandWord opc 0#16)
  | .rspFcReadHolding => .rxFc8 0x03#8
  | .rspFcWriteMultiple => .rxFc8 0x10#8
  | .rspFcException f => .rxFc8 f
  | .rspFcOther f => .rxFc8 f

end Sys2Proof
end

