-- ==== Sys2Proof/Config.lean ====
section
/-! DEFINITION. What an implementation fixes: the parameters of spec/00_scope.md R6 with the values they have for this
block, and the one parameter left OPEN, WINDOW_BASE (spec/20_memory.md R77). Which parameter values are legal is said
in Sys2Proof/Machine/Params.lean. -/

namespace Sys2Proof

/-- The parameters a model takes as arguments (R6). They stand in `State` and no step writes them (log 5). -/
structure Params where
  /-- `FRAME_MAX`, the capacity of the frame buffer in bytes. -/
  frameMax : Nat
  /-- `RXQ_DEPTH`, the capacity of the receive FIFO in bytes. -/
  rxqDepth : Nat
  /-- `REC_CODES`, the protocol exception codes that decode as themselves, in strictly rising order (log 6). -/
  recCodes : List Byte
  /-- `TICK_MS`, milliseconds per tick of the timebase. -/
  tickMs : Nat
  /-- `DEF_TIMEOUT_RESET`, the reset value of DEF_TIMEOUT. The type holds exactly the legal range 0..65535. -/
  defTimeoutReset : Half
  deriving DecidableEq, Repr

/-- The values R6 gives this block. -/
def Params.block : Params where
  frameMax := 260
  rxqDepth := 256
  recCodes := [1, 2, 3, 4, 5, 6, 8, 10, 11]
  tickMs := 1
  defTimeoutReset := 500

/-- `WINDOW_BASE`, where the register window sits in the host's address map: OPEN, and no rule of the block depends on
it (R77, spec/93_implementation_defined.md U10). It has no body, so nothing can be proved of its value (log 7). -/
opaque Config.windowBase : Nat

end Sys2Proof
end

