-- ==== Sys2Proof/Machine/State.lean ====
section
/-! DEFINITION. The state of the block as plain data: every field of spec/10_state.md, the parameters of
spec/00_scope.md R6, and the ports of R20 (the inputs still to come and the outputs of the last cycle). -/

namespace Sys2Proof.Machine

/-- FA_STATE, the assembler's state (R24). The values 8 to 15 of the 4-bit field are never taken. -/
inductive FaState where
  /-- No transaction since reset. -/
  | idle
  /-- Awaiting the address byte and the function-code echo. -/
  | hdr
  /-- Awaiting the byte-count byte. -/
  | bcnt
  /-- Awaiting bytes until ACC_LEN = EXP_LEN. -/
  | body
  /-- Busy, consuming nothing, waiting for the deadline. -/
  | stall
  /-- Terminal: a frame passed the match check. -/
  | complete
  /-- Terminal: the deadline passed first. -/
  | timedOut
  /-- Terminal: an unknown function code under UFC = 0, or START while not initialised. -/
  | failed
  deriving DecidableEq, Repr

/-- A host read of the register window: the ports `rd_addr` and `rd_size` (R20). -/
structure HostRead where
  addr : BitVec 10
  size : BitVec 3
  deriving DecidableEq, Repr

/-- The input ports in one cycle (R20). `cmd` is `cmd_data` when `cmd_valid` = 1; `rx` is `rx_data` when `rx_valid` = 1;
`read` is the host's read of this cycle, if it makes one (log 3). -/
structure CycleIn where
  rst : Bool
  cmd : Option Word
  rx : Option Byte
  tick : Bool
  read : Option HostRead
  deriving DecidableEq, Repr

/-- A cycle with no input (R86 `@idle`). -/
def CycleIn.idle : CycleIn where
  rst := false
  cmd := none
  rx := none
  tick := false
  read := none

/-- The output ports in one cycle (R20): `cmd_ready`, `rd_data` when the host reads, `irq`. -/
structure PortOut where
  cmdReady : Bool
  rdData : Option Word
  irq : Bool
  deriving DecidableEq, Repr

/-- A byte store by address, listed in one canonical form (`Memory.wf` in Machine/Ops.lean). -/
abbrev Memory := List Host.Cell

/-- Everything the block holds between two cycles. BUSY, IRQ, PLEN and RX_COUNT are derived (R25, R32, R43, R44) and
stand in Machine/Flags.lean. -/
structure State where
  /-- The parameters of R6. No step writes them (log 5). -/
  params : Params
  /-- FA_STATE (R24). -/
  faState : FaState
  /-- INITED (R26): the transport is open. -/
  inited : Bool
  /-- DONE (R27): a transaction ended and was not acknowledged. -/
  done : Bool
  /-- CRC_OK (R28): the result of the last CRC_VERIFY. -/
  crcOk : Bool
  /-- RXOVR (R29): a received byte was dropped. -/
  rxovr : Bool
  /-- FRMOVR (R30): a FRM_PUSH byte was dropped. -/
  frmovr : Bool
  /-- ILLCMD (R31): a reserved opcode was accepted. -/
  illcmd : Bool
  /-- RESULT_CODE (R33). -/
  resultCode : Byte
  /-- EXC_RAW (R34). -/
  excRaw : Byte
  /-- CRC (R35), the running CRC register. -/
  crc : Half
  /-- REQ_ADDR (R36). -/
  reqAddr : Byte
  /-- REQ_FC (R36). -/
  reqFc : Byte
  /-- TO_EFF (R37), in ticks. -/
  toEff : Half
  /-- ELAPSED (R38), in ticks. -/
  elapsed : Half
  /-- DEF_TIMEOUT (R39), in ticks. -/
  defTimeout : Half
  /-- FRAME (R40): byte i at address i. Its contents past ACC_LEN are hidden state (R49). -/
  frame : Memory
  /-- ACC_LEN (R40). -/
  accLen : Half
  /-- EXP_LEN (R41), 0 while not known. -/
  expLen : Half
  /-- RESULT_LEN (R42), two's complement. -/
  resultLen : Half
  /-- The receive FIFO (R44), oldest byte first. -/
  fifo : List Byte
  /-- DISCARD (R45), two's complement. -/
  discard : Half
  /-- UFC (R46). -/
  ufc : Bool
  /-- MM (R47). -/
  mm : Bool
  /-- IE (R48). -/
  ie : Bool
  /-- The model's own: the input ports of the cycles to come, next cycle first (log 1). -/
  inputs : List CycleIn
  /-- The model's own: the output ports of the last cycle (log 2). -/
  out : PortOut
  deriving DecidableEq, Repr

/-- Why the machine stops with a fault. The block itself has no fault (R220). -/
inductive Fault where
  /-- Raised by the consume event when ACC_LEN is outside the frame buffer: FRAME has no byte there. SAFE: R53 and R137
  say that no run gets there, and a claim could only become unprovable (log 9). -/
  | frameIndex (accLen : Half)
  deriving DecidableEq, Repr

/-- Why the machine gives a host action no meaning. -/
inductive Refusal where
  /-- An instruction that has no meaning in this model. SAFE. No arm of `exec` raises it: every row is modelled. -/
  | notModelled (mnemonic : String)
  /-- Raised by a cycle in which the host makes a read that R63 refuses: size not 1 or 4, or a misaligned 4-byte read.
  SAFE: the spec gives such a read no step and no value. -/
  | hostRead (read : HostRead)
  /-- Raised by a cycle of a machine whose parameters are outside the legal ranges of R6. SAFE: R6 asks a model to
  reject them. -/
  | illegalParams
  deriving DecidableEq, Repr

/-- The reset state of R54 under parameters `p`. FRAME's contents are unspecified there, and no byte is listed (log 8);
the model's own fields `inputs` and `out` are empty and inactive (log 1, log 2). -/
def State.resetWith (p : Params) : State where
  params := p
  faState := .idle
  inited := false
  done := false
  crcOk := false
  rxovr := false
  frmovr := false
  illcmd := false
  resultCode := 0x00#8
  excRaw := 0x00#8
  crc := 0xFFFF#16
  reqAddr := 0x00#8
  reqFc := 0x00#8
  toEff := 0#16
  elapsed := 0#16
  defTimeout := p.defTimeoutReset
  frame := []
  accLen := 0#16
  expLen := 0#16
  resultLen := 0#16
  fifo := []
  discard := 0#16
  ufc := false
  mm := false
  ie := false
  inputs := []
  out := { cmdReady := false, rdData := none, irq := false }

/-- The machine right after reset, with the parameters of this block (R54, R6). -/
def State.reset : State := State.resetWith Params.block

end Sys2Proof.Machine
end

