-- ==== Sys2Proof/Machine/Flags.lean ====
section
/-! DEFINITION. The derived fields of spec/10_state.md: BUSY (R25), IRQ (R32), PLEN (R43), RX_COUNT (R44), and the packing
of FA_STATE and the flags into STATUS (R23, R24). -/

namespace Sys2Proof.Machine

/-- The 4-bit encoding of FA_STATE (R24). -/
def FaState.code : FaState → BitVec 4
  | .idle => 0#4
  | .hdr => 1#4
  | .bcnt => 2#4
  | .body => 3#4
  | .stall => 4#4
  | .complete => 5#4
  | .timedOut => 6#4
  | .failed => 7#4

/-- The busy states (R24, R25). -/
def FaState.isBusy : FaState → Bool
  | .hdr | .bcnt | .body | .stall => true
  | .idle | .complete | .timedOut | .failed => false

/-- The states in which the assembler takes bytes (R137). -/
def FaState.isConsuming : FaState → Bool
  | .hdr | .bcnt | .body => true
  | .idle | .stall | .complete | .timedOut | .failed => false

/-- The terminal states (R24). -/
def FaState.isTerminal : FaState → Bool
  | .complete | .timedOut | .failed => true
  | .idle | .hdr | .bcnt | .body | .stall => false

/-- BUSY (R25). -/
def State.busy (s : State) : Bool := s.faState.isBusy

/-- IRQ = DONE AND IE (R32, R223). -/
def State.irq (s : State) : Bool := s.done && s.ie

/-- RX_COUNT = len(FIFO) (R44). -/
def State.rxCount (s : State) : Half := BitVec.ofNat 16 s.fifo.length

/-- PLEN = s16(RESULT_LEN) − 3 when s16(RESULT_LEN) ≥ 4, else 0 (R43). -/
def State.plen (s : State) : Half :=
  if 4 ≤ s.resultLen.toInt then BitVec.ofInt 16 (s.resultLen.toInt - 3) else 0#16

/-- One flag as one bit. -/
def flagBit (b : Bool) : BitVec 1 := if b then 1#1 else 0#1

/-- STATUS (R23): [3:0] FA_STATE, [4] BUSY, [5] INITED, [6] DONE, [7] CRC_OK, [8] RXOVR, [9] FRMOVR, [10] ILLCMD,
[11] IRQ; the rest 0. -/
def State.statusWord (s : State) : Word :=
  0#20 ++ flagBit s.irq ++ flagBit s.illcmd ++ flagBit s.frmovr ++ flagBit s.rxovr ++ flagBit s.crcOk
    ++ flagBit s.done ++ flagBit s.inited ++ flagBit s.busy ++ s.faState.code

end Sys2Proof.Machine
end

