-- ==== Sys2Proof/Machine/Operands.lean ====
section
/-! DEFINITION. How the commands read their operands (spec/30_encoding.md R81): the timeout of START with its default
sentinel, and the bits of `cfg` and `clr`. The bytes b, addr and fc need no further reading. -/

namespace Sys2Proof.Machine

/-- The timeout sentinel: 0xFFFF, the 16-bit image of −1, means "use DEF_TIMEOUT" (R81). -/
def useDefault : Half := 0xFFFF#16

/-- START's effective timeout: DEF_TIMEOUT for the sentinel, else the operand (R132). -/
def State.effectiveTimeout (s : State) (t : Half) : Half := if t = useDefault then s.defTimeout else t

/-- cfg[0], UFC (R195). -/
def cfgUfc (cfg : BitVec 3) : Bool := cfg.getLsbD 0
/-- cfg[1], MM (R195). -/
def cfgMm (cfg : BitVec 3) : Bool := cfg.getLsbD 1
/-- cfg[2], IE (R195). -/
def cfgIe (cfg : BitVec 3) : Bool := cfg.getLsbD 2

/-- clr[0]: clear RXOVR (R196). -/
def clrRxovr (clr : BitVec 3) : Bool := clr.getLsbD 0
/-- clr[1]: clear FRMOVR (R196). -/
def clrFrmovr (clr : BitVec 3) : Bool := clr.getLsbD 1
/-- clr[2]: clear ILLCMD (R196). -/
def clrIllcmd (clr : BitVec 3) : Bool := clr.getLsbD 2

end Sys2Proof.Machine
end

