-- ==== Sys2Proof/Machine/ResultCode.lean ====
section
/-! DEFINITION. The result codes of spec/30_encoding.md R90: their names and their 8-bit values. -/

namespace Sys2Proof.Machine

/-- The named values of RESULT_CODE (R90). Value 0x09 has no name there and needs no constructor. -/
inductive ResultCode where
  | noError | illegalFunction | illegalDataAddress | illegalDataValue | serverDeviceFailure | acknowledge
  | serverDeviceBusy | negativeAcknowledge | memoryParityError | gatewayPathUnavailable
  | gatewayTargetDeviceFailedToRespond
  | timeout | malformedFrame | crcMismatch | lengthTooShort | notInitialized | unknown
  deriving DecidableEq, Repr

/-- The value column of R90. -/
def ResultCode.byte : ResultCode → Byte
  | .noError => 0x00#8
  | .illegalFunction => 0x01#8
  | .illegalDataAddress => 0x02#8
  | .illegalDataValue => 0x03#8
  | .serverDeviceFailure => 0x04#8
  | .acknowledge => 0x05#8
  | .serverDeviceBusy => 0x06#8
  | .negativeAcknowledge => 0x07#8
  | .memoryParityError => 0x08#8
  | .gatewayPathUnavailable => 0x0A#8
  | .gatewayTargetDeviceFailedToRespond => 0x0B#8
  | .timeout => 0x80#8
  | .malformedFrame => 0x81#8
  | .crcMismatch => 0x82#8
  | .lengthTooShort => 0x83#8
  | .notInitialized => 0x84#8
  | .unknown => 0xFF#8

/-- The local codes of R90: those the block itself generates. -/
def ResultCode.isLocal : ResultCode → Bool
  | .noError | .timeout | .malformedFrame | .crcMismatch | .lengthTooShort | .notInitialized | .unknown => true
  | .illegalFunction | .illegalDataAddress | .illegalDataValue | .serverDeviceFailure | .acknowledge => false
  | .serverDeviceBusy | .negativeAcknowledge | .memoryParityError | .gatewayPathUnavailable => false
  | .gatewayTargetDeviceFailedToRespond => false

end Sys2Proof.Machine
end

