-- ==== Sys2Proof/Machine/Ops.lean ====
section
/-! DEFINITION. The named operations over the byte store, the frame buffer and the FIFO, and `terminate`, the one
primitive that ends a transaction (spec/60_exceptions.md R224). -/

namespace Sys2Proof.Machine

/-- What a step or a meaning answers. -/
abbrev Out := Host.Outcome State Fault Refusal

/-- Go on with the next state; a fault or a refusal stands. -/
def andThen (o : Out) (f : State → Out) : Out :=
  match o with
  | .next s => f s
  | .fault r => .fault r
  | .refused r => .refused r

/-! ### The byte store -/

/-- What an address that is not listed reads as. The spec leaves FRAME's contents open before a byte is written
(R54, log 8). -/
def Memory.unlisted : Byte := 0x00#8

/-- The byte at an address. -/
def Memory.read : Memory → Nat → Byte
  | [], _ => Memory.unlisted
  | (k, v) :: m, a => if k = a then v else Memory.read m a

/-- Store a byte at an address, keeping the canonical form. -/
def Memory.write : Memory → Nat → Byte → Memory
  | [], a, b => if b = Memory.unlisted then [] else [(a, b)]
  | (k, v) :: m, a, b =>
    if a < k then (if b = Memory.unlisted then (k, v) :: m else (a, b) :: (k, v) :: m)
    else if a = k then (if b = Memory.unlisted then m else (a, b) :: m)
    else (k, v) :: Memory.write m a b

/-- The canonical form: addresses strictly rising, and no entry equal to what an unlisted address reads as. -/
abbrev Memory.wf (m : Memory) : Prop :=
  m.Pairwise (fun x y => x.1 < y.1) ∧ ∀ c ∈ m, c.2 ≠ Memory.unlisted

/-! ### The frame buffer -/

/-- FRAME[i] (R40). -/
def State.frameByte (s : State) (i : Nat) : Byte := Memory.read s.frame i

/-- FRAME[0 .. ACC_LEN−1], the valid bytes in arrival order (R40). -/
def State.frameBytes (s : State) : List Byte := (List.range s.accLen.toNat).map s.frameByte

/-- FRAME[ACC_LEN] <- b; ACC_LEN <- ACC_LEN + 1: append one byte (R137, R192). The addition
does not wrap below FRAME_MAX (log 19). -/
def State.appendByte (s : State) (b : Byte) : State :=
  { s with frame := Memory.write s.frame s.accLen.toNat b, accLen := s.accLen + 1#16 }

/-- There is a frame-buffer byte at index ACC_LEN. -/
def State.frameHasRoom (s : State) : Bool := decide (s.accLen.toNat < s.params.frameMax)

/-- The response payload FRAME[1 .. RESULT_LEN−3], of length PLEN (R43). -/
def State.payload (s : State) : List Byte := (List.range s.plen.toNat).map fun i => s.frameByte (1 + i)

/-! ### The receive FIFO -/

/-- The FIFO holds fewer than RXQ_DEPTH bytes (R136). -/
def State.fifoHasRoom (s : State) : Bool := decide (s.fifo.length < s.params.rxqDepth)

/-- FIFO.push(b) (R10). -/
def State.pushFifo (s : State) (b : Byte) : State := { s with fifo := s.fifo ++ [b] }

/-! ### Ending a transaction -/

/-- The sentinel RESULT_LEN −1, "no frame" (R42). -/
def noFrame : Half := 0xFFFF#16

/-- `terminate(S, code, rlen, exc)`: five fields and nothing else (R224). It is the block's one entry into a terminal
state, the nearest thing to taking an exception (R227). -/
def terminate (st : FaState) (code : Byte) (rlen : Half) (exc : Byte) (s : State) : State :=
  { s with faState := st, resultCode := code, resultLen := rlen, excRaw := exc, done := true }

/-- The acknowledgement of a finished transaction, the nearest thing to a return (R228, R135): only DONE drops. -/
def acknowledge (s : State) : State := { s with done := false }

end Sys2Proof.Machine
end

