-- ==== Sys2Proof/Machine/Crc.lean ====
section
/-! DEFINITION. The CRC engine of spec/40_crc_engine.md: the functions crc_step, crc16 and verify (R110 to R114), and the
commands CRC_INIT, CRC_BYTE and CRC_VERIFY (R115 to R117). -/

namespace Sys2Proof.Machine

/-- The polynomial 0xA001 (R110). -/
def crcPoly : Half := 0xA001#16

/-- The initial value 0xFFFF (R110). -/
def crcInitial : Half := 0xFFFF#16

/-- One shift of the register: right by 1, and XOR the polynomial if the bit shifted out is 1 (R111). -/
def crcShift (c : Half) : Half := if c.getLsbD 0 then (c >>> 1) ^^^ crcPoly else c >>> 1

/-- `n` shifts of the register. -/
def crcShifts : Nat → Half → Half
  | 0, c => c
  | n + 1, c => crcShifts n (crcShift c)

/-- `crc_step(c, b)`: XOR the byte into the low 8 bits, then 8 shifts (R111). -/
def crcStep (c : Half) (b : Byte) : Half := crcShifts 8 (c ^^^ b.setWidth 16)

/-- `crc16(s)` (R112). -/
def crc16 (s : List Byte) : Half := s.foldl crcStep crcInitial

/-- c[7:0], the byte transmitted first (R113). -/
def crcLow (c : Half) : Byte := c.extractLsb' 0 8

/-- c[15:8], the byte transmitted second (R113). -/
def crcHigh (c : Half) : Byte := c.extractLsb' 8 8

/-- A CRC value as it is transmitted and compared, low byte first (R113, R66). -/
def crcBytes (c : Half) : List Byte := [crcLow c, crcHigh c]

/-- `verify(s)`: false for fewer than 2 bytes, else the last two bytes are the CRC of all the others (R114). -/
def verify (s : List Byte) : Bool :=
  if s.length < 2 then false
  else
    let c := crc16 (s.take (s.length - 2))
    s.getD (s.length - 2) 0#8 == crcLow c && s.getD (s.length - 1) 0#8 == crcHigh c

/-- The document's `b + compute(b)`: a byte sequence with its CRC appended, as every ADU ends on the wire (R88). -/
def withCrc (b : List Byte) : List Byte := b ++ crcBytes (crc16 b)

/-- CRC_INIT: `CRC <- 0xFFFF` (R115). -/
def execCrcInit (s : State) : Out := .next { s with crc := crcInitial }

/-- CRC_BYTE b: `CRC <- crc_step(CRC, b)` (R116). -/
def execCrcByte (b : Byte) (s : State) : Out := .next { s with crc := crcStep s.crc b }

/-- CRC_VERIFY: `CRC_OK <- verify(FRAME[0 .. ACC_LEN-1])` (R117). -/
def execCrcVerify (s : State) : Out := .next { s with crcOk := verify s.frameBytes }

end Sys2Proof.Machine
end

