-- ==== Sys2Proof/Machine/Validator.lean ====
section
/-! DEFINITION. The response validator of spec/42_response_validator.md: classify and decode_exc (R170 to R172), and the
command VALIDATE (R173). -/

namespace Sys2Proof.Machine

/-- `decode_exc(e)`: a recognised protocol code decodes as itself, any other value as UNKNOWN (R172). -/
def decodeExc (recCodes : List Byte) (e : Byte) : Byte :=
  if recCodes.contains e then e else ResultCode.unknown.byte

/-- `classify(fc, s)`: the result code and the raw exception value; the first check that applies decides (R170). -/
def classify (recCodes : List Byte) (fc : Byte) (s : List Byte) : Byte × Byte :=
  if s.length < 4 then (ResultCode.lengthTooShort.byte, 0x00#8)
  else if !verify s then (ResultCode.crcMismatch.byte, 0x00#8)
  else if isExceptionFc fc (s.getD 1 0#8) then (decodeExc recCodes (s.getD 2 0#8), s.getD 2 0#8)
  else (ResultCode.noError.byte, 0x00#8)

/-- `classify` applied to the frame buffer and the latched request. -/
def State.classification (s : State) : Byte × Byte := classify s.params.recCodes s.reqFc s.frameBytes

/-- VALIDATE: RESULT_CODE and EXC_RAW from `classify`, RESULT_LEN <- ACC_LEN (R173). -/
def execValidate (s : State) : Out :=
  .next { s with resultCode := s.classification.1, excRaw := s.classification.2, resultLen := s.accLen }

end Sys2Proof.Machine
end

