-- ==== Sys2Proof/Machine/Assembler.lean ====
section
/-! DEFINITION. The frame assembler of spec/41_frame_assembler.md: the commands SET_REQ, START and DONE_ACK (R131 to
R135), the four rows of the response function-code decode (R139 to R142), the byte-count and body steps with the match
check (R143 to R147), and the timeout (R150). -/

namespace Sys2Proof.Machine

/-- SET_REQ addr, fc: `REQ_ADDR <- addr; REQ_FC <- fc` (R131). -/
def execSetReq (addr fc : Byte) (s : State) : Out := .next { s with reqAddr := addr, reqFc := fc }

/-- The common part of START: the results, the lengths and the timer are cleared, DONE drops (R132). -/
def startCommon (s : State) : State :=
  { s with done := false, resultCode := ResultCode.noError.byte, excRaw := 0x00#8, resultLen := 0#16,
           accLen := 0#16, expLen := 0#16, elapsed := 0#16 }

/-- `terminate(TIMED_OUT, TIMEOUT, 0xFFFF, 0x00)` (R134, R150). -/
def timeOut (s : State) : State := terminate .timedOut ResultCode.timeout.byte noFrame 0x00#8 s

/-- START t: begin one transaction. While not initialised it ends at once with NOT_INITIALIZED (R133); with an effective
timeout of 0 it ends at once as a timeout (R134); else the assembler awaits the header (R132). -/
def execStart (t : Half) (s : State) : Out :=
  let s0 := startCommon s
  if s.inited then
    let s1 := { s0 with toEff := s.effectiveTimeout t }
    if s1.toEff = 0#16 then .next (timeOut s1) else .next { s1 with faState := .hdr }
  else .next (terminate .failed ResultCode.notInitialized.byte noFrame 0x00#8 { s0 with toEff := 0#16 })

/-- DONE_ACK: `DONE <- 0` (R135). -/
def execDoneAck (s : State) : Out := .next (acknowledge s)

/-! ### The response function-code decode: what each row of R91 does -/

/-- FRAME[1] = 0x03: await the byte count (R139). -/
def execRspFcReadHolding (s : State) : Out := .next { s with faState := .bcnt }

/-- FRAME[1] = 0x10: 8 bytes in all (R140). -/
def execRspFcWriteMultiple (s : State) : Out := .next { s with expLen := 8#16, faState := .body }

/-- FRAME[1] = REQ_FC + 0x80: 5 bytes in all (R141). -/
def execRspFcException (_f : Byte) (s : State) : Out := .next { s with expLen := 5#16, faState := .body }

/-- Any other FRAME[1]: MALFORMED_FRAME under UFC = 0, STALL under UFC = 1 (R142). So also after an exception frame that
was dropped, where R152 names only TIMED_OUT or a matching frame (DEDUCED, log 21). -/
def execRspFcOther (_f : Byte) (s : State) : Out :=
  if s.ufc then .next { s with faState := .stall }
  else .next (terminate .failed ResultCode.malformedFrame.byte noFrame 0x00#8 s)

/-! ### The later steps of the assembler -/

/-- The byte just consumed is FRAME[2]: `EXP_LEN <- 5 + FRAME[2]; FA_STATE <- BODY` (R143). -/
def byteCountStep (s : State) : State :=
  { s with expLen := 5#16 + (s.frameByte 2).setWidth 16, faState := .body }

/-- The match check: the first two bytes of the response against the latched request (R145). -/
def State.headerMatches (s : State) : Bool := s.frameByte 0 == s.reqAddr && s.frameByte 1 == s.reqFc

/-- The header matches: classify the frame and enter COMPLETE (R146). -/
def completeFrame (s : State) : State :=
  terminate .complete s.classification.1 s.accLen s.classification.2 s

/-- The header differs: RESTART under MM = 0, HOLD under MM = 1 (R147). -/
def mismatchFrame (s : State) : State :=
  if s.mm then { s with faState := .stall } else { s with accLen := 0#16, expLen := 0#16, faState := .hdr }

/-- The body step: nothing until ACC_LEN = EXP_LEN, then the match check (R144, R145).
Above EXP_LEN, where no run gets, nothing either (log 15). -/
def bodyStep (s : State) : State :=
  if s.accLen = s.expLen then (if s.headerMatches then completeFrame s else mismatchFrame s) else s

end Sys2Proof.Machine
end

