-- ==== Sys2Proof/Machine/Control.lean ====
section
/-! DEFINITION. The control and frame-buffer commands of spec/43_control.md (R190 to R198). -/

namespace Sys2Proof.Machine

/-- NOP: nothing (R190). -/
def execNop (s : State) : Out := .next s

/-- FRM_CLEAR: `ACC_LEN <- 0; EXP_LEN <- 0` (R191). -/
def execFrmClear (s : State) : Out := .next { s with accLen := 0#16, expLen := 0#16 }

/-- FRM_PUSH b: append the byte, or drop it and set FRMOVR when the buffer is full (R192). -/
def execFrmPush (b : Byte) (s : State) : Out :=
  if s.frameHasRoom then .next (s.appendByte b) else .next { s with frmovr := true }

/-- INIT d: open and set DEF_TIMEOUT when INITED = 0, else nothing (R193). -/
def execInit (d : Half) (s : State) : Out :=
  if s.inited then .next s else .next { s with inited := true, defTimeout := d }

/-- CLOSE: close and empty the FIFO when INITED = 1, else nothing (R194). -/
def execClose (s : State) : Out :=
  if s.inited then .next { s with inited := false, fifo := [] } else .next s

/-- CFG_SET cfg: `UFC <- cfg[0]; MM <- cfg[1]; IE <- cfg[2]` (R195). -/
def execCfgSet (cfg : BitVec 3) (s : State) : Out :=
  .next { s with ufc := cfgUfc cfg, mm := cfgMm cfg, ie := cfgIe cfg }

/-- FLAGS_CLR clr: clear the sticky flags whose bit is 1 (R196). -/
def execFlagsClr (clr : BitVec 3) (s : State) : Out :=
  .next { s with
    rxovr := s.rxovr && !clrRxovr clr
    frmovr := s.frmovr && !clrFrmovr clr
    illcmd := s.illcmd && !clrIllcmd clr }

/-- What RX_CLEAR leaves in DISCARD: the number of bytes discarded, or 0xFFFF (−1) when there were none (R197). -/
def discardCount (n : Nat) : Half := if 0 < n then BitVec.ofNat 16 n else 0xFFFF#16

/-- RX_CLEAR: empty the FIFO and report the count in DISCARD (R197). -/
def execRxClear (s : State) : Out := .next { s with fifo := [], discard := discardCount s.fifo.length }

/-- A reserved OPC: `ILLCMD <- 1`, whatever the opcode (R198). -/
def execReserved (_opc : Byte) (s : State) : Out := .next { s with illcmd := true }

end Sys2Proof.Machine
end

