-- ==== Sys2Proof/Machine/Dispatch.lean ====
section
/-! DEFINITION. Which meaning each instruction has: one arm for each constructor of Instr. -/

namespace Sys2Proof.Machine

def exec (i : Instr) (s : State) : Host.Outcome State Fault Refusal :=
  match i with
  -- commands
  | .nop => Sys2Proof.Machine.execNop s
  | .crcInit => Sys2Proof.Machine.execCrcInit s
  | .crcByte b => Sys2Proof.Machine.execCrcByte b s
  | .crcVerify => Sys2Proof.Machine.execCrcVerify s
  | .frmClear => Sys2Proof.Machine.execFrmClear s
  | .frmPush b => Sys2Proof.Machine.execFrmPush b s
  | .setReq addr fc => Sys2Proof.Machine.execSetReq addr fc s
  | .start t => Sys2Proof.Machine.execStart t s
  | .doneAck => Sys2Proof.Machine.execDoneAck s
  | .validate => Sys2Proof.Machine.execValidate s
  | .init d => Sys2Proof.Machine.execInit d s
  | .close => Sys2Proof.Machine.execClose s
  | .cfgSet cfg => Sys2Proof.Machine.execCfgSet cfg s
  | .flagsClr clr => Sys2Proof.Machine.execFlagsClr clr s
  | .rxClear => Sys2Proof.Machine.execRxClear s
  | .reserved opc => Sys2Proof.Machine.execReserved opc s
  -- the response function-code decode
  | .rspFcReadHolding => Sys2Proof.Machine.execRspFcReadHolding s
  | .rspFcWriteMultiple => Sys2Proof.Machine.execRspFcWriteMultiple s
  | .rspFcException f => Sys2Proof.Machine.execRspFcException f s
  | .rspFcOther f => Sys2Proof.Machine.execRspFcOther f s

end Sys2Proof.Machine
end

