-- ==== Sys2Proof/Machine/Params.lean ====
section
/-! DEFINITION. The legal column of spec/00_scope.md R6, and the two places where TICK_MS has a meaning: the real length
of a timeout (spec/41_frame_assembler.md R151, spec/70_reset_and_hazards.md R259). -/

namespace Sys2Proof

/-- REC_CODES is a subset of 1..11 that holds 1, 2 and 11 (R6), listed once each in rising order (log 6). -/
def Params.recCodesLegal (codes : List Byte) : Bool :=
  decide (codes.Pairwise fun a b => a.toNat < b.toNat)
    && codes.all (fun c => decide (1 ≤ c.toNat) && decide (c.toNat ≤ 11))
    && codes.contains 1 && codes.contains 2 && codes.contains 11

/-- The legal parameter values of R6. DEF_TIMEOUT_RESET is legal by its type. -/
def Params.legal (p : Params) : Bool :=
  decide (260 ≤ p.frameMax) && decide (p.frameMax ≤ 768)
    && decide (1 ≤ p.rxqDepth) && decide (p.rxqDepth ≤ 0x7FFF)
    && Params.recCodesLegal p.recCodes
    && decide (1 ≤ p.tickMs)

/-- A timeout of `ticks` lasts at least this many milliseconds: (TO_EFF − 1) × TICK_MS (R151). -/
def Params.minTimeoutMs (p : Params) (ticks : Nat) : Nat := (ticks - 1) * p.tickMs

/-- A timeout of `ticks` lasts at most this many milliseconds: TO_EFF × TICK_MS (R151). -/
def Params.maxTimeoutMs (p : Params) (ticks : Nat) : Nat := ticks * p.tickMs

/-- The TO_EFF of a host that needs at least `ms` milliseconds: ⌈ms / TICK_MS⌉ + 1 (R259). -/
def Params.ticksForAtLeast (p : Params) (ms : Nat) : Nat := (ms + p.tickMs - 1) / p.tickMs + 1

/-- Where a window offset lies in the host's address map (R77). -/
def Config.windowAddress (offset : BitVec 10) : Nat := Config.windowBase + offset.toNat

end Sys2Proof
end

