-- ==== Sys2Proof/Machine/Window.lean ====
section
/-! DEFINITION. The host's read-only register window: the layout of spec/10_state.md R23 and the reads of
spec/20_memory.md R60 to R65. -/

namespace Sys2Proof.Machine

/-- The window's frame byte i: FRAME[i] below ACC_LEN, else 0; the window has FRAME_MAX of them (R65, R61). -/
def State.windowFrameByte (s : State) (i : Nat) : Byte :=
  if i < s.params.frameMax ∧ i < s.accLen.toNat then s.frameByte i else 0x00#8

/-- Two 16-bit fields in one register word: `hi` in [31:16], `lo` in [15:0]. -/
def packHalves (hi lo : Half) : Word := hi ++ lo

/-- Two bytes in one register word: `hi` in [15:8], `lo` in [7:0], the rest 0. -/
def packBytes (hi lo : Byte) : Word := 0#16 ++ (hi ++ lo)

/-- The frame bytes i, i+1, i+2 and i+3 in one word, byte i lowest (R65). -/
def State.frameWord (s : State) (i : Nat) : Word :=
  s.windowFrameByte (i + 3) ++ (s.windowFrameByte (i + 2) ++ (s.windowFrameByte (i + 1) ++ s.windowFrameByte i))

/-- The 32-bit word at a word offset of the window (R23); an offset nothing is assigned to reads 0 (R61). -/
def State.windowWord (s : State) (offset : Nat) : Word :=
  match offset with
  | 0x000 => 0#32
  | 0x004 => s.statusWord
  | 0x008 => packBytes s.excRaw s.resultCode
  | 0x00C => packHalves 0#16 s.crc
  | 0x010 => packBytes s.reqFc s.reqAddr
  | 0x014 => packHalves s.elapsed s.toEff
  | 0x018 => packHalves 0#16 s.defTimeout
  | 0x01C => packHalves s.expLen s.accLen
  | 0x020 => packHalves s.plen s.resultLen
  | 0x024 => packHalves s.discard s.rxCount
  | 0x028 => 0#29 ++ flagBit s.ie ++ flagBit s.mm ++ flagBit s.ufc
  | _ => if 0x100 ≤ offset then s.frameWord (offset - 0x100) else 0#32

/-- Byte k of a word, counted from the least significant end (R62, R64). -/
def wordByte (w : Word) (k : Nat) : Byte := w.extractLsb' (8 * k) 8

/-- The reads R63 refuses: a size other than 1 or 4, or a 4-byte read that is not aligned. -/
def HostRead.refused (r : HostRead) : Bool :=
  (r.size != 1#3 && r.size != 4#3) || (r.size == 4#3 && r.addr.toNat % 4 != 0)

/-- `RegRead(off, n)`: the data of a host read, and nothing for a read R63 refuses (R62). -/
def State.hostRead (s : State) (r : HostRead) : Option Word :=
  let a := r.addr.toNat
  if r.refused then none
  else if r.size = 4#3 then some (s.windowWord a)
  else some ((wordByte (s.windowWord (a - a % 4)) (a % 4)).setWidth 32)

end Sys2Proof.Machine
end

