-- ==== Sys2Proof/Machine/Cycle.lean ====
section
/-! DEFINITION. One clock cycle (spec/10_state.md R50): the command phase with the hold rule (R51), the consume event
(spec/41_frame_assembler.md R137, R138), the enqueue event (R136) and the tick event (R149), the reset cycle
(spec/70_reset_and_hazards.md R250), and the output ports (R20). -/

namespace Sys2Proof.Machine

/-- `cmd_ready = NOT rst AND NOT BUSY` (R51). -/
def cmdReady (inp : CycleIn) (s : State) : Bool := !inp.rst && !s.busy

/-- Phase 1: a presented command is executed when the block is not busy, else it is held and nothing happens (R50,
R51). -/
def commandPhase (cmd : Option Word) (s : State) : Out :=
  match cmd with
  | none => .next s
  | some w => if s.busy then .next s else exec (decodeCommand w) s

/-- The header step: when ACC_LEN has just become 2, FRAME[1] is decoded and its row is run (R138, R91).
Another ACC_LEN decodes nothing (log 15). -/
def headerStep (s : State) : Out :=
  if s.accLen = 2#16 then exec (decodeResponse s.reqFc (s.frameByte 1)) s else .next s

/-- What the assembler does with the byte it has just taken, by the state it was in (R137). -/
def consumedStep (s : State) : Out :=
  match s.faState with
  | .hdr => headerStep s
  | .bcnt => .next (byteCountStep s)
  | .body => .next (bodyStep s)
  | .idle | .stall | .complete | .timedOut | .failed => .next s

/-- Phase 2, the consume event: in HDR, BCNT or BODY one byte moves from the FIFO to the frame (R137). An ACC_LEN outside
the frame buffer is a fault; R53 rules it out (log 9). -/
def consumePhase (s : State) : Out :=
  if s.faState.isConsuming then
    match s.fifo with
    | [] => .next s
    | b :: rest =>
      if s.frameHasRoom then consumedStep (State.appendByte { s with fifo := rest } b)
      else .fault (.frameIndex s.accLen)
  else .next s

/-- Phase 3, the enqueue event: a byte is dropped while not initialised, pushed while there is room, else lost with RXOVR
(R136). -/
def enqueuePhase (rx : Option Byte) (s : State) : State :=
  match rx with
  | none => s
  | some b => if s.inited then (if s.fifoHasRoom then s.pushFifo b else { s with rxovr := true }) else s

/-- Phase 4, the tick event: while busy ELAPSED counts, and at TO_EFF the transaction times out (R149, R150). -/
def tickPhase (tick : Bool) (s : State) : State :=
  if tick && s.busy then
    let s1 := { s with elapsed := s.elapsed + 1#16 }
    if s1.toEff.toNat ≤ s1.elapsed.toNat then timeOut s1 else s1
  else s

/-- The four phases in their order, each on the state the phase before it left (R50). -/
def phases (inp : CycleIn) (s : State) : Out :=
  andThen (commandPhase inp.cmd s) fun s1 =>
    andThen (consumePhase s1) fun s2 =>
      .next (tickPhase inp.tick (enqueuePhase inp.rx s2))

/-- The reset step: every field of the block takes its reset value, and nothing else happens (R250). The parameters stay,
and so do the inputs to come. -/
def resetStep (s : State) : State := { State.resetWith s.params with inputs := s.inputs, out := s.out }

/-- The output ports of a cycle, from the state at its start (R20, R51, R52, R223), a reset
cycle among them (log 16). -/
def portOut (inp : CycleIn) (s : State) : PortOut where
  cmdReady := cmdReady inp s
  rdData := inp.read.bind s.hostRead
  irq := s.irq

/-- The host makes a read that R63 refuses. -/
def CycleIn.refusedRead (inp : CycleIn) : Option HostRead :=
  match inp.read with
  | none => none
  | some r => if r.refused then some r else none

/-- One cycle with given inputs. Illegal parameters (R6) and a refused read (R63, log 4) get no step. -/
def cycle (inp : CycleIn) (s : State) : Out :=
  if s.params.legal then
    match inp.refusedRead with
    | some r => .refused (.hostRead r)
    | none =>
      let s0 := { s with out := portOut inp s }
      if inp.rst then .next (resetStep s0) else phases inp s0
  else .refused .illegalParams

/-- The inputs of the next cycle; a cycle with no input when none is listed (log 1). -/
def State.nextInput (s : State) : CycleIn := s.inputs.headD CycleIn.idle

/-- The state with the next cycle's inputs taken. -/
def State.dropInput (s : State) : State := { s with inputs := s.inputs.tail }

/-- A cycle that presents a command word and nothing else. -/
def CycleIn.ofCommand (w : Word) : CycleIn := { CycleIn.idle with cmd := some w }

/-- `s` with a command word presented in the next cycle, and the block free to accept it. -/
def State.presentCommand (s : State) (w : Word) : State :=
  { s with inputs := CycleIn.ofCommand w :: s.inputs, faState := if s.busy then .idle else s.faState }

/-- `s` with a response function-code byte waiting at the head of the FIFO, in a running transaction that has taken its
address byte: the state a START 0xFFFE and one consumed byte leave in these fields (log 13). -/
def State.presentResponseFc (s : State) (f : Byte) : State :=
  { s with inputs := CycleIn.idle :: s.inputs, inited := true, done := false, faState := .hdr, accLen := 1#16,
           expLen := 0#16, toEff := 0xFFFE#16, elapsed := 0#16, fifo := [f] }

/-- The next instruction placed where the next step takes it from: a 32-bit word on the command port, an 8-bit response
function code in the FIFO (log 13). -/
def State.placeInstruction (s : State) (nbits w : Nat) : State :=
  if nbits = 32 then s.presentCommand (BitVec.ofNat 32 w)
  else if nbits = 8 then s.presentResponseFc (BitVec.ofNat 8 w)
  else s

end Sys2Proof.Machine
end

