-- ==== Sys2Proof/Machine/Step.lean ====
section
/-! DEFINITION. One step of the machine: one clock edge (spec/10_state.md R50) with the next cycle's inputs. -/

namespace Sys2Proof.Machine

/-- One clock edge. -/
def step (s : State) : Host.Outcome State Fault Refusal := cycle s.nextInput s.dropInput

/-- `s` with a table row's bits placed so that the next step runs the instruction they encode (log 13). -/
def State.withFetchWord (s : State) (nbits w : Nat) : State := s.placeInstruction nbits w

end Sys2Proof.Machine
end

