-- ==== Sys2Proof/Machine/Assembly.lean ====
section
/-! DEFINITION. The host-side way of writing command programs: the lines of spec/30_encoding.md R86, the
pseudo-instructions of R87, and the input cycles a line stands for. Reading the text is at the end; what the spec leaves
open there is said in log 20. -/

namespace Sys2Proof.Machine

/-- The pseudo-instructions of R87. -/
inductive Pseudo where
  | crcBytes (bs : List Byte)
  | crcOf (bs : List Byte)
  | frmLoad (bs : List Byte)
  | check (bs : List Byte)
  | verify (bs : List Byte)
  | startDefault
  | waitDone
  deriving DecidableEq, Repr

/-- A line of a command program (R86): a command, a pseudo-instruction, a stimulus line, or a comment. -/
inductive Line where
  | command (i : Instr)
  | pseudo (p : Pseudo)
  | rx (bs : List Byte)
  | tick (n : Nat)
  | idle (n : Nat)
  | rst
  | comment
  deriving DecidableEq, Repr

/-- The expansion column of R87. WAIT_DONE is a loop of the host and expands to no command. -/
def Pseudo.expand : Pseudo → List Instr
  | .crcBytes bs => bs.map Instr.crcByte
  | .crcOf bs => .crcInit :: bs.map Instr.crcByte
  | .frmLoad bs => .frmClear :: bs.map Instr.frmPush
  | .check bs => .frmClear :: (bs.map Instr.frmPush ++ [.validate])
  | .verify bs => .frmClear :: (bs.map Instr.frmPush ++ [.crcVerify])
  | .startDefault => [.start useDefault]
  | .waitDone => []

/-- The cycles in which the host presents one command: `held` cycles in which it is held, then the one that accepts it,
with no other input (R86). A response function code is no command and has none. -/
def commandCycles (held : Nat) (i : Instr) : List CycleIn :=
  match encode i with
  | .cmd32 w => List.replicate (held + 1) (CycleIn.ofCommand w)
  | .rxFc8 _ => []

/-- The cycles of a line whose commands are accepted at once, as a test program presents them (R86). -/
def Line.cycles : Line → List CycleIn
  | .command i => commandCycles 0 i
  | .pseudo p => p.expand.flatMap (commandCycles 0)
  | .rx bs => bs.map fun b => { CycleIn.idle with rx := some b }
  | .tick n => List.replicate n { CycleIn.idle with tick := true }
  | .idle n => List.replicate n CycleIn.idle
  | .rst => [{ CycleIn.idle with rst := true }]
  | .comment => []

/-- The cycles of a program, line after line. -/
def scriptCycles (lines : List Line) : List CycleIn := lines.flatMap Line.cycles

/-- What the host loop of WAIT_DONE reads: bit 6 (DONE) of the word at offset 0x004 (R87). -/
def State.waitDoneReads (s : State) : Bool :=
  match s.hostRead { addr := 0x004#10, size := 4#3 } with
  | some w => w.getLsbD 6
  | none => false

/-- What a line asserts of the state after the lines before it: WAIT_DONE asserts DONE = 1 (R87). -/
def Line.asserts (l : Line) (s : State) : Bool :=
  match l with
  | .pseudo .waitDone => s.waitDoneReads
  | .command _ | .pseudo _ | .rx _ | .tick _ | .idle _ | .rst | .comment => true

/-! ### Reading a line -/

/-- Why a text is no line. -/
inductive AsmError where
  | unknownMnemonic
  | badOperand
  | operandCount
  deriving DecidableEq, Repr

/-- The non-empty fields of a text between separators; `field` is the field being read, backwards. -/
def fieldsOf (isSep : Char → Bool) : List Char → List Char → List (List Char)
  | [], field => if field.isEmpty then [] else [field.reverse]
  | c :: cs, field =>
    if isSep c then (if field.isEmpty then [] else [field.reverse]) ++ fieldsOf isSep cs []
    else fieldsOf isSep cs (c :: field)

/-- The value of a hexadecimal digit. -/
def hexDigit (c : Char) : Option Nat :=
  if '0' ≤ c ∧ c ≤ '9' then some (c.toNat - '0'.toNat)
  else if 'a' ≤ c ∧ c ≤ 'f' then some (c.toNat - 'a'.toNat + 10)
  else if 'A' ≤ c ∧ c ≤ 'F' then some (c.toNat - 'A'.toNat + 10)
  else none

/-- A number in a base, read from its digits. -/
def digitsValue (base : Nat) : List Char → Nat → Option Nat
  | [], acc => some acc
  | c :: cs, acc =>
    match hexDigit c with
    | none => none
    | some d => if d < base then digitsValue base cs (acc * base + d) else none

/-- An operand: hex (`0x..`) or decimal (R86). -/
def numberOf : List Char → Option Nat
  | [] => none
  | '0' :: 'x' :: c :: cs => digitsValue 16 (c :: cs) 0
  | cs => digitsValue 10 cs 0

/-- An operand that fits `n` bits. -/
def operandOf (n : Nat) (t : List Char) : Except AsmError (BitVec n) :=
  match numberOf t with
  | none => .error .badOperand
  | some v => if v < 2 ^ n then .ok (BitVec.ofNat n v) else .error .badOperand

/-- A byte of a byte sequence: two hex digits (R9). -/
def hexByteOf : List Char → Except AsmError Byte
  | [a, b] =>
    match digitsValue 16 [a, b] 0 with
    | none => .error .badOperand
    | some v => .ok (BitVec.ofNat 8 v)
  | _ => .error .badOperand

/-- A byte sequence. -/
def hexBytesOf : List (List Char) → Except AsmError (List Byte)
  | [] => .ok []
  | t :: ts =>
    match hexByteOf t, hexBytesOf ts with
    | .ok b, .ok bs => .ok (b :: bs)
    | .error e, _ => .error e
    | _, .error e => .error e

/-- The ARG bit of a flag name of CFG_SET (R86, R81). -/
def cfgFlag (t : List Char) : Option Half :=
  if t = "UFC".toList then some 1 else if t = "MM".toList then some 2 else if t = "IE".toList then some 4 else none

/-- The ARG bit of a flag name of FLAGS_CLR (R86, R81). -/
def clrFlag (t : List Char) : Option Half :=
  if t = "RXOVR".toList then some 1 else if t = "FRMOVR".toList then some 2
  else if t = "ILLCMD".toList then some 4 else none

/-- The union of a list of flag names. -/
def flagsOf (flag : List Char → Option Half) : List (List Char) → Option Half
  | [] => some 0
  | t :: ts =>
    match flag t, flagsOf flag ts with
    | some a, some b => some (a ||| b)
    | _, _ => none

/-- The operand of CFG_SET or FLAGS_CLR: a number, or a list of flag names separated by a bar (R86). -/
def flagOperandOf (flag : List Char → Option Half) (t : List Char) : Except AsmError Half :=
  match operandOf 16 t with
  | .ok v => .ok v
  | .error e =>
    match flagsOf flag (fieldsOf (· == '|') t []) with
    | some v => .ok v
    | none => .error e

/-- A line with no operand. -/
def noOperand (l : Line) : List (List Char) → Except AsmError Line
  | [] => .ok l
  | _ => .error .operandCount

/-- A line with one operand. -/
def oneOperand {α : Type} (read : List Char → Except AsmError α) (mk : α → Line) :
    List (List Char) → Except AsmError Line
  | [t] => (read t).map mk
  | _ => .error .operandCount

/-- START's operand: a number, or DEFAULT (R86, R87). -/
def startLineOf : List (List Char) → Except AsmError Line :=
  oneOperand (fun t => if t = "DEFAULT".toList then .ok (Line.pseudo .startDefault)
    else (operandOf 16 t).map fun v => Line.command (.start v)) id

/-- SET_REQ takes the address first (R86). -/
def setReqLineOf : List (List Char) → Except AsmError Line
  | [a, f] =>
    match operandOf 8 a, operandOf 8 f with
    | .ok addr, .ok fc => .ok (.command (.setReq addr fc))
    | .error e, _ => .error e
    | _, .error e => .error e
  | _ => .error .operandCount

/-- A line that carries a byte sequence. -/
def bytesLineOf (mk : List Byte → Line) (ts : List (List Char)) : Except AsmError Line := (hexBytesOf ts).map mk

/-- The line of a mnemonic (R83, R86, R87) and its operands. -/
def lineOfTokens (m : List Char) (ops : List (List Char)) : Except AsmError Line :=
  if m = "NOP".toList then noOperand (.command .nop) ops
  else if m = "CRC_INIT".toList then noOperand (.command .crcInit) ops
  else if m = "CRC_BYTE".toList then oneOperand (operandOf 8) (fun b => .command (.crcByte b)) ops
  else if m = "CRC_VERIFY".toList then noOperand (.command .crcVerify) ops
  else if m = "FRM_CLEAR".toList then noOperand (.command .frmClear) ops
  else if m = "FRM_PUSH".toList then oneOperand (operandOf 8) (fun b => .command (.frmPush b)) ops
  else if m = "SET_REQ".toList then setReqLineOf ops
  else if m = "START".toList then startLineOf ops
  else if m = "DONE_ACK".toList then noOperand (.command .doneAck) ops
  else if m = "VALIDATE".toList then noOperand (.command .validate) ops
  else if m = "INIT".toList then oneOperand (operandOf 16) (fun d => .command (.init d)) ops
  else if m = "CLOSE".toList then noOperand (.command .close) ops
  else if m = "CFG_SET".toList then
    oneOperand (flagOperandOf cfgFlag) (fun v => .command (.cfgSet (argBits v))) ops
  else if m = "FLAGS_CLR".toList then
    oneOperand (flagOperandOf clrFlag) (fun v => .command (.flagsClr (argBits v))) ops
  else if m = "RX_CLEAR".toList then noOperand (.command .rxClear) ops
  else if m = "CRC_BYTES".toList then bytesLineOf (fun bs => .pseudo (.crcBytes bs)) ops
  else if m = "CRC_OF".toList then bytesLineOf (fun bs => .pseudo (.crcOf bs)) ops
  else if m = "FRM_LOAD".toList then bytesLineOf (fun bs => .pseudo (.frmLoad bs)) ops
  else if m = "CHECK".toList then bytesLineOf (fun bs => .pseudo (.check bs)) ops
  else if m = "VERIFY".toList then bytesLineOf (fun bs => .pseudo (.verify bs)) ops
  else if m = "WAIT_DONE".toList then noOperand (.pseudo .waitDone) ops
  else if m = "@rx".toList then bytesLineOf Line.rx ops
  else if m = "@tick".toList then oneOperand (fun t => (numberOf t).elim (.error .badOperand) .ok) Line.tick ops
  else if m = "@idle".toList then oneOperand (fun t => (numberOf t).elim (.error .badOperand) .ok) Line.idle ops
  else if m = "@rst".toList then noOperand .rst ops
  else .error .unknownMnemonic

/-- Read one line. A line starting with a semicolon is a comment (R86), and so is an empty one (log 20). -/
def parseLine (text : List Char) : Except AsmError Line :=
  match text with
  | ';' :: _ => .ok .comment
  | _ =>
    match fieldsOf (fun c => c == ' ' || c == ',') text [] with
    | [] => .ok .comment
    | m :: ops => lineOfTokens m ops

end Sys2Proof.Machine
end

