-- ==== Sys2Proof/Safety.lean ====
section
/-! DEFINITION. The terms the claims use: the invariant of spec/10_state.md R53, what counts as a safe step, which command
a cycle accepts, which inputs a run is given, and what of a state can be observed. -/

namespace Sys2Proof.Machine

/-! ### The invariant -/

/-- FRAME is in canonical form and inside the buffer, and 0 ≤ ACC_LEN ≤ FRAME_MAX (R40, R53). -/
abbrev State.FrameInv (s : State) : Prop :=
  Memory.wf s.frame ∧ (∀ c ∈ s.frame, c.1 < s.params.frameMax) ∧ s.accLen.toNat ≤ s.params.frameMax

/-- 0 ≤ RX_COUNT ≤ RXQ_DEPTH, and INITED = 0 implies RX_COUNT = 0 (R53). -/
abbrev State.FifoInv (s : State) : Prop :=
  s.fifo.length ≤ s.params.rxqDepth ∧ (s.inited = false → s.fifo = [])

/-- ELAPSED ≤ TO_EFF always (R53), and strictly while busy (R149, R150). -/
abbrev State.TimerInv (s : State) : Prop :=
  s.elapsed.toNat ≤ s.toEff.toNat ∧ (s.busy = true → s.elapsed.toNat < s.toEff.toNat)

/-- In BODY one of the three branches of R91 was taken: EXP_LEN is what that branch decoded (R139 to R143). -/
abbrev State.BodyBranch (s : State) : Prop :=
  (s.frameByte 1 = 0x03#8 ∧ 3 ≤ s.accLen.toNat ∧ s.expLen.toNat = 5 + (s.frameByte 2).toNat)
    ∨ (s.frameByte 1 = 0x10#8 ∧ s.expLen.toNat = 8)
    ∨ ((s.frameByte 1).toNat = s.reqFc.toNat + 0x80 ∧ s.expLen.toNat = 5)

/-- What each consuming state says of the lengths (R53) and of the branch taken. -/
abbrev State.AssemblerInv (s : State) : Prop :=
  (s.faState = .hdr → s.accLen.toNat ≤ 1 ∧ s.expLen = 0#16)
    ∧ (s.faState = .bcnt → s.accLen.toNat = 2 ∧ s.expLen = 0#16 ∧ s.frameByte 1 = 0x03#8)
    ∧ (s.faState = .body →
        2 ≤ s.accLen.toNat ∧ s.accLen.toNat < s.expLen.toNat ∧ s.expLen.toNat ≤ 260 ∧ s.BodyBranch)

/-- The values RESULT_CODE may hold: the local codes of R90 and the recognised protocol codes (R90, R172). -/
abbrev resultCodeLegal (recCodes : List Byte) (c : Byte) : Prop :=
  c ∈ [0x00#8, 0x80#8, 0x81#8, 0x82#8, 0x83#8, 0x84#8, 0xFF#8] ∨ c ∈ recCodes

/-- The result fields hold legal values, and while a transaction is in flight there is no result yet: the transport is
open, DONE = 0 and the results are what START wrote (R132, R33, R90). -/
abbrev State.ResultInv (s : State) : Prop :=
  resultCodeLegal s.params.recCodes s.resultCode
    ∧ (s.busy = true →
        s.inited = true ∧ s.done = false ∧ s.resultCode = 0x00#8 ∧ s.excRaw = 0x00#8 ∧ s.resultLen = 0#16)
    ∧ (s.faState = .idle → s.done = false)

/-- The invariant of R53, with legal parameters (R6). -/
abbrev State.Inv (s : State) : Prop :=
  s.params.legal = true ∧ s.FrameInv ∧ s.FifoInv ∧ s.TimerInv ∧ s.AssemblerInv ∧ s.ResultInv

/-! ### Safe steps -/

/-- A step is safe when it does not stop with a fault. A refusal is no fault: it is a condition on the host (R220). -/
def State.StepSafe (s : State) : Prop := ∀ r, step s ≠ .fault r

/-! ### What a cycle does -/

/-- The command the next cycle accepts (R51). -/
def State.accepted (s : State) : Option Instr :=
  if cmdReady s.nextInput s then s.nextInput.cmd.map decodeCommand else none

/-- The next cycle makes no read that R63 refuses. -/
abbrev State.ReadAllowed (s : State) : Prop := s.nextInput.refusedRead = none

/-- The consume, enqueue and tick phases of a cycle, after its command (R50). -/
def afterCommand (inp : CycleIn) (s : State) : Out :=
  andThen (consumePhase s) fun s2 => .next (tickPhase inp.tick (enqueuePhase inp.rx s2))

/-- The state the phases of the next cycle begin from: its inputs taken, its output ports driven. -/
def State.beginCycle (s : State) : State := { s.dropInput with out := portOut s.nextInput s.dropInput }

/-- A frame has completed and nothing has changed it since (R53). -/
abbrev State.FreshComplete (s : State) : Prop :=
  s.faState = .complete ∧ s.resultLen = s.accLen ∧ s.accLen = s.expLen ∧ 5 ≤ s.accLen.toNat
    ∧ s.frameByte 0 = s.reqAddr ∧ s.frameByte 1 = s.reqFc

/-- A transaction has ended without a frame and no VALIDATE has followed (R53). -/
abbrev State.FreshNoFrame (s : State) : Prop :=
  (s.faState = .timedOut ∨ s.faState = .failed) ∧ s.resultLen = noFrame

/-- The host's 4-byte read at an offset gives this word (R62). -/
abbrev State.Reads4 (s : State) (offset : BitVec 10) (w : Word) : Prop :=
  s.hostRead { addr := offset, size := 4#3 } = some w

/-- The host's 1-byte read at an offset gives this byte (R62). -/
abbrev State.Reads1 (s : State) (offset : BitVec 10) (b : Byte) : Prop :=
  s.hostRead { addr := offset, size := 1#3 } = some (b.setWidth 32)

/-! ### Runs over given inputs -/

/-- `n` steps from a state. -/
def runFor (n : Nat) (s : State) : Out := Host.Core.run Sys2Proof.core n s

/-- A run over given inputs, one step each. -/
def runInputs (inputs : List CycleIn) (s : State) : Out := runFor inputs.length { s with inputs := inputs }

/-- The bytes the transport delivers in these cycles, in order. -/
def rxBytes (inputs : List CycleIn) : List Byte := inputs.filterMap CycleIn.rx

/-- The ticks of these cycles. -/
def tickCount (inputs : List CycleIn) : Nat := (inputs.filter CycleIn.tick).length

/-- No reset and no refused read in these cycles. -/
abbrev quietInputs (inputs : List CycleIn) : Prop := ∀ i ∈ inputs, i.rst = false ∧ i.refusedRead = none

/-- No command is presented in these cycles. -/
abbrev noCommands (inputs : List CycleIn) : Prop := ∀ i ∈ inputs, i.cmd = none

/-! ### Terms of the encoding and of the CRC laws -/

/-- The bits of a command word that are read, by its OPC: OPC itself and the ARG bits R81 gives the command's operands.
All others are ignored (R82). -/
def usedBits (opc : Byte) : Word :=
  if opc = 0x02#8 ∨ opc = 0x11#8 then 0xFF0000FF#32
  else if opc = 0x20#8 ∨ opc = 0x21#8 ∨ opc = 0x40#8 then 0xFF00FFFF#32
  else if opc = 0x42#8 ∨ opc = 0x43#8 then 0xFF000007#32
  else 0xFF000000#32

/-- The CRC fed one data bit: XOR it into the bit shifted out, shift, and XOR the polynomial if the result is 1. -/
def crcFeedBit (c : Half) (bit : Bool) : Half :=
  if (c.getLsbD 0 ^^ bit) then (c >>> 1) ^^^ 0xA001#16 else c >>> 1

/-- A byte fed bit by bit, least significant bit first (R110 "LSB-first bit processing per byte"). -/
def crcFeedByte (c : Half) (b : Byte) : Half := (List.range 8).foldl (fun c k => crcFeedBit c (b.getLsbD k)) c

/-- Words of this OPC are held while the block is busy (R51, the precondition of every command rule). -/
abbrev HeldWhileBusy (opc : Byte) : Prop :=
  ∀ (w : Word) (s : State), opcOf w = opc → s.busy = true → commandPhase (some w) s = .next s

/-- A byte sequence with bit `k` of its byte `i` flipped (R118). -/
def flipBit (s : List Byte) (i k : Nat) : List Byte := s.set i (s.getD i 0#8 ^^^ (1#8 <<< k))

/-! ### What can be observed -/

/-- A state without the frame bytes at or past ACC_LEN, which are hidden state (R40, R49). -/
def State.visible (s : State) : State :=
  { s with frame := s.frame.filter fun c => decide (c.1 < s.accLen.toNat) }

/-- An outcome without the hidden frame bytes of its next state. -/
def visibleOutcome (o : Out) : Out :=
  match o with
  | .next s => .next s.visible
  | .fault r => .fault r
  | .refused r => .refused r

end Sys2Proof.Machine
end

