-- ==== Sys2Proof/Certificates/Slice0/Obligations.lean ====
section
/-! DEFINITION. The statements for the provers. Each docstring names the rules of spec/ it formalises; where a clause is
the model's own choice it says so and names the log entry. -/

open Sys2Proof Sys2Proof.Machine

/-! ### Reset and parameters -/

/-- R54: after reset every field holds its value of the table. FRAME's contents are unspecified there and unobservable:
every frame byte of the window reads 0. (That the model starts with this block's parameters is R6.) -/
def Obligations.ResetStateValues : Prop :=
  State.reset = State.resetWith Params.block ∧ Params.block.defTimeoutReset = 500#16 ∧
  ∀ p : Params,
    (State.resetWith p).faState = .idle ∧ (State.resetWith p).faState.code = 0#4 ∧ (State.resetWith p).busy = false ∧
    (State.resetWith p).inited = false ∧ (State.resetWith p).done = false ∧ (State.resetWith p).crcOk = false ∧
    (State.resetWith p).rxovr = false ∧ (State.resetWith p).frmovr = false ∧ (State.resetWith p).illcmd = false ∧
    (State.resetWith p).irq = false ∧ (State.resetWith p).resultCode = 0x00#8 ∧ (State.resetWith p).excRaw = 0x00#8 ∧
    (State.resetWith p).crc = 0xFFFF#16 ∧ (State.resetWith p).reqAddr = 0x00#8 ∧ (State.resetWith p).reqFc = 0x00#8 ∧
    (State.resetWith p).toEff = 0#16 ∧ (State.resetWith p).elapsed = 0#16 ∧
    (State.resetWith p).defTimeout = p.defTimeoutReset ∧ (State.resetWith p).accLen = 0#16 ∧
    (∀ i, (State.resetWith p).windowFrameByte i = 0#8) ∧ (State.resetWith p).expLen = 0#16 ∧
    (State.resetWith p).resultLen = 0#16 ∧ (State.resetWith p).plen = 0#16 ∧ (State.resetWith p).fifo = [] ∧
    (State.resetWith p).rxCount = 0#16 ∧ (State.resetWith p).discard = 0#16 ∧ (State.resetWith p).ufc = false ∧
    (State.resetWith p).mm = false ∧ (State.resetWith p).ie = false

/-- R250: in a cycle with `rst` = 1 the step gives the reset state and only that, whatever command, byte or tick the cycle
carries. `cmd_ready` = 0 in it (R51). That `rd_data` and `irq` of a reset cycle are those of the state at its start is the
model's choice, an inference from R52 and R223 (log 16), and so is that the outputs and the inputs to come stand in State
(log 1, log 2). -/
def Obligations.ResetCycleGivesResetState : Prop :=
  ∀ s : State, s.params.legal = true → s.ReadAllowed → s.nextInput.rst = true →
    step s = .next { State.resetWith s.params with
      inputs := s.inputs.tail
      out := { cmdReady := false, rdData := s.nextInput.read.bind s.hostRead, irq := s.irq } }

/-- R6: which parameter values are legal, that this block's are, and that a machine with illegal ones is rejected. That
REC_CODES is listed in rising order, and that the rejection is a refusal of every step, are the model's choice (log 5,
log 6). -/
def Obligations.IllegalParametersAreRejected : Prop :=
  Params.block.frameMax = 260 ∧ Params.block.rxqDepth = 256 ∧ Params.block.recCodes = [1, 2, 3, 4, 5, 6, 8, 10, 11] ∧
  Params.block.tickMs = 1 ∧ Params.block.defTimeoutReset = 500#16 ∧
  Params.block.legal = true ∧
  (∀ p : Params, p.legal = true ↔
    (260 ≤ p.frameMax ∧ p.frameMax ≤ 768) ∧ (1 ≤ p.rxqDepth ∧ p.rxqDepth ≤ 0x7FFF) ∧ 1 ≤ p.tickMs ∧
    (∀ c ∈ p.recCodes, 1 ≤ c.toNat ∧ c.toNat ≤ 11) ∧ (1 ∈ p.recCodes ∧ 2 ∈ p.recCodes ∧ 11 ∈ p.recCodes) ∧
    p.recCodes.Pairwise fun a b => a.toNat < b.toNat) ∧
  ∀ s : State, s.params.legal = false → step s = .refused .illegalParams

/-! ### The register window -/

/-- R23, R61: where each field lies in the window. Bits not listed read 0, and so do all other offsets. FA_STATE stands in
STATUS[3:0] by its 4-bit value. The last three clauses say what the derived fields in it are: RX_COUNT is the number of bytes
in the FIFO (R44), and PLEN is s16(RESULT_LEN) − 3 when s16(RESULT_LEN) ≥ 4, else 0 (R43). -/
def Obligations.WindowWordsPackTheFields : Prop :=
  ∀ s : State,
    s.Reads4 0x000#10 0#32 ∧
    (∃ w, s.Reads4 0x004#10 w ∧
      (s.faState = .idle → w.extractLsb' 0 4 = 0#4) ∧ (s.faState = .hdr → w.extractLsb' 0 4 = 1#4) ∧
      (s.faState = .bcnt → w.extractLsb' 0 4 = 2#4) ∧ (s.faState = .body → w.extractLsb' 0 4 = 3#4) ∧
      (s.faState = .stall → w.extractLsb' 0 4 = 4#4) ∧ (s.faState = .complete → w.extractLsb' 0 4 = 5#4) ∧
      (s.faState = .timedOut → w.extractLsb' 0 4 = 6#4) ∧ (s.faState = .failed → w.extractLsb' 0 4 = 7#4) ∧
      w.getLsbD 4 = s.busy ∧ w.getLsbD 5 = s.inited ∧ w.getLsbD 6 = s.done ∧ w.getLsbD 7 = s.crcOk ∧
      w.getLsbD 8 = s.rxovr ∧ w.getLsbD 9 = s.frmovr ∧ w.getLsbD 10 = s.illcmd ∧ w.getLsbD 11 = s.irq ∧
      w.extractLsb' 12 20 = 0#20) ∧
    (∃ w, s.Reads4 0x008#10 w ∧ w.extractLsb' 0 8 = s.resultCode ∧ w.extractLsb' 8 8 = s.excRaw ∧
      w.extractLsb' 16 16 = 0#16) ∧
    (∃ w, s.Reads4 0x00C#10 w ∧ w.extractLsb' 0 16 = s.crc ∧ w.extractLsb' 16 16 = 0#16) ∧
    (∃ w, s.Reads4 0x010#10 w ∧ w.extractLsb' 0 8 = s.reqAddr ∧ w.extractLsb' 8 8 = s.reqFc ∧
      w.extractLsb' 16 16 = 0#16) ∧
    (∃ w, s.Reads4 0x014#10 w ∧ w.extractLsb' 0 16 = s.toEff ∧ w.extractLsb' 16 16 = s.elapsed) ∧
    (∃ w, s.Reads4 0x018#10 w ∧ w.extractLsb' 0 16 = s.defTimeout ∧ w.extractLsb' 16 16 = 0#16) ∧
    (∃ w, s.Reads4 0x01C#10 w ∧ w.extractLsb' 0 16 = s.accLen ∧ w.extractLsb' 16 16 = s.expLen) ∧
    (∃ w, s.Reads4 0x020#10 w ∧ w.extractLsb' 0 16 = s.resultLen ∧ w.extractLsb' 16 16 = s.plen) ∧
    (∃ w, s.Reads4 0x024#10 w ∧ w.extractLsb' 0 16 = s.rxCount ∧ w.extractLsb' 16 16 = s.discard) ∧
    (∃ w, s.Reads4 0x028#10 w ∧ w.getLsbD 0 = s.ufc ∧ w.getLsbD 1 = s.mm ∧ w.getLsbD 2 = s.ie ∧
      w.extractLsb' 3 29 = 0#29) ∧
    (∀ i, i < s.params.frameMax → i < 768 →
      s.Reads1 (BitVec.ofNat 10 (0x100 + i)) (if i < s.accLen.toNat then s.frameByte i else 0x00#8)) ∧
    (∀ a : BitVec 10, 0x02C ≤ a.toNat ∧ a.toNat < 0x100 ∨ 0x100 + s.params.frameMax ≤ a.toNat → s.Reads1 a 0#8) ∧
    (∀ a : BitVec 10, a.toNat % 4 = 0 →
      0x02C ≤ a.toNat ∧ a.toNat < 0x100 ∨ 0x100 + s.params.frameMax ≤ a.toNat → s.Reads4 a 0#32) ∧
    (s.params.legal = true → s.FifoInv → s.rxCount.toNat = s.fifo.length) ∧
    (4 ≤ s.resultLen.toInt → (s.plen.toNat : Int) = s.resultLen.toInt - 3) ∧
    (s.resultLen.toInt < 4 → s.plen = 0#16)

/-- R65: frame byte i reads at 0x100 + i, and as 0 at or past ACC_LEN; the 4-byte read at 0x100 + 4j returns the frame
bytes 4j .. 4j+3, the first-received byte lowest. The last clauses say that `frameBytes` is FRAME[0 .. ACC_LEN−1]. -/
def Obligations.FrameWordReadsFourBytes : Prop :=
  ∀ s : State, s.accLen.toNat ≤ s.params.frameMax →
    (∀ i, i < s.params.frameMax → i < 768 →
      s.Reads1 (BitVec.ofNat 10 (0x100 + i)) (if i < s.accLen.toNat then s.frameByte i else 0x00#8)) ∧
    (∀ j, j < 192 → ∃ w, s.Reads4 (BitVec.ofNat 10 (0x100 + 4 * j)) w ∧
      ∀ k, k < 4 → w.extractLsb' (8 * k) 8 = if 4 * j + k < s.accLen.toNat then s.frameByte (4 * j + k) else 0x00#8) ∧
    s.frameBytes.length = s.accLen.toNat ∧
    ∀ i, i < s.accLen.toNat → s.frameBytes[i]? = some (s.frameByte i)

/-- R62, R63, R64: a 1-byte read returns the byte of the word that holds it, counted from the least significant end, with
the upper bits 0; exactly the reads of another size and the misaligned 4-byte reads are refused, and get no step. That the
whole cycle is refused, whatever else it carries and also when `rst` = 1, is the model's choice (log 4). -/
def Obligations.HostReadSizesAndAlignment : Prop :=
  ∀ s : State,
    (∀ a : BitVec 10, ∃ w, s.Reads4 (a - BitVec.ofNat 10 (a.toNat % 4)) w ∧
      s.Reads1 a (w.extractLsb' (8 * (a.toNat % 4)) 8)) ∧
    (∀ r : HostRead, s.hostRead r = none ↔
      ((r.size ≠ 1#3 ∧ r.size ≠ 4#3) ∨ (r.size = 4#3 ∧ r.addr.toNat % 4 ≠ 0))) ∧
    (s.params.legal = true → ∀ r, s.nextInput.read = some r →
      (step s = .refused (.hostRead r) ↔
        ((r.size ≠ 1#3 ∧ r.size ≠ 4#3) ∨ (r.size = 4#3 ∧ r.addr.toNat % 4 ≠ 0))))

/-- R68: a read changes no state: the cycle with the read and the cycle without it give the same state, up to the data
port. CMD reads 0. A cycle without reset, accepted command, consumed byte, received byte and tick changes nothing (the
model's own fields `inputs` and `out` apart, log 1, log 2). -/
def Obligations.HostReadsHaveNoSideEffect : Prop :=
  (∀ (s : State) (i : CycleIn) (rest : List CycleIn), s.inputs = i :: rest → i.refusedRead = none →
    (∀ t, step s = .next t → step { s with inputs := { i with read := none } :: rest } =
      .next { t with out := { t.out with rdData := none } }) ∧
    (∀ t, step { s with inputs := { i with read := none } :: rest } = .next t →
      step s = .next { t with out := { t.out with rdData := i.read.bind s.hostRead } })) ∧
  (∀ s : State, s.Reads4 0x000#10 0#32) ∧
  (∀ s : State, s.params.legal = true → s.ReadAllowed → s.nextInput.rst = false → s.accepted = none →
    (s.faState.isConsuming = false ∨ s.fifo = []) → s.nextInput.rx = none → s.nextInput.tick = false →
    ∃ o, step s = .next { s with inputs := s.inputs.tail, out := o })

/-- R52: a read in a cycle returns the fields as they stand at the start of that cycle, before its phases; so do `irq`
(R223) and `cmd_ready` (R51). That this holds of `rd_data` and `irq` in a reset cycle too is the model's choice (log 16). -/
def Obligations.OutputPortsShowStartOfCycle : Prop :=
  ∀ s t : State, step s = .next t →
    t.out.rdData = s.nextInput.read.bind s.hostRead ∧ t.out.irq = (s.done && s.ie) ∧
    t.out.cmdReady = (!s.nextInput.rst && !s.busy)

/-! ### The cycle -/

/-- A step runs the decoded instruction, on the command port: when the block is free and a word is presented, the step is
the meaning of the instruction the word decodes to, on the state the cycle begins from, and then the consume, enqueue and
tick phases of the cycle (R50, R51). -/
def Obligations.StepRunsThePresentedCommand : Prop :=
  ∀ (s : State) (w : Word), s.params.legal = true → s.ReadAllowed → s.nextInput.rst = false → s.busy = false →
    s.nextInput.cmd = some w →
    step s = andThen (exec (decodeCommand w) s.beginCycle) (afterCommand s.nextInput)

/-- A step runs the decoded instruction, on the receive side: when the assembler awaits the function code and a byte f
waits in the FIFO, the step appends f to the frame and runs the row of R91 that f decodes to under REQ_FC, and then the
enqueue and tick phases of the cycle (R50, R137, R138). -/
def Obligations.StepRunsTheResponseFunctionCode : Prop :=
  ∀ (s : State) (f : Byte) (rest : List Byte), s.Inv → s.ReadAllowed → s.nextInput.rst = false →
    s.faState = .hdr → s.accLen = 1#16 → s.fifo = f :: rest →
    step s = andThen
      (exec (decodeResponse s.reqFc f) (State.appendByte { s.beginCycle with fifo := rest } f))
      fun s2 => .next (tickPhase s.nextInput.tick (enqueuePhase s.nextInput.rx s2))

/-- R253: while BUSY = 1 a presented command is neither executed nor recorded: the cycle is the same as without it.
While BUSY = 0 the word executed is the one on `cmd_data` in that cycle. -/
def Obligations.HeldCommandsDoNothing : Prop :=
  (∀ (s : State) (i : CycleIn) (rest : List CycleIn), s.inputs = i :: rest → s.busy = true →
    step s = step { s with inputs := { i with cmd := none } :: rest }) ∧
  (∀ (s : State) (i : CycleIn) (rest : List CycleIn), s.inputs = i :: rest → i.rst = false →
    cmdReady i s = !s.busy) ∧
  (∀ (s : State) (w : Word), s.busy = false → commandPhase (some w) s = exec (decodeCommand w) s)

/-- R50: a byte that arrives in a cycle is consumed no earlier than the next cycle: the received byte of a cycle shows in
the FIFO and in RXOVR and nowhere else. -/
def Obligations.ArrivingByteWaitsOneCycle : Prop :=
  ∀ (s t : State) (i : CycleIn) (rest : List CycleIn) (rx : Option Byte), s.inputs = i :: rest → i.rst = false →
    step s = .next t →
    ∃ u, step { s with inputs := { i with rx := rx } :: rest } = .next u ∧
      u = { t with fifo := u.fifo, rxovr := u.rxovr }

/-! ### Encoding -/

/-- R80, R83, R91: words of the spec's encodings decode to the instructions they stand for (95_test_vectors.md 2.1). -/
def Obligations.SpecWordsDecode : Prop :=
  decodeCommand 0x00000000#32 = .nop ∧ decodeCommand 0x02000010#32 = .crcByte 0x10#8 ∧
  decodeCommand 0x1100009B#32 = .frmPush 0x9B#8 ∧ decodeCommand 0x20000301#32 = .setReq 0x01#8 0x03#8 ∧
  decodeCommand 0x2100FFFF#32 = .start 0xFFFF#16 ∧ decodeCommand 0x30000000#32 = .validate ∧
  decodeCommand 0x400001F4#32 = .init 500#16 ∧ decodeCommand 0x42000005#32 = .cfgSet 5#3 ∧
  decodeCommand 0x04001234#32 = .reserved 0x04#8 ∧ decodeResponse 0x03#8 0x83#8 = .rspFcException 0x83#8

/-- R80 to R84, R91: decoding the encoding of a well-formed instruction gives it back, with every operand at every value,
under every latched REQ_FC that selects it; and every encoding decodes to a well-formed instruction that its REQ_FC
selects, whose own encoding decodes to it again. -/
def Obligations.DecodeInvertsEncode : Prop :=
  (∀ (reqFc : Byte) (i : Instr), i.wellFormed = true → i.selectedUnder reqFc = true →
    decode reqFc (encode i) = i) ∧
  ∀ (reqFc : Byte) (e : Encoded),
    (decode reqFc e).wellFormed = true ∧ (decode reqFc e).selectedUnder reqFc = true ∧
    decode reqFc (encode (decode reqFc e)) = decode reqFc e

/-- R82: RSV bits and the ARG bits a command does not use are ignored: two words that agree in OPC and in the used bits are
the same command, and a command behaves as it would with the ignored bits 0. The last clause, that the encoder writes the
ignored bits 0, is the model's choice (log 12). -/
def Obligations.IgnoredBitsDoNotMatter : Prop :=
  (∀ w v : Word, opcOf w = opcOf v → w &&& usedBits (opcOf w) = v &&& usedBits (opcOf w) →
    decodeCommand w = decodeCommand v) ∧
  ∀ w : Word, decodeCommand (w &&& usedBits (opcOf w)) = decodeCommand w ∧
    ∀ i, isReservedOpc (opcOf w) = false → encode (decodeCommand w) = .cmd32 i → i = w &&& usedBits (opcOf w)

/-- R198: a word decodes to the reserved row exactly when its OPC is one of the 241 reserved values; it is held while
busy like every command, and its only effect is ILLCMD <- 1. -/
def Obligations.ReservedOpcodesOnlySetIllcmd : Prop :=
  (∀ w : Word, isReservedOpc (opcOf w) = true ↔ ∃ opc, decodeCommand w = .reserved opc) ∧
  (∀ (w : Word) (opc : Byte), decodeCommand w = .reserved opc → opc = opcOf w) ∧
  ((List.range 256).filter fun n => isReservedOpc (BitVec.ofNat 8 n)).length = 241 ∧
  (∀ opc : Byte, isReservedOpc opc = true → HeldWhileBusy opc) ∧
  ∀ (opc : Byte) (s : State), exec (.reserved opc) s = .next { s with illcmd := true }

/-- R92: which row a response function code takes, the exception test as an integer compare with no truncation. For
REQ_FC ≥ 0x80 no byte takes row 3; for REQ_FC ≤ 0x7F it is the function code with its high bit set. The validator makes the
same test. -/
def Obligations.ResponseFunctionCodeRows : Prop :=
  ∀ reqFc f : Byte,
    (decodeResponse reqFc f = .rspFcReadHolding ↔ f = 0x03#8) ∧
    (decodeResponse reqFc f = .rspFcWriteMultiple ↔ f = 0x10#8) ∧
    (decodeResponse reqFc f = .rspFcException f ↔ f.toNat = reqFc.toNat + 0x80) ∧
    (decodeResponse reqFc f = .rspFcOther f ↔ f ≠ 0x03#8 ∧ f ≠ 0x10#8 ∧ f.toNat ≠ reqFc.toNat + 0x80) ∧
    (0x80 ≤ reqFc.toNat → decodeResponse reqFc f ≠ .rspFcException f) ∧
    (reqFc.toNat ≤ 0x7F → (f.toNat = reqFc.toNat + 0x80 ↔ f = reqFc ||| 0x80#8)) ∧
    (∀ (codes : List Byte) (s : List Byte), 4 ≤ s.length → verify s = true → s.getD 1 0#8 = f →
      (decodeResponse reqFc f = .rspFcException f →
        classify codes reqFc s = (decodeExc codes (s.getD 2 0#8), s.getD 2 0#8)) ∧
      (decodeResponse reqFc f ≠ .rspFcException f → classify codes reqFc s = (0x00#8, 0x00#8)))

/-! ### CRC engine -/

/-- R115, R116: CRC_INIT sets CRC to 0xFFFF and CRC_BYTE b folds b into it; nothing else changes; both run whatever INITED
is and are held while busy. -/
def Obligations.CrcRegisterCommands : Prop :=
  (∀ w : Word, opcOf w = 0x01#8 → decodeCommand w = .crcInit) ∧ HeldWhileBusy 0x01#8 ∧
  (∀ s : State, exec .crcInit s = .next { s with crc := 0xFFFF#16 }) ∧
  (∀ w : Word, opcOf w = 0x02#8 → decodeCommand w = .crcByte (w.extractLsb' 0 8)) ∧ HeldWhileBusy 0x02#8 ∧
  (∀ (b : Byte) (s : State), exec (.crcByte b) s = .next { s with crc := crcStep s.crc b }) ∧
  ∀ (bs : List Byte) (s : State),
    bs.foldl (fun o b => andThen o (exec (.crcByte b))) (exec .crcInit s) = .next { s with crc := crc16 bs }

/-- R117: CRC_VERIFY writes CRC_OK from `verify` of FRAME[0 .. ACC_LEN−1] and nothing else; a frame of fewer than 2 bytes
gives 0, and the two bytes FF FF give 1; on a completed frame that has not been modified, CRC_OK says whether RESULT_CODE
is not CRC_MISMATCH. -/
def Obligations.CrcVerifyChecksTheFrame : Prop :=
  (∀ w : Word, opcOf w = 0x03#8 → decodeCommand w = .crcVerify) ∧ HeldWhileBusy 0x03#8 ∧
  ∀ s : State, exec .crcVerify s = .next { s with crcOk := verify s.frameBytes } ∧
    (s.accLen.toNat < 2 → exec .crcVerify s = .next { s with crcOk := false }) ∧
    (s.frameBytes = [0xFF#8, 0xFF#8] → exec .crcVerify s = .next { s with crcOk := true }) ∧
    (s.FreshComplete → (s.resultCode, s.excRaw) = classify s.params.recCodes s.reqFc s.frameBytes →
      exec .crcVerify s = .next { s with crcOk := s.resultCode != 0x82#8 })

/-- R110, R111: XORing the byte into the register and then shifting 8 times is the same as feeding the byte's bits one at a
time, least significant first. -/
def Obligations.CrcStepIsBitSerial : Prop :=
  ∀ (c : Half) (b : Byte), crcStep c b = crcFeedByte c b

/-- R118: for every byte sequence b, verify of b with its CRC appended is true, and flipping any single bit of b or of the
two appended bytes makes it false. -/
def Obligations.CrcRoundTripAndSingleBitErrors : Prop :=
  ∀ b : List Byte,
    verify (b ++ [(crc16 b).extractLsb' 0 8, (crc16 b).extractLsb' 8 8]) = true ∧
    ∀ i k, i < b.length + 2 → k < 8 →
      verify (flipBit (b ++ [(crc16 b).extractLsb' 0 8, (crc16 b).extractLsb' 8 8]) i k) = false

/-- R114, R112: a sequence of at least 2 bytes verifies exactly when its own CRC is 0, because the CRC has no final XOR
(95_test_vectors.md 2.4); a shorter one never verifies. -/
def Obligations.VerifyIsZeroResidue : Prop :=
  ∀ s : List Byte, (2 ≤ s.length → (verify s = true ↔ crc16 s = 0)) ∧ (s.length < 2 → verify s = false)

/-- R119: no event and no command other than CRC_INIT and CRC_BYTE writes CRC, and nothing but these two commands and a host
read depends on it: with another value in the register every other cycle does the same. -/
def Obligations.OnlyCrcCommandsTouchTheCrcRegister : Prop :=
  (∀ s t : State, s.nextInput.rst = false → step s = .next t → t.crc ≠ s.crc →
    s.accepted = some .crcInit ∨ ∃ b, s.accepted = some (.crcByte b)) ∧
  ∀ (s t : State) (c : Half), s.nextInput.rst = false → s.nextInput.read = none → s.accepted ≠ some .crcInit →
    (∀ b, s.accepted ≠ some (.crcByte b)) → step s = .next t →
    step { s with crc := c } = .next { t with crc := c }

/-! ### Response validator -/

/-- R170, R171, R172: the checks of `classify` in their order, and the exception decoder; for this block a code
of {1,2,3,4,5,6,8,10,11} is kept and every other byte gives UNKNOWN (0xFF). -/
def Obligations.ClassifyDecidesInOrder : Prop :=
  (∀ (codes : List Byte) (fc : Byte) (s : List Byte),
    (s.length < 4 → classify codes fc s = (0x83#8, 0x00#8)) ∧
    (4 ≤ s.length → verify s = false → classify codes fc s = (0x82#8, 0x00#8)) ∧
    (4 ≤ s.length → verify s = true → (s.getD 1 0#8).toNat = fc.toNat + 0x80 →
      classify codes fc s = (decodeExc codes (s.getD 2 0#8), s.getD 2 0#8)) ∧
    (4 ≤ s.length → verify s = true → (s.getD 1 0#8).toNat ≠ fc.toNat + 0x80 → classify codes fc s = (0x00#8, 0x00#8))) ∧
  (∀ (codes : List Byte) (e : Byte),
    (e ∈ codes → decodeExc codes e = e) ∧ (e ∉ codes → decodeExc codes e = 0xFF#8)) ∧
  ∀ e : Byte,
    (e.toNat ∈ [1, 2, 3, 4, 5, 6, 8, 10, 11] → decodeExc Params.block.recCodes e = e) ∧
    (e.toNat ∉ [1, 2, 3, 4, 5, 6, 8, 10, 11] → decodeExc Params.block.recCodes e = 0xFF#8)

/-- R174: `classify` returns a code of {NO_ERROR, CRC_MISMATCH, LENGTH_TOO_SHORT, UNKNOWN} ∪ REC_CODES, and for legal
REC_CODES never TIMEOUT, MALFORMED_FRAME or NOT_INITIALIZED. -/
def Obligations.ClassifyNeverReturnsAssemblerCodes : Prop :=
  ∀ (p : Params) (fc : Byte) (s : List Byte),
    ((classify p.recCodes fc s).1 ∈ [0x00#8, 0x82#8, 0x83#8, 0xFF#8] ∨
      (classify p.recCodes fc s).1 ∈ p.recCodes) ∧
    (p.legal = true →
      (classify p.recCodes fc s).1 ≠ 0x80#8 ∧ (classify p.recCodes fc s).1 ≠ 0x81#8 ∧
      (classify p.recCodes fc s).1 ≠ 0x84#8)

/-- R173: VALIDATE classifies FRAME[0 .. ACC_LEN−1] against REQ_FC into RESULT_CODE and EXC_RAW and sets RESULT_LEN to
ACC_LEN; nothing else changes; with ACC_LEN = 0 the result is LENGTH_TOO_SHORT with RESULT_LEN = 0. -/
def Obligations.ValidateClassifiesTheFrame : Prop :=
  (∀ w : Word, opcOf w = 0x30#8 → decodeCommand w = .validate) ∧ HeldWhileBusy 0x30#8 ∧
  ∀ s : State,
    exec .validate s = .next { s with
      resultCode := (classify s.params.recCodes s.reqFc s.frameBytes).1
      excRaw := (classify s.params.recCodes s.reqFc s.frameBytes).2
      resultLen := s.accLen } ∧
    (s.accLen = 0#16 → exec .validate s = .next { s with resultCode := 0x83#8, excRaw := 0x00#8, resultLen := 0#16 })

/-- R170, R172, R118: VALIDATE of an exception frame with a good CRC reports its code: for every address, request code up
to 0x7F and exception byte e, the result is (decode_exc(e), e) and PLEN is 2. -/
def Obligations.ExceptionFrameIsDecodedByValidate : Prop :=
  ∀ (s : State) (addr e : Byte), s.reqFc.toNat ≤ 0x7F → s.frameBytes = withCrc [addr, s.reqFc + 0x80#8, e] →
    ∃ t, exec .validate s = .next t ∧ t.resultCode = decodeExc s.params.recCodes e ∧ t.excRaw = e ∧
      t.resultLen = 5#16 ∧ t.plen = 2#16

/-! ### Control commands -/

/-- R190: NOP changes nothing. -/
def Obligations.NopChangesNothing : Prop :=
  (∀ w : Word, opcOf w = 0x00#8 → decodeCommand w = .nop) ∧ HeldWhileBusy 0x00#8 ∧
  ∀ s : State, exec .nop s = .next s

/-- R191: FRM_CLEAR sets ACC_LEN and EXP_LEN to 0 and changes nothing else; every frame byte then reads 0 in the window. -/
def Obligations.FrmClearEmptiesTheFrame : Prop :=
  (∀ w : Word, opcOf w = 0x10#8 → decodeCommand w = .frmClear) ∧ HeldWhileBusy 0x10#8 ∧
  ∀ s : State, ∃ t, exec .frmClear s = .next t ∧ t = { s with accLen := 0#16, expLen := 0#16 } ∧
    (∀ a, t.frameByte a = s.frameByte a) ∧ ∀ i, t.windowFrameByte i = 0#8

/-- R192: FRM_PUSH b stores b at index ACC_LEN and adds 1 to ACC_LEN, every other byte of FRAME and every other field
unchanged; when the buffer is full the byte is dropped and only FRMOVR is set. The frame store is in its canonical form,
which every step keeps (EveryStepKeepsTheInvariant). -/
def Obligations.FrmPushAppendsOrFlags : Prop :=
  (∀ w : Word, opcOf w = 0x11#8 → decodeCommand w = .frmPush (w.extractLsb' 0 8)) ∧ HeldWhileBusy 0x11#8 ∧
  ∀ (b : Byte) (s : State),
    (Memory.wf s.frame → s.accLen.toNat < s.params.frameMax →
      ∃ t, exec (.frmPush b) s = .next t ∧ t = { s with frame := t.frame, accLen := s.accLen + 1#16 } ∧
        t.frameByte s.accLen.toNat = b ∧ (∀ a, a ≠ s.accLen.toNat → t.frameByte a = s.frameByte a)) ∧
    (s.params.frameMax ≤ s.accLen.toNat → exec (.frmPush b) s = .next { s with frmovr := true })

/-- R193: INIT d opens and sets DEF_TIMEOUT while INITED = 0 and does nothing while INITED = 1, so a second INIT is a
no-op. INIT 0 makes START DEFAULT time out at once. -/
def Obligations.InitIsIdempotent : Prop :=
  (∀ w : Word, opcOf w = 0x40#8 → decodeCommand w = .init (w.extractLsb' 0 16)) ∧ HeldWhileBusy 0x40#8 ∧
  ∀ (d e : Half) (s : State),
    (s.inited = false → exec (.init d) s = .next { s with inited := true, defTimeout := d }) ∧
    (s.inited = true → exec (.init d) s = .next s) ∧
    andThen (exec (.init d) s) (exec (.init e)) = exec (.init d) s ∧
    (s.inited = false →
      ∃ t, andThen (exec (.init 0#16) s) (exec (.start 0xFFFF#16)) = .next t ∧ t.faState = .timedOut ∧
        t.resultCode = 0x80#8)

/-- R194: CLOSE clears INITED and empties the FIFO while INITED = 1 and does nothing while INITED = 0. After it received
bytes are dropped and START gives NOT_INITIALIZED; a second CLOSE does nothing; a later INIT reopens with its own default
timeout. -/
def Obligations.CloseReleasesOnce : Prop :=
  (∀ w : Word, opcOf w = 0x41#8 → decodeCommand w = .close) ∧ HeldWhileBusy 0x41#8 ∧
  ∀ (d : Half) (s : State),
    (s.inited = true → exec .close s = .next { s with inited := false, fifo := [] }) ∧
    (s.inited = false → exec .close s = .next s) ∧
    andThen (exec .close s) (exec .close) = exec .close s ∧
    (∃ t, exec .close s = .next t ∧ t.inited = false ∧ (∀ b, enqueuePhase (some b) t = t) ∧
      ∃ u, exec (.start d) t = .next u ∧ u.faState = .failed ∧ u.resultCode = 0x84#8) ∧
    ∃ t, andThen (exec .close s) (exec (.init d)) = .next t ∧ t.inited = true ∧ t.defTimeout = d

/-- R195: CFG_SET writes UFC, MM and IE from cfg[0], cfg[1] and cfg[2] and nothing else, and IRQ follows. -/
def Obligations.CfgSetWritesThePolicies : Prop :=
  (∀ w : Word, opcOf w = 0x42#8 → decodeCommand w = .cfgSet (w.extractLsb' 0 3)) ∧ HeldWhileBusy 0x42#8 ∧
  ∀ (cfg : BitVec 3) (s : State), ∃ t, exec (.cfgSet cfg) s = .next t ∧
    t = { s with ufc := cfg.getLsbD 0, mm := cfg.getLsbD 1, ie := cfg.getLsbD 2 } ∧
    t.irq = (s.done && cfg.getLsbD 2)

/-- R196: FLAGS_CLR clears RXOVR, FRMOVR and ILLCMD where the operand's bit is 1 and keeps them where it is 0; nothing else
changes, and FLAGS_CLR 0 is a no-op. -/
def Obligations.FlagsClrClearsTheNamedFlags : Prop :=
  (∀ w : Word, opcOf w = 0x43#8 → decodeCommand w = .flagsClr (w.extractLsb' 0 3)) ∧ HeldWhileBusy 0x43#8 ∧
  ∀ (clr : BitVec 3) (s : State),
    exec (.flagsClr clr) s = .next { s with
      rxovr := if clr.getLsbD 0 then false else s.rxovr
      frmovr := if clr.getLsbD 1 then false else s.frmovr
      illcmd := if clr.getLsbD 2 then false else s.illcmd } ∧
    exec (.flagsClr 0#3) s = .next s

/-- R197: RX_CLEAR empties the FIFO and leaves the number of discarded bytes in DISCARD, or 0xFFFF (−1) when there were
none; nothing else changes. A byte that arrives in the same cycle at an open block survives, whether the FIFO held bytes or
not. -/
def Obligations.RxClearCountsTheDiscarded : Prop :=
  (∀ w : Word, opcOf w = 0x50#8 → decodeCommand w = .rxClear) ∧ HeldWhileBusy 0x50#8 ∧
  ∀ s : State,
    (s.fifo ≠ [] → exec .rxClear s = .next { s with fifo := [], discard := BitVec.ofNat 16 s.fifo.length }) ∧
    (s.fifo = [] → exec .rxClear s = .next { s with fifo := [], discard := 0xFFFF#16 }) ∧
    (s.params.legal = true → s.FifoInv → s.fifo ≠ [] →
      ∃ t, exec .rxClear s = .next t ∧ t.discard.toInt = s.fifo.length) ∧
    (s.params.legal = true → s.inited = true →
      ∃ t, exec .rxClear s = .next t ∧ t.rxCount = 0#16 ∧ ∀ b, enqueuePhase (some b) t = { t with fifo := [b] })

/-! ### Frame assembler: commands and response rows -/

/-- R131: SET_REQ latches the address from ARG[7:0] and the function code from ARG[15:8], and changes nothing else. -/
def Obligations.SetReqLatchesTheRequest : Prop :=
  (∀ w : Word, opcOf w = 0x20#8 → decodeCommand w = .setReq (w.extractLsb' 0 8) (w.extractLsb' 8 8)) ∧
  HeldWhileBusy 0x20#8 ∧
  ∀ (addr fc : Byte) (s : State), exec (.setReq addr fc) s = .next { s with reqAddr := addr, reqFc := fc }

/-- R132, R133, R134: START clears DONE, the results, the lengths and ELAPSED. While INITED = 0 it ends at once FAILED with
NOT_INITIALIZED; with an effective timeout of 0 it ends at once TIMED_OUT; else it enters HDR with TO_EFF the operand, or
DEF_TIMEOUT for 0xFFFF. The FIFO, REQ_*, CRC and everything else are unchanged. A START that ends at once is followed by no
consume and no counted tick in its cycle. -/
def Obligations.StartBeginsOrEndsAtOnce : Prop :=
  (∀ w : Word, opcOf w = 0x21#8 → decodeCommand w = .start (w.extractLsb' 0 16)) ∧ HeldWhileBusy 0x21#8 ∧
  ∀ (v : Half) (s : State),
    (s.inited = false → exec (.start v) s = .next { s with
      accLen := 0#16, expLen := 0#16, elapsed := 0#16, toEff := 0#16
      faState := .failed, resultCode := 0x84#8, resultLen := 0xFFFF#16, excRaw := 0x00#8, done := true }) ∧
    (s.inited = true → (if v = 0xFFFF#16 then s.defTimeout else v) = 0#16 → exec (.start v) s = .next { s with
      accLen := 0#16, expLen := 0#16, elapsed := 0#16, toEff := 0#16
      faState := .timedOut, resultCode := 0x80#8, resultLen := 0xFFFF#16, excRaw := 0x00#8, done := true }) ∧
    (s.inited = true → (if v = 0xFFFF#16 then s.defTimeout else v) ≠ 0#16 → exec (.start v) s = .next { s with
      accLen := 0#16, expLen := 0#16, elapsed := 0#16, toEff := if v = 0xFFFF#16 then s.defTimeout else v
      faState := .hdr, resultCode := 0x00#8, resultLen := 0#16, excRaw := 0x00#8, done := false }) ∧
    (s.inited = false ∨ (if v = 0xFFFF#16 then s.defTimeout else v) = 0#16 →
      ∃ t, exec (.start v) s = .next t ∧ consumePhase t = .next t ∧ tickPhase true t = t)

/-- R135: DONE_ACK drops DONE, and so IRQ, and changes nothing else. -/
def Obligations.DoneAckDropsOnlyDone : Prop :=
  (∀ w : Word, opcOf w = 0x22#8 → decodeCommand w = .doneAck) ∧ HeldWhileBusy 0x22#8 ∧
  ∀ s : State, ∃ t, exec .doneAck s = .next t ∧ t = { s with done := false } ∧ t.irq = false

/-- R139, R140, R141, R142: what the assembler does with the function code f of a response, by f, and that it changes
nothing else. The last five clauses, on the four rows as instructions that run in every state, are the model's choice
(log 11). -/
def Obligations.ResponseRowEffects : Prop :=
  ∀ (s : State) (f : Byte),
    (f = 0x03#8 → exec (decodeResponse s.reqFc f) s = .next { s with faState := .bcnt }) ∧
    (f = 0x10#8 → exec (decodeResponse s.reqFc f) s = .next { s with expLen := 8#16, faState := .body }) ∧
    (f.toNat = s.reqFc.toNat + 0x80 →
      exec (decodeResponse s.reqFc f) s = .next { s with expLen := 5#16, faState := .body }) ∧
    (f ≠ 0x03#8 → f ≠ 0x10#8 → f.toNat ≠ s.reqFc.toNat + 0x80 →
      (s.ufc = false → exec (decodeResponse s.reqFc f) s = .next { s with
        faState := .failed, resultCode := 0x81#8, resultLen := 0xFFFF#16, excRaw := 0x00#8, done := true }) ∧
      (s.ufc = true → exec (decodeResponse s.reqFc f) s = .next { s with faState := .stall })) ∧
    exec .rspFcReadHolding s = .next { s with faState := .bcnt } ∧
    exec .rspFcWriteMultiple s = .next { s with expLen := 8#16, faState := .body } ∧
    exec (.rspFcException f) s = .next { s with expLen := 5#16, faState := .body } ∧
    (s.ufc = false → exec (.rspFcOther f) s = .next { s with
      faState := .failed, resultCode := 0x81#8, resultLen := 0xFFFF#16, excRaw := 0x00#8, done := true }) ∧
    (s.ufc = true → exec (.rspFcOther f) s = .next { s with faState := .stall })

/-! ### Frame assembler: events -/

/-- R136: the enqueue event. A byte is dropped while INITED = 0, pushed at the end of the FIFO while there is room, and
lost with RXOVR = 1 when the FIFO is full, whatever FA_STATE is. -/
def Obligations.EnqueueDropsPushesOrFlags : Prop :=
  ∀ (s : State) (b : Byte),
    enqueuePhase none s = s ∧
    (s.inited = false → enqueuePhase (some b) s = s) ∧
    (s.inited = true → s.fifo.length < s.params.rxqDepth →
      enqueuePhase (some b) s = { s with fifo := s.fifo ++ [b] }) ∧
    (s.inited = true → s.params.rxqDepth ≤ s.fifo.length → enqueuePhase (some b) s = { s with rxovr := true })

/-- R143, R144, R145, R146, R147: the consume event. The oldest byte of the FIFO goes to FRAME at index ACC_LEN, every
other frame byte unchanged (R137). In HDR the first byte does nothing more (R138); what the second does says
StepRunsTheResponseFunctionCode. In IDLE, STALL and the terminal states nothing is consumed. In BCNT the byte is the byte
count. In BODY the frame goes on until ACC_LEN = EXP_LEN, and then completes with its classification if the header matches,
else is dropped (MM = 0) or held (MM = 1). -/
def Obligations.ConsumeBuildsTheFrame : Prop :=
  ∀ (s : State) (b : Byte) (rest : List Byte), s.Inv → s.fifo = b :: rest →
    ∃ a : State, a = { s with fifo := rest, frame := a.frame, accLen := a.accLen } ∧
      a.accLen.toNat = s.accLen.toNat + 1 ∧ Memory.wf a.frame ∧
      (∀ k, a.frameByte k = if k = s.accLen.toNat then b else s.frameByte k) ∧
      (s.faState.isConsuming = false → consumePhase s = .next s) ∧
      (s.faState = .hdr → s.accLen = 0#16 → consumePhase s = .next a) ∧
      (s.faState = .bcnt → ∃ t, consumePhase s = .next t ∧ t = { a with expLen := t.expLen, faState := .body } ∧
        t.expLen.toNat = 5 + b.toNat) ∧
      (s.faState = .body →
        a.accLen.toNat ≤ a.expLen.toNat ∧
        (a.accLen ≠ a.expLen → consumePhase s = .next a) ∧
        (a.accLen = a.expLen → a.frameByte 0 = s.reqAddr ∧ a.frameByte 1 = s.reqFc →
          consumePhase s = .next { a with
            faState := .complete, done := true, resultLen := a.accLen
            resultCode := (classify s.params.recCodes s.reqFc a.frameBytes).1
            excRaw := (classify s.params.recCodes s.reqFc a.frameBytes).2 } ∧
          State.plen { a with resultLen := a.accLen } = a.accLen - 3#16) ∧
        (a.accLen = a.expLen → ¬(a.frameByte 0 = s.reqAddr ∧ a.frameByte 1 = s.reqFc) →
          (s.mm = false → consumePhase s = .next { a with accLen := 0#16, expLen := 0#16, faState := .hdr }) ∧
          (s.mm = true → consumePhase s = .next { a with faState := .stall })))

/-- R148: STALL is busy, holds every command and consumes nothing: the frame, ACC_LEN and EXP_LEN stay, pending bytes stay
in the FIFO, a received byte goes in behind them or sets RXOVR when it is full, and STALL is left only by the timeout, at a
tick that brings ELAPSED to TO_EFF, or by reset. -/
def Obligations.StallConsumesNothing : Prop :=
  ∀ s t : State, s.Inv → s.faState = .stall → s.nextInput.rst = false → step s = .next t →
    s.busy = true ∧ s.accepted = none ∧ t.frame = s.frame ∧ t.accLen = s.accLen ∧ t.expLen = s.expLen ∧
    (∃ more, t.fifo = s.fifo ++ more) ∧
    t.fifo = (enqueuePhase s.nextInput.rx s).fifo ∧ t.rxovr = (enqueuePhase s.nextInput.rx s).rxovr ∧
    (t.faState = .stall ∨
      t.faState = .timedOut ∧ s.nextInput.tick = true ∧ s.toEff.toNat ≤ s.elapsed.toNat + 1)

/-- R150: a tick while busy adds 1 to ELAPSED, and when that reaches TO_EFF ends the transaction TIMED_OUT with
TIMEOUT and RESULT_LEN −1, keeping the partial frame; without a tick, or while not busy, nothing happens. -/
def Obligations.TickCountsAndTimesOut : Prop :=
  ∀ s : State, s.Inv →
    tickPhase false s = s ∧ (s.busy = false → tickPhase true s = s) ∧
    (s.busy = true → ∃ e : Half, e.toNat = s.elapsed.toNat + 1 ∧
      (e.toNat < s.toEff.toNat → tickPhase true s = { s with elapsed := e }) ∧
      (s.toEff.toNat ≤ e.toNat → tickPhase true s = { s with
        elapsed := e, faState := .timedOut, resultCode := 0x80#8, resultLen := 0xFFFF#16, excRaw := 0x00#8, done := true }))

/-! ### Frame assembler: the whole machine -/

/-- R130: the transitions of FA_STATE, phase by phase, and that no other exists: START alone leaves a non-busy state; the
consume event takes the rows of the table; the tick leads only to TIMED_OUT; reset leads to IDLE. -/
def Obligations.FaStateTransitions : Prop :=
  (∀ (s t : State) (w : Word), s.busy = false → commandPhase (some w) s = .next t →
    (opcOf w ≠ 0x21#8 → t.faState = s.faState) ∧
    (opcOf w = 0x21#8 → s.inited = false ∧ t.faState = .failed ∧ t.resultCode = 0x84#8 ∨
      s.inited = true ∧ t.toEff = 0#16 ∧ t.faState = .timedOut ∨ s.inited = true ∧ t.toEff ≠ 0#16 ∧ t.faState = .hdr)) ∧
  (∀ s t : State, s.Inv → consumePhase s = .next t →
    t = s ∧ (s.faState.isConsuming = false ∨ s.fifo = []) ∨
    s.faState = .hdr ∧ t.accLen = 1#16 ∧ t.faState = .hdr ∨
    s.faState = .hdr ∧ t.accLen = 2#16 ∧ t.frameByte 1 = 0x03#8 ∧ t.faState = .bcnt ∨
    s.faState = .hdr ∧ t.accLen = 2#16 ∧ t.frameByte 1 = 0x10#8 ∧ t.faState = .body ∨
    s.faState = .hdr ∧ t.accLen = 2#16 ∧ (t.frameByte 1).toNat = s.reqFc.toNat + 0x80 ∧ t.faState = .body ∨
    s.faState = .hdr ∧ t.accLen = 2#16 ∧ t.frameByte 1 ≠ 0x03#8 ∧ t.frameByte 1 ≠ 0x10#8 ∧
      (t.frameByte 1).toNat ≠ s.reqFc.toNat + 0x80 ∧
      (s.ufc = false ∧ t.faState = .failed ∨ s.ufc = true ∧ t.faState = .stall) ∨
    s.faState = .bcnt ∧ t.accLen = 3#16 ∧ t.faState = .body ∨
    s.faState = .body ∧ t.accLen.toNat < t.expLen.toNat ∧ t.faState = .body ∨
    s.faState = .body ∧ t.accLen = t.expLen ∧ t.frameByte 0 = s.reqAddr ∧ t.frameByte 1 = s.reqFc ∧
      t.faState = .complete ∨
    s.faState = .body ∧ s.accLen.toNat + 1 = s.expLen.toNat ∧ ¬(t.frameByte 0 = s.reqAddr ∧ t.frameByte 1 = s.reqFc) ∧
      (s.mm = false ∧ t.faState = .hdr ∨ s.mm = true ∧ t.faState = .stall)) ∧
  (∀ (s : State) (tick : Bool),
    (tickPhase tick s).faState = s.faState ∧
      (tick = false ∨ s.busy = false ∨ (tickPhase tick s).elapsed.toNat < s.toEff.toNat) ∨
    s.busy = true ∧ tick = true ∧ (tickPhase tick s).faState = .timedOut ∧
      s.toEff.toNat ≤ (tickPhase tick s).elapsed.toNat) ∧
  (∀ (s : State) (rx : Option Byte), (enqueuePhase rx s).faState = s.faState) ∧
  (∀ s t : State, s.nextInput.rst = true → step s = .next t → t.faState = .idle)

/-- R152: an exception response never completes a transaction. From a state in BODY whose second frame byte is REQ_FC +
0x80 no cycle leads to COMPLETE, and the byte that fills the frame leads to HDR (MM = 0, dropped) or STALL (MM = 1, held),
unless the cycle's tick brings ELAPSED to TO_EFF and times the transaction out. After a dropped frame the transaction goes
on, and can end in every way R130 gives, also FAILED (log 21). -/
def Obligations.ExceptionResponseNeverCompletes : Prop :=
  ∀ s t : State, s.Inv → s.faState = .body → (s.frameByte 1).toNat = s.reqFc.toNat + 0x80 →
    s.nextInput.rst = false → step s = .next t →
    t.faState ≠ .complete ∧
    (s.accLen = 4#16 → s.fifo ≠ [] →
      t.faState = .timedOut ∧ s.nextInput.tick = true ∧ s.toEff.toNat ≤ s.elapsed.toNat + 1 ∨
      s.mm = false ∧ t.faState = .hdr ∧ t.accLen = 0#16 ∨
      s.mm = true ∧ t.faState = .stall ∧ t.accLen = 5#16)

/-- R153, R53: the cycle in which a transaction completes leaves RESULT_CODE NO_ERROR or CRC_MISMATCH and EXC_RAW 0, with
RESULT_LEN = ACC_LEN = EXP_LEN ≥ 5 and the header matching the request; CRC_VERIFY of that frame then agrees (R117). -/
def Obligations.CompletionIsClassified : Prop :=
  ∀ s t : State, s.Inv → s.busy = true → step s = .next t → t.faState = .complete →
    (t.resultCode = 0x00#8 ∨ t.resultCode = 0x82#8) ∧ t.excRaw = 0x00#8 ∧ t.FreshComplete ∧ t.done = true ∧
    exec .crcVerify t = .next { t with crcOk := t.resultCode != 0x82#8 }

/-- R53: RESULT_LEN = 0xFFFF in the cycle FA_STATE becomes TIMED_OUT or FAILED, and until the next accepted VALIDATE or
START; a completed frame stays as it completed until the next accepted FRM_CLEAR, FRM_PUSH, VALIDATE, START or SET_REQ.
R53 does not name SET_REQ, which R131 lets change REQ_ADDR and REQ_FC in COMPLETE: naming it is the model's correction
(log 14). -/
def Obligations.ResultsStayUntilOverwritten : Prop :=
  (∀ s t : State, s.Inv → s.nextInput.rst = false → step s = .next t →
    (s.busy = true ∨ ∃ v, s.accepted = some (.start v)) → t.faState = .timedOut ∨ t.faState = .failed →
    t.FreshNoFrame) ∧
  (∀ s t : State, s.FreshNoFrame → s.nextInput.rst = false → step s = .next t → s.accepted ≠ some .validate →
    (∀ v, s.accepted ≠ some (.start v)) → t.FreshNoFrame) ∧
  (∀ s t : State, s.FreshComplete → s.nextInput.rst = false → step s = .next t → s.accepted ≠ some .frmClear →
    (∀ b, s.accepted ≠ some (.frmPush b)) → s.accepted ≠ some .validate → (∀ v, s.accepted ≠ some (.start v)) →
    (∀ a f, s.accepted ≠ some (.setReq a f)) →
    t.FreshComplete ∧ t.resultCode = s.resultCode ∧ t.excRaw = s.excRaw ∧ t.frameBytes = s.frameBytes)

/-- R53 to the letter: a completed frame stays as it completed until the next accepted FRM_CLEAR, FRM_PUSH, VALIDATE or
START. Expected to FAIL: SET_REQ is accepted in COMPLETE and changes REQ_ADDR (R131), after which FRAME[0] need not equal
it (log 14). -/
def Obligations.CompletedFrameStaysToTheLetter : Prop :=
  ∀ s t : State, s.Inv → s.FreshComplete → s.nextInput.rst = false → step s = .next t →
    s.accepted ≠ some .frmClear → (∀ b, s.accepted ≠ some (.frmPush b)) → s.accepted ≠ some .validate →
    (∀ v, s.accepted ≠ some (.start v)) → t.FreshComplete

/-- R225, R27: DONE rises exactly when a transaction ends. While one is in flight DONE = 0; the cycle that ends it sets
DONE; a START that ends at once sets it in its own cycle; no other cycle raises it. -/
def Obligations.DoneRisesOncePerTransaction : Prop :=
  ∀ s t : State, s.Inv → s.nextInput.rst = false → step s = .next t →
    (s.busy = true → s.done = false ∧ (t.done = true ↔ t.busy = false)) ∧
    (∀ v, s.accepted = some (.start v) → (t.done = true ↔ t.busy = false)) ∧
    (s.busy = false → (∀ v, s.accepted ≠ some (.start v)) → t.busy = false ∧ (t.done = true → s.done = true))

/-- R226(b): the phase order at the deadline. A frame whose last byte is consumed in the deadline cycle is COMPLETE, not
TIMED_OUT; an unknown function code consumed in the deadline cycle ends MALFORMED_FRAME, not TIMEOUT; and a START that ends
at once counts no tick of its cycle. -/
def Obligations.ByteWorkBeatsTheDeadline : Prop :=
  (∀ (s : State) (b : Byte) (rest : List Byte), s.Inv → s.ReadAllowed → s.nextInput.rst = false →
    s.faState = .body → s.fifo = b :: rest → s.accLen.toNat + 1 = s.expLen.toNat →
    s.frameByte 0 = s.reqAddr → s.frameByte 1 = s.reqFc → s.nextInput.tick = true →
    ∃ t, step s = .next t ∧ t.faState = .complete ∧ t.elapsed = s.elapsed ∧ t.resultLen = s.expLen) ∧
  (∀ (s : State) (f : Byte) (rest : List Byte), s.Inv → s.ReadAllowed → s.nextInput.rst = false →
    s.faState = .hdr → s.accLen = 1#16 → s.fifo = f :: rest → f ≠ 0x03#8 → f ≠ 0x10#8 →
    f.toNat ≠ s.reqFc.toNat + 0x80 → s.ufc = false → s.nextInput.tick = true →
    ∃ t, step s = .next t ∧ t.faState = .failed ∧ t.resultCode = 0x81#8 ∧ t.elapsed = s.elapsed) ∧
  (∀ (s : State) (v : Half), s.Inv → s.ReadAllowed → s.accepted = some (.start v) →
    (s.inited = false ∨ (if v = 0xFFFF#16 then s.defTimeout else v) = 0#16) → s.nextInput.tick = true →
    ∃ t, step s = .next t ∧ t.elapsed = 0#16 ∧ t.resultCode = (if s.inited = false then 0x84#8 else 0x80#8))

/-- R28 to R31, R36, R37, R39, R45 to R48: the only writers of the fields, reset apart. RXOVR rises only with a received
byte, and never in a cycle that begins with the assembler consuming (R261). That no step writes the parameters (R6) is the model's
choice (log 5). -/
def Obligations.OnlyTheNamedCommandsWrite : Prop :=
  ∀ s t : State, s.nextInput.rst = false → step s = .next t →
    t.params = s.params ∧
    (t.reqAddr ≠ s.reqAddr ∨ t.reqFc ≠ s.reqFc → s.accepted = some (.setReq t.reqAddr t.reqFc)) ∧
    (t.toEff ≠ s.toEff → ∃ v, s.accepted = some (.start v)) ∧
    (t.defTimeout ≠ s.defTimeout → s.inited = false ∧ s.accepted = some (.init t.defTimeout)) ∧
    (t.inited ≠ s.inited → s.inited = false ∧ (∃ d, s.accepted = some (.init d)) ∨
      s.inited = true ∧ s.accepted = some .close) ∧
    (t.crcOk ≠ s.crcOk → s.accepted = some .crcVerify) ∧
    (t.discard ≠ s.discard → s.accepted = some .rxClear) ∧
    (t.ufc ≠ s.ufc ∨ t.mm ≠ s.mm ∨ t.ie ≠ s.ie → ∃ c, s.accepted = some (.cfgSet c)) ∧
    (t.illcmd ≠ s.illcmd → t.illcmd = true ∧ (∃ opc, s.accepted = some (.reserved opc)) ∨
      t.illcmd = false ∧ ∃ c, s.accepted = some (.flagsClr c)) ∧
    (t.frmovr ≠ s.frmovr → t.frmovr = true ∧ (∃ b, s.accepted = some (.frmPush b)) ∨
      t.frmovr = false ∧ ∃ c, s.accepted = some (.flagsClr c)) ∧
    (t.rxovr ≠ s.rxovr → t.rxovr = true ∧ s.nextInput.rx ≠ none ∧ (s.Inv → s.faState.isConsuming = false) ∨
      t.rxovr = false ∧ ∃ c, s.accepted = some (.flagsClr c))

/-- R224, R227: ending a transaction writes FA_STATE, RESULT_CODE, RESULT_LEN, EXC_RAW and DONE and nothing else, after it
BUSY = 0, and no later phase of its cycle undoes it; the acknowledgement then drops DONE and keeps the results (R228). -/
def Obligations.TerminationIsPreciseAndFinal : Prop :=
  ∀ (st : FaState) (code exc : Byte) (rlen : Half) (s : State), st.isTerminal = true →
    ∃ t, t = terminate st code rlen exc s ∧
      t = { s with faState := st, resultCode := code, resultLen := rlen, excRaw := exc, done := true } ∧
      t.busy = false ∧ consumePhase t = .next t ∧ (∀ tick, tickPhase tick t = t) ∧
      (∀ rx, enqueuePhase rx t = { t with fifo := (enqueuePhase rx t).fifo, rxovr := (enqueuePhase rx t).rxovr }) ∧
      exec .doneAck t = .next { t with done := false }

/-! ### Invariant and safety -/

/-- The invariant of R53 holds after reset, under all legal parameters. -/
def Obligations.ResetMeetsTheInvariant : Prop :=
  State.reset.Inv ∧ ∀ p : Params, p.legal = true → (State.resetWith p).Inv

/-- Every step keeps the invariant of R53: the lengths and the FIFO stay in their bounds, a closed block has an empty FIFO,
ELAPSED ≤ TO_EFF, the lengths agree with FA_STATE, RESULT_CODE holds a value of R90, and the frame store stays canonical. -/
def Obligations.EveryStepKeepsTheInvariant : Prop :=
  ∀ s t : State, s.Inv → step s = .next t → t.Inv

/-- From a state that meets the invariant no step faults, and every cycle whose read R63 allows has a next state: the block
has no traps (R220), and a consumed byte always lies inside the frame buffer (R137); outside it the model's fault is its own
choice (log 9). -/
def Obligations.NoStepFaults : Prop :=
  ∀ s : State, s.Inv → s.StepSafe ∧ (s.ReadAllowed → ∃ t, step s = .next t)

/-- R40, R65, D22: the frame bytes at or past ACC_LEN are unobservable. Two states that differ only in them answer every
host read alike, and step to outcomes that differ only in them again. So the value the model lets an unwritten frame byte
read as (log 8) reaches no observation. -/
def Obligations.StaleFrameBytesAreUnobservable : Prop :=
  ∀ s t : State, s.Inv → t.Inv → s.visible = t.visible →
    (∀ r, s.hostRead r = t.hostRead r) ∧ visibleOutcome (step s) = visibleOutcome (step t)

/-! ### Transactions -/

/-- R154: chunking does not matter. From one busy state, two delivery schedules of the same bytes that both end COMPLETE
give the same frame and the same results, also where more of those bytes wait in the FIFO at the start of one than of the
other. -/
def Obligations.ChunkingDoesNotMatter : Prop :=
  ∀ (s t u : State) (waiting : List Byte) (xs ys : List CycleIn), s.Inv → State.Inv { s with fifo := waiting } →
    s.busy = true → quietInputs xs → quietInputs ys → noCommands xs → noCommands ys →
    s.fifo ++ rxBytes xs = waiting ++ rxBytes ys →
    runInputs xs s = .next t → runInputs ys { s with fifo := waiting } = .next u → t.faState = .complete → u.faState = .complete →
    t.frameBytes = u.frameBytes ∧ t.accLen = u.accLen ∧ t.resultCode = u.resultCode ∧ t.excRaw = u.excRaw ∧
    t.resultLen = u.resultLen

/-- R155, R151: every transaction ends. From a busy state, whatever commands and bytes the cycles carry, the block is in a
terminal state with DONE = 1 no later than the cycle of the tick that brings the ticks to TO_EFF − ELAPSED. -/
def Obligations.EveryTransactionEnds : Prop :=
  ∀ (s : State) (xs : List CycleIn), s.Inv → s.busy = true → quietInputs xs →
    s.toEff.toNat - s.elapsed.toNat ≤ tickCount xs →
    ∃ k t, k ≤ xs.length ∧ runFor k { s with inputs := xs } = .next t ∧ t.faState.isTerminal = true ∧ t.done = true

/-- R89, R146, R118, R43: a well-formed response to the latched request completes. With a read-holding-registers response
(any address, up to 255 data bytes) or a write-multiple-registers echo waiting in the FIFO after START, one idle cycle for
each byte leads to COMPLETE with NO_ERROR, the frame in FRAME, RESULT_LEN its length, and the payload without address and
CRC; the bytes behind it stay in the FIFO. -/
def Obligations.GoodResponseCompletes : Prop :=
  ∀ (s : State) (rest : List Byte), s.Inv → s.faState = .hdr → s.accLen = 0#16 →
    (∀ data : List Byte, data.length ≤ 255 → s.reqFc = 0x03#8 →
      s.fifo = withCrc (s.reqAddr :: 0x03#8 :: BitVec.ofNat 8 data.length :: data) ++ rest →
      ∃ t, runInputs (List.replicate (5 + data.length) CycleIn.idle) s = .next t ∧ t.faState = .complete ∧
        t.resultCode = 0x00#8 ∧ t.excRaw = 0x00#8 ∧ t.resultLen.toNat = 5 + data.length ∧ t.done = true ∧
        t.frameBytes = withCrc (s.reqAddr :: 0x03#8 :: BitVec.ofNat 8 data.length :: data) ∧
        t.payload = 0x03#8 :: BitVec.ofNat 8 data.length :: data ∧ t.fifo = rest) ∧
    (∀ b2 b3 b4 b5 : Byte, s.reqFc = 0x10#8 → s.fifo = withCrc [s.reqAddr, 0x10#8, b2, b3, b4, b5] ++ rest →
      ∃ t, runInputs (List.replicate 8 CycleIn.idle) s = .next t ∧ t.faState = .complete ∧ t.resultCode = 0x00#8 ∧
        t.excRaw = 0x00#8 ∧ t.resultLen = 8#16 ∧ t.done = true ∧
        t.frameBytes = withCrc [s.reqAddr, 0x10#8, b2, b3, b4, b5] ∧ t.fifo = rest)

/-- R87, R86: what the pseudo-instructions come to, as cycles of the machine. In a free block CRC_OF leaves CRC = crc16 of
its bytes, and FRM_LOAD of at most FRAME_MAX bytes leaves exactly those bytes in the frame. -/
def Obligations.PseudoInstructionsRun : Prop :=
  ∀ (s : State) (bs : List Byte), s.Inv → s.busy = false →
    (∃ t, runInputs (Line.pseudo (.crcOf bs)).cycles s = .next t ∧ t.crc = crc16 bs ∧ t.faState = s.faState) ∧
    (bs.length ≤ s.params.frameMax →
      ∃ t, runInputs (Line.pseudo (.frmLoad bs)).cycles s = .next t ∧ t.frameBytes = bs ∧ t.expLen = 0#16 ∧
        t.faState = s.faState)
end

