-- ==== Sys2Proof/Laws/State.lean ====
section
/-! SUPPORT. What each named update of State leaves in each field: one lemma per field, true by unfolding, so that no later
proof unfolds a record update. -/

namespace Sys2Proof.Machine

variable (s : State)

/-! ### terminate -/

@[simp] theorem terminate_params (st : FaState) (code : Byte) (rlen : Half) (exc : Byte) : (terminate st code rlen exc s).params = s.params := rfl
@[simp] theorem terminate_faState (st : FaState) (code : Byte) (rlen : Half) (exc : Byte) : (terminate st code rlen exc s).faState = st := rfl
@[simp] theorem terminate_inited (st : FaState) (code : Byte) (rlen : Half) (exc : Byte) : (terminate st code rlen exc s).inited = s.inited := rfl
@[simp] theorem terminate_done (st : FaState) (code : Byte) (rlen : Half) (exc : Byte) : (terminate st code rlen exc s).done = true := rfl
@[simp] theorem terminate_crcOk (st : FaState) (code : Byte) (rlen : Half) (exc : Byte) : (terminate st code rlen exc s).crcOk = s.crcOk := rfl
@[simp] theorem terminate_rxovr (st : FaState) (code : Byte) (rlen : Half) (exc : Byte) : (terminate st code rlen exc s).rxovr = s.rxovr := rfl
@[simp] theorem terminate_frmovr (st : FaState) (code : Byte) (rlen : Half) (exc : Byte) : (terminate st code rlen exc s).frmovr = s.frmovr := rfl
@[simp] theorem terminate_illcmd (st : FaState) (code : Byte) (rlen : Half) (exc : Byte) : (terminate st code rlen exc s).illcmd = s.illcmd := rfl
@[simp] theorem terminate_resultCode (st : FaState) (code : Byte) (rlen : Half) (exc : Byte) : (terminate st code rlen exc s).resultCode = code := rfl
@[simp] theorem terminate_excRaw (st : FaState) (code : Byte) (rlen : Half) (exc : Byte) : (terminate st code rlen exc s).excRaw = exc := rfl
@[simp] theorem terminate_crc (st : FaState) (code : Byte) (rlen : Half) (exc : Byte) : (terminate st code rlen exc s).crc = s.crc := rfl
@[simp] theorem terminate_reqAddr (st : FaState) (code : Byte) (rlen : Half) (exc : Byte) : (terminate st code rlen exc s).reqAddr = s.reqAddr := rfl
@[simp] theorem terminate_reqFc (st : FaState) (code : Byte) (rlen : Half) (exc : Byte) : (terminate st code rlen exc s).reqFc = s.reqFc := rfl
@[simp] theorem terminate_toEff (st : FaState) (code : Byte) (rlen : Half) (exc : Byte) : (terminate st code rlen exc s).toEff = s.toEff := rfl
@[simp] theorem terminate_elapsed (st : FaState) (code : Byte) (rlen : Half) (exc : Byte) : (terminate st code rlen exc s).elapsed = s.elapsed := rfl
@[simp] theorem terminate_defTimeout (st : FaState) (code : Byte) (rlen : Half) (exc : Byte) : (terminate st code rlen exc s).defTimeout = s.defTimeout := rfl
@[simp] theorem terminate_frame (st : FaState) (code : Byte) (rlen : Half) (exc : Byte) : (terminate st code rlen exc s).frame = s.frame := rfl
@[simp] theorem terminate_accLen (st : FaState) (code : Byte) (rlen : Half) (exc : Byte) : (terminate st code rlen exc s).accLen = s.accLen := rfl
@[simp] theorem terminate_expLen (st : FaState) (code : Byte) (rlen : Half) (exc : Byte) : (terminate st code rlen exc s).expLen = s.expLen := rfl
@[simp] theorem terminate_resultLen (st : FaState) (code : Byte) (rlen : Half) (exc : Byte) : (terminate st code rlen exc s).resultLen = rlen := rfl
@[simp] theorem terminate_fifo (st : FaState) (code : Byte) (rlen : Half) (exc : Byte) : (terminate st code rlen exc s).fifo = s.fifo := rfl
@[simp] theorem terminate_discard (st : FaState) (code : Byte) (rlen : Half) (exc : Byte) : (terminate st code rlen exc s).discard = s.discard := rfl
@[simp] theorem terminate_ufc (st : FaState) (code : Byte) (rlen : Half) (exc : Byte) : (terminate st code rlen exc s).ufc = s.ufc := rfl
@[simp] theorem terminate_mm (st : FaState) (code : Byte) (rlen : Half) (exc : Byte) : (terminate st code rlen exc s).mm = s.mm := rfl
@[simp] theorem terminate_ie (st : FaState) (code : Byte) (rlen : Half) (exc : Byte) : (terminate st code rlen exc s).ie = s.ie := rfl
@[simp] theorem terminate_inputs (st : FaState) (code : Byte) (rlen : Half) (exc : Byte) : (terminate st code rlen exc s).inputs = s.inputs := rfl
@[simp] theorem terminate_out (st : FaState) (code : Byte) (rlen : Half) (exc : Byte) : (terminate st code rlen exc s).out = s.out := rfl

/-! ### timeOut -/

@[simp] theorem timeOut_params : (timeOut s).params = s.params := rfl
@[simp] theorem timeOut_faState : (timeOut s).faState = .timedOut := rfl
@[simp] theorem timeOut_inited : (timeOut s).inited = s.inited := rfl
@[simp] theorem timeOut_done : (timeOut s).done = true := rfl
@[simp] theorem timeOut_crcOk : (timeOut s).crcOk = s.crcOk := rfl
@[simp] theorem timeOut_rxovr : (timeOut s).rxovr = s.rxovr := rfl
@[simp] theorem timeOut_frmovr : (timeOut s).frmovr = s.frmovr := rfl
@[simp] theorem timeOut_illcmd : (timeOut s).illcmd = s.illcmd := rfl
@[simp] theorem timeOut_resultCode : (timeOut s).resultCode = 0x80#8 := rfl
@[simp] theorem timeOut_excRaw : (timeOut s).excRaw = 0x00#8 := rfl
@[simp] theorem timeOut_crc : (timeOut s).crc = s.crc := rfl
@[simp] theorem timeOut_reqAddr : (timeOut s).reqAddr = s.reqAddr := rfl
@[simp] theorem timeOut_reqFc : (timeOut s).reqFc = s.reqFc := rfl
@[simp] theorem timeOut_toEff : (timeOut s).toEff = s.toEff := rfl
@[simp] theorem timeOut_elapsed : (timeOut s).elapsed = s.elapsed := rfl
@[simp] theorem timeOut_defTimeout : (timeOut s).defTimeout = s.defTimeout := rfl
@[simp] theorem timeOut_frame : (timeOut s).frame = s.frame := rfl
@[simp] theorem timeOut_accLen : (timeOut s).accLen = s.accLen := rfl
@[simp] theorem timeOut_expLen : (timeOut s).expLen = s.expLen := rfl
@[simp] theorem timeOut_resultLen : (timeOut s).resultLen = 0xFFFF#16 := rfl
@[simp] theorem timeOut_fifo : (timeOut s).fifo = s.fifo := rfl
@[simp] theorem timeOut_discard : (timeOut s).discard = s.discard := rfl
@[simp] theorem timeOut_ufc : (timeOut s).ufc = s.ufc := rfl
@[simp] theorem timeOut_mm : (timeOut s).mm = s.mm := rfl
@[simp] theorem timeOut_ie : (timeOut s).ie = s.ie := rfl
@[simp] theorem timeOut_inputs : (timeOut s).inputs = s.inputs := rfl
@[simp] theorem timeOut_out : (timeOut s).out = s.out := rfl

/-! ### acknowledge -/

@[simp] theorem acknowledge_params : (acknowledge s).params = s.params := rfl
@[simp] theorem acknowledge_faState : (acknowledge s).faState = s.faState := rfl
@[simp] theorem acknowledge_inited : (acknowledge s).inited = s.inited := rfl
@[simp] theorem acknowledge_done : (acknowledge s).done = false := rfl
@[simp] theorem acknowledge_crcOk : (acknowledge s).crcOk = s.crcOk := rfl
@[simp] theorem acknowledge_rxovr : (acknowledge s).rxovr = s.rxovr := rfl
@[simp] theorem acknowledge_frmovr : (acknowledge s).frmovr = s.frmovr := rfl
@[simp] theorem acknowledge_illcmd : (acknowledge s).illcmd = s.illcmd := rfl
@[simp] theorem acknowledge_resultCode : (acknowledge s).resultCode = s.resultCode := rfl
@[simp] theorem acknowledge_excRaw : (acknowledge s).excRaw = s.excRaw := rfl
@[simp] theorem acknowledge_crc : (acknowledge s).crc = s.crc := rfl
@[simp] theorem acknowledge_reqAddr : (acknowledge s).reqAddr = s.reqAddr := rfl
@[simp] theorem acknowledge_reqFc : (acknowledge s).reqFc = s.reqFc := rfl
@[simp] theorem acknowledge_toEff : (acknowledge s).toEff = s.toEff := rfl
@[simp] theorem acknowledge_elapsed : (acknowledge s).elapsed = s.elapsed := rfl
@[simp] theorem acknowledge_defTimeout : (acknowledge s).defTimeout = s.defTimeout := rfl
@[simp] theorem acknowledge_frame : (acknowledge s).frame = s.frame := rfl
@[simp] theorem acknowledge_accLen : (acknowledge s).accLen = s.accLen := rfl
@[simp] theorem acknowledge_expLen : (acknowledge s).expLen = s.expLen := rfl
@[simp] theorem acknowledge_resultLen : (acknowledge s).resultLen = s.resultLen := rfl
@[simp] theorem acknowledge_fifo : (acknowledge s).fifo = s.fifo := rfl
@[simp] theorem acknowledge_discard : (acknowledge s).discard = s.discard := rfl
@[simp] theorem acknowledge_ufc : (acknowledge s).ufc = s.ufc := rfl
@[simp] theorem acknowledge_mm : (acknowledge s).mm = s.mm := rfl
@[simp] theorem acknowledge_ie : (acknowledge s).ie = s.ie := rfl
@[simp] theorem acknowledge_inputs : (acknowledge s).inputs = s.inputs := rfl
@[simp] theorem acknowledge_out : (acknowledge s).out = s.out := rfl

/-! ### appendByte -/

@[simp] theorem appendByte_params (b : Byte) : (s.appendByte b).params = s.params := rfl
@[simp] theorem appendByte_faState (b : Byte) : (s.appendByte b).faState = s.faState := rfl
@[simp] theorem appendByte_inited (b : Byte) : (s.appendByte b).inited = s.inited := rfl
@[simp] theorem appendByte_done (b : Byte) : (s.appendByte b).done = s.done := rfl
@[simp] theorem appendByte_crcOk (b : Byte) : (s.appendByte b).crcOk = s.crcOk := rfl
@[simp] theorem appendByte_rxovr (b : Byte) : (s.appendByte b).rxovr = s.rxovr := rfl
@[simp] theorem appendByte_frmovr (b : Byte) : (s.appendByte b).frmovr = s.frmovr := rfl
@[simp] theorem appendByte_illcmd (b : Byte) : (s.appendByte b).illcmd = s.illcmd := rfl
@[simp] theorem appendByte_resultCode (b : Byte) : (s.appendByte b).resultCode = s.resultCode := rfl
@[simp] theorem appendByte_excRaw (b : Byte) : (s.appendByte b).excRaw = s.excRaw := rfl
@[simp] theorem appendByte_crc (b : Byte) : (s.appendByte b).crc = s.crc := rfl
@[simp] theorem appendByte_reqAddr (b : Byte) : (s.appendByte b).reqAddr = s.reqAddr := rfl
@[simp] theorem appendByte_reqFc (b : Byte) : (s.appendByte b).reqFc = s.reqFc := rfl
@[simp] theorem appendByte_toEff (b : Byte) : (s.appendByte b).toEff = s.toEff := rfl
@[simp] theorem appendByte_elapsed (b : Byte) : (s.appendByte b).elapsed = s.elapsed := rfl
@[simp] theorem appendByte_defTimeout (b : Byte) : (s.appendByte b).defTimeout = s.defTimeout := rfl
@[simp] theorem appendByte_frame (b : Byte) : (s.appendByte b).frame = Memory.write s.frame s.accLen.toNat b := rfl
@[simp] theorem appendByte_accLen (b : Byte) : (s.appendByte b).accLen = s.accLen + 1#16 := rfl
@[simp] theorem appendByte_expLen (b : Byte) : (s.appendByte b).expLen = s.expLen := rfl
@[simp] theorem appendByte_resultLen (b : Byte) : (s.appendByte b).resultLen = s.resultLen := rfl
@[simp] theorem appendByte_fifo (b : Byte) : (s.appendByte b).fifo = s.fifo := rfl
@[simp] theorem appendByte_discard (b : Byte) : (s.appendByte b).discard = s.discard := rfl
@[simp] theorem appendByte_ufc (b : Byte) : (s.appendByte b).ufc = s.ufc := rfl
@[simp] theorem appendByte_mm (b : Byte) : (s.appendByte b).mm = s.mm := rfl
@[simp] theorem appendByte_ie (b : Byte) : (s.appendByte b).ie = s.ie := rfl
@[simp] theorem appendByte_inputs (b : Byte) : (s.appendByte b).inputs = s.inputs := rfl
@[simp] theorem appendByte_out (b : Byte) : (s.appendByte b).out = s.out := rfl

/-! ### pushFifo -/

@[simp] theorem pushFifo_params (b : Byte) : (s.pushFifo b).params = s.params := rfl
@[simp] theorem pushFifo_faState (b : Byte) : (s.pushFifo b).faState = s.faState := rfl
@[simp] theorem pushFifo_inited (b : Byte) : (s.pushFifo b).inited = s.inited := rfl
@[simp] theorem pushFifo_done (b : Byte) : (s.pushFifo b).done = s.done := rfl
@[simp] theorem pushFifo_crcOk (b : Byte) : (s.pushFifo b).crcOk = s.crcOk := rfl
@[simp] theorem pushFifo_rxovr (b : Byte) : (s.pushFifo b).rxovr = s.rxovr := rfl
@[simp] theorem pushFifo_frmovr (b : Byte) : (s.pushFifo b).frmovr = s.frmovr := rfl
@[simp] theorem pushFifo_illcmd (b : Byte) : (s.pushFifo b).illcmd = s.illcmd := rfl
@[simp] theorem pushFifo_resultCode (b : Byte) : (s.pushFifo b).resultCode = s.resultCode := rfl
@[simp] theorem pushFifo_excRaw (b : Byte) : (s.pushFifo b).excRaw = s.excRaw := rfl
@[simp] theorem pushFifo_crc (b : Byte) : (s.pushFifo b).crc = s.crc := rfl
@[simp] theorem pushFifo_reqAddr (b : Byte) : (s.pushFifo b).reqAddr = s.reqAddr := rfl
@[simp] theorem pushFifo_reqFc (b : Byte) : (s.pushFifo b).reqFc = s.reqFc := rfl
@[simp] theorem pushFifo_toEff (b : Byte) : (s.pushFifo b).toEff = s.toEff := rfl
@[simp] theorem pushFifo_elapsed (b : Byte) : (s.pushFifo b).elapsed = s.elapsed := rfl
@[simp] theorem pushFifo_defTimeout (b : Byte) : (s.pushFifo b).defTimeout = s.defTimeout := rfl
@[simp] theorem pushFifo_frame (b : Byte) : (s.pushFifo b).frame = s.frame := rfl
@[simp] theorem pushFifo_accLen (b : Byte) : (s.pushFifo b).accLen = s.accLen := rfl
@[simp] theorem pushFifo_expLen (b : Byte) : (s.pushFifo b).expLen = s.expLen := rfl
@[simp] theorem pushFifo_resultLen (b : Byte) : (s.pushFifo b).resultLen = s.resultLen := rfl
@[simp] theorem pushFifo_fifo (b : Byte) : (s.pushFifo b).fifo = s.fifo ++ [b] := rfl
@[simp] theorem pushFifo_discard (b : Byte) : (s.pushFifo b).discard = s.discard := rfl
@[simp] theorem pushFifo_ufc (b : Byte) : (s.pushFifo b).ufc = s.ufc := rfl
@[simp] theorem pushFifo_mm (b : Byte) : (s.pushFifo b).mm = s.mm := rfl
@[simp] theorem pushFifo_ie (b : Byte) : (s.pushFifo b).ie = s.ie := rfl
@[simp] theorem pushFifo_inputs (b : Byte) : (s.pushFifo b).inputs = s.inputs := rfl
@[simp] theorem pushFifo_out (b : Byte) : (s.pushFifo b).out = s.out := rfl

/-! ### startCommon -/

@[simp] theorem startCommon_params : (startCommon s).params = s.params := rfl
@[simp] theorem startCommon_faState : (startCommon s).faState = s.faState := rfl
@[simp] theorem startCommon_inited : (startCommon s).inited = s.inited := rfl
@[simp] theorem startCommon_done : (startCommon s).done = false := rfl
@[simp] theorem startCommon_crcOk : (startCommon s).crcOk = s.crcOk := rfl
@[simp] theorem startCommon_rxovr : (startCommon s).rxovr = s.rxovr := rfl
@[simp] theorem startCommon_frmovr : (startCommon s).frmovr = s.frmovr := rfl
@[simp] theorem startCommon_illcmd : (startCommon s).illcmd = s.illcmd := rfl
@[simp] theorem startCommon_resultCode : (startCommon s).resultCode = 0x00#8 := rfl
@[simp] theorem startCommon_excRaw : (startCommon s).excRaw = 0x00#8 := rfl
@[simp] theorem startCommon_crc : (startCommon s).crc = s.crc := rfl
@[simp] theorem startCommon_reqAddr : (startCommon s).reqAddr = s.reqAddr := rfl
@[simp] theorem startCommon_reqFc : (startCommon s).reqFc = s.reqFc := rfl
@[simp] theorem startCommon_toEff : (startCommon s).toEff = s.toEff := rfl
@[simp] theorem startCommon_elapsed : (startCommon s).elapsed = 0#16 := rfl
@[simp] theorem startCommon_defTimeout : (startCommon s).defTimeout = s.defTimeout := rfl
@[simp] theorem startCommon_frame : (startCommon s).frame = s.frame := rfl
@[simp] theorem startCommon_accLen : (startCommon s).accLen = 0#16 := rfl
@[simp] theorem startCommon_expLen : (startCommon s).expLen = 0#16 := rfl
@[simp] theorem startCommon_resultLen : (startCommon s).resultLen = 0#16 := rfl
@[simp] theorem startCommon_fifo : (startCommon s).fifo = s.fifo := rfl
@[simp] theorem startCommon_discard : (startCommon s).discard = s.discard := rfl
@[simp] theorem startCommon_ufc : (startCommon s).ufc = s.ufc := rfl
@[simp] theorem startCommon_mm : (startCommon s).mm = s.mm := rfl
@[simp] theorem startCommon_ie : (startCommon s).ie = s.ie := rfl
@[simp] theorem startCommon_inputs : (startCommon s).inputs = s.inputs := rfl
@[simp] theorem startCommon_out : (startCommon s).out = s.out := rfl

/-! ### byteCountStep -/

@[simp] theorem byteCountStep_params : (byteCountStep s).params = s.params := rfl
@[simp] theorem byteCountStep_faState : (byteCountStep s).faState = .body := rfl
@[simp] theorem byteCountStep_inited : (byteCountStep s).inited = s.inited := rfl
@[simp] theorem byteCountStep_done : (byteCountStep s).done = s.done := rfl
@[simp] theorem byteCountStep_crcOk : (byteCountStep s).crcOk = s.crcOk := rfl
@[simp] theorem byteCountStep_rxovr : (byteCountStep s).rxovr = s.rxovr := rfl
@[simp] theorem byteCountStep_frmovr : (byteCountStep s).frmovr = s.frmovr := rfl
@[simp] theorem byteCountStep_illcmd : (byteCountStep s).illcmd = s.illcmd := rfl
@[simp] theorem byteCountStep_resultCode : (byteCountStep s).resultCode = s.resultCode := rfl
@[simp] theorem byteCountStep_excRaw : (byteCountStep s).excRaw = s.excRaw := rfl
@[simp] theorem byteCountStep_crc : (byteCountStep s).crc = s.crc := rfl
@[simp] theorem byteCountStep_reqAddr : (byteCountStep s).reqAddr = s.reqAddr := rfl
@[simp] theorem byteCountStep_reqFc : (byteCountStep s).reqFc = s.reqFc := rfl
@[simp] theorem byteCountStep_toEff : (byteCountStep s).toEff = s.toEff := rfl
@[simp] theorem byteCountStep_elapsed : (byteCountStep s).elapsed = s.elapsed := rfl
@[simp] theorem byteCountStep_defTimeout : (byteCountStep s).defTimeout = s.defTimeout := rfl
@[simp] theorem byteCountStep_frame : (byteCountStep s).frame = s.frame := rfl
@[simp] theorem byteCountStep_accLen : (byteCountStep s).accLen = s.accLen := rfl
@[simp] theorem byteCountStep_expLen : (byteCountStep s).expLen = 5#16 + (s.frameByte 2).setWidth 16 := rfl
@[simp] theorem byteCountStep_resultLen : (byteCountStep s).resultLen = s.resultLen := rfl
@[simp] theorem byteCountStep_fifo : (byteCountStep s).fifo = s.fifo := rfl
@[simp] theorem byteCountStep_discard : (byteCountStep s).discard = s.discard := rfl
@[simp] theorem byteCountStep_ufc : (byteCountStep s).ufc = s.ufc := rfl
@[simp] theorem byteCountStep_mm : (byteCountStep s).mm = s.mm := rfl
@[simp] theorem byteCountStep_ie : (byteCountStep s).ie = s.ie := rfl
@[simp] theorem byteCountStep_inputs : (byteCountStep s).inputs = s.inputs := rfl
@[simp] theorem byteCountStep_out : (byteCountStep s).out = s.out := rfl

/-! ### completeFrame -/

@[simp] theorem completeFrame_params : (completeFrame s).params = s.params := rfl
@[simp] theorem completeFrame_faState : (completeFrame s).faState = .complete := rfl
@[simp] theorem completeFrame_inited : (completeFrame s).inited = s.inited := rfl
@[simp] theorem completeFrame_done : (completeFrame s).done = true := rfl
@[simp] theorem completeFrame_crcOk : (completeFrame s).crcOk = s.crcOk := rfl
@[simp] theorem completeFrame_rxovr : (completeFrame s).rxovr = s.rxovr := rfl
@[simp] theorem completeFrame_frmovr : (completeFrame s).frmovr = s.frmovr := rfl
@[simp] theorem completeFrame_illcmd : (completeFrame s).illcmd = s.illcmd := rfl
@[simp] theorem completeFrame_resultCode : (completeFrame s).resultCode = s.classification.1 := rfl
@[simp] theorem completeFrame_excRaw : (completeFrame s).excRaw = s.classification.2 := rfl
@[simp] theorem completeFrame_crc : (completeFrame s).crc = s.crc := rfl
@[simp] theorem completeFrame_reqAddr : (completeFrame s).reqAddr = s.reqAddr := rfl
@[simp] theorem completeFrame_reqFc : (completeFrame s).reqFc = s.reqFc := rfl
@[simp] theorem completeFrame_toEff : (completeFrame s).toEff = s.toEff := rfl
@[simp] theorem completeFrame_elapsed : (completeFrame s).elapsed = s.elapsed := rfl
@[simp] theorem completeFrame_defTimeout : (completeFrame s).defTimeout = s.defTimeout := rfl
@[simp] theorem completeFrame_frame : (completeFrame s).frame = s.frame := rfl
@[simp] theorem completeFrame_accLen : (completeFrame s).accLen = s.accLen := rfl
@[simp] theorem completeFrame_expLen : (completeFrame s).expLen = s.expLen := rfl
@[simp] theorem completeFrame_resultLen : (completeFrame s).resultLen = s.accLen := rfl
@[simp] theorem completeFrame_fifo : (completeFrame s).fifo = s.fifo := rfl
@[simp] theorem completeFrame_discard : (completeFrame s).discard = s.discard := rfl
@[simp] theorem completeFrame_ufc : (completeFrame s).ufc = s.ufc := rfl
@[simp] theorem completeFrame_mm : (completeFrame s).mm = s.mm := rfl
@[simp] theorem completeFrame_ie : (completeFrame s).ie = s.ie := rfl
@[simp] theorem completeFrame_inputs : (completeFrame s).inputs = s.inputs := rfl
@[simp] theorem completeFrame_out : (completeFrame s).out = s.out := rfl

/-! ### dropInput -/

@[simp] theorem dropInput_params : (s.dropInput).params = s.params := rfl
@[simp] theorem dropInput_faState : (s.dropInput).faState = s.faState := rfl
@[simp] theorem dropInput_inited : (s.dropInput).inited = s.inited := rfl
@[simp] theorem dropInput_done : (s.dropInput).done = s.done := rfl
@[simp] theorem dropInput_crcOk : (s.dropInput).crcOk = s.crcOk := rfl
@[simp] theorem dropInput_rxovr : (s.dropInput).rxovr = s.rxovr := rfl
@[simp] theorem dropInput_frmovr : (s.dropInput).frmovr = s.frmovr := rfl
@[simp] theorem dropInput_illcmd : (s.dropInput).illcmd = s.illcmd := rfl
@[simp] theorem dropInput_resultCode : (s.dropInput).resultCode = s.resultCode := rfl
@[simp] theorem dropInput_excRaw : (s.dropInput).excRaw = s.excRaw := rfl
@[simp] theorem dropInput_crc : (s.dropInput).crc = s.crc := rfl
@[simp] theorem dropInput_reqAddr : (s.dropInput).reqAddr = s.reqAddr := rfl
@[simp] theorem dropInput_reqFc : (s.dropInput).reqFc = s.reqFc := rfl
@[simp] theorem dropInput_toEff : (s.dropInput).toEff = s.toEff := rfl
@[simp] theorem dropInput_elapsed : (s.dropInput).elapsed = s.elapsed := rfl
@[simp] theorem dropInput_defTimeout : (s.dropInput).defTimeout = s.defTimeout := rfl
@[simp] theorem dropInput_frame : (s.dropInput).frame = s.frame := rfl
@[simp] theorem dropInput_accLen : (s.dropInput).accLen = s.accLen := rfl
@[simp] theorem dropInput_expLen : (s.dropInput).expLen = s.expLen := rfl
@[simp] theorem dropInput_resultLen : (s.dropInput).resultLen = s.resultLen := rfl
@[simp] theorem dropInput_fifo : (s.dropInput).fifo = s.fifo := rfl
@[simp] theorem dropInput_discard : (s.dropInput).discard = s.discard := rfl
@[simp] theorem dropInput_ufc : (s.dropInput).ufc = s.ufc := rfl
@[simp] theorem dropInput_mm : (s.dropInput).mm = s.mm := rfl
@[simp] theorem dropInput_ie : (s.dropInput).ie = s.ie := rfl
@[simp] theorem dropInput_inputs : (s.dropInput).inputs = s.inputs.tail := rfl
@[simp] theorem dropInput_out : (s.dropInput).out = s.out := rfl

/-! ### beginCycle -/

@[simp] theorem beginCycle_params : (s.beginCycle).params = s.params := rfl
@[simp] theorem beginCycle_faState : (s.beginCycle).faState = s.faState := rfl
@[simp] theorem beginCycle_inited : (s.beginCycle).inited = s.inited := rfl
@[simp] theorem beginCycle_done : (s.beginCycle).done = s.done := rfl
@[simp] theorem beginCycle_crcOk : (s.beginCycle).crcOk = s.crcOk := rfl
@[simp] theorem beginCycle_rxovr : (s.beginCycle).rxovr = s.rxovr := rfl
@[simp] theorem beginCycle_frmovr : (s.beginCycle).frmovr = s.frmovr := rfl
@[simp] theorem beginCycle_illcmd : (s.beginCycle).illcmd = s.illcmd := rfl
@[simp] theorem beginCycle_resultCode : (s.beginCycle).resultCode = s.resultCode := rfl
@[simp] theorem beginCycle_excRaw : (s.beginCycle).excRaw = s.excRaw := rfl
@[simp] theorem beginCycle_crc : (s.beginCycle).crc = s.crc := rfl
@[simp] theorem beginCycle_reqAddr : (s.beginCycle).reqAddr = s.reqAddr := rfl
@[simp] theorem beginCycle_reqFc : (s.beginCycle).reqFc = s.reqFc := rfl
@[simp] theorem beginCycle_toEff : (s.beginCycle).toEff = s.toEff := rfl
@[simp] theorem beginCycle_elapsed : (s.beginCycle).elapsed = s.elapsed := rfl
@[simp] theorem beginCycle_defTimeout : (s.beginCycle).defTimeout = s.defTimeout := rfl
@[simp] theorem beginCycle_frame : (s.beginCycle).frame = s.frame := rfl
@[simp] theorem beginCycle_accLen : (s.beginCycle).accLen = s.accLen := rfl
@[simp] theorem beginCycle_expLen : (s.beginCycle).expLen = s.expLen := rfl
@[simp] theorem beginCycle_resultLen : (s.beginCycle).resultLen = s.resultLen := rfl
@[simp] theorem beginCycle_fifo : (s.beginCycle).fifo = s.fifo := rfl
@[simp] theorem beginCycle_discard : (s.beginCycle).discard = s.discard := rfl
@[simp] theorem beginCycle_ufc : (s.beginCycle).ufc = s.ufc := rfl
@[simp] theorem beginCycle_mm : (s.beginCycle).mm = s.mm := rfl
@[simp] theorem beginCycle_ie : (s.beginCycle).ie = s.ie := rfl
@[simp] theorem beginCycle_inputs : (s.beginCycle).inputs = s.inputs.tail := rfl
@[simp] theorem beginCycle_out : (s.beginCycle).out = portOut s.nextInput s := rfl

end Sys2Proof.Machine
end

