-- ==== Sys2Proof/Laws/Memory.lean ====
section
/-! SUPPORT. The laws of the byte store: read after write, that every operation keeps the canonical form, and that a
canonical store is determined by what it reads as. -/

namespace Sys2Proof.Machine

@[simp] theorem Memory.read_nil (a : Nat) : Memory.read [] a = Memory.unlisted := rfl

/-- An address below every listed one reads as unlisted. -/
theorem Memory.read_of_lt {m : Memory} {a : Nat} (h : ∀ c ∈ m, a < c.1) : Memory.read m a = Memory.unlisted := by
  induction m with
  | nil => rfl
  | cons c m ih =>
    obtain ⟨k, v⟩ := c
    have hk : k ≠ a := by have := h (k, v) (by simp); simp at this; omega
    simp only [Memory.read, hk, if_false]
    exact ih fun c hc => h c (by simp [hc])

/-- A read after a write to the same address gives the value written. -/
@[simp] theorem Memory.read_write_same {m : Memory} (hm : Memory.wf m) (a : Nat) (b : Byte) :
    Memory.read (Memory.write m a b) a = b := by
  induction m with
  | nil => by_cases hb : b = Memory.unlisted <;> simp [Memory.write, Memory.read, hb]
  | cons c m ih =>
    obtain ⟨k, v⟩ := c
    obtain ⟨hp, hv⟩ := hm
    simp only [List.pairwise_cons] at hp
    have htail : Memory.wf m := ⟨hp.2, fun c hc => hv c (by simp [hc])⟩
    unfold Memory.write
    by_cases h1 : a < k
    · by_cases hb : b = Memory.unlisted
      · simp only [h1, hb, if_true]
        exact Memory.read_of_lt fun c hc => by
          rcases List.mem_cons.1 hc with rfl | hc
          · exact h1
          · have : k < c.1 := hp.1 c hc; omega
      · simp [h1, hb, Memory.read]
    · by_cases h2 : a = k
      · subst h2
        by_cases hb : b = Memory.unlisted
        · rw [if_neg (lt_irrefl _), if_pos rfl, if_pos hb, hb]
          exact Memory.read_of_lt fun c hc => hp.1 c hc
        · simp [hb, Memory.read]
      · have h3 : k ≠ a := fun h => h2 h.symm
        simp [h1, h2, Memory.read, h3, ih htail]

/-- A write leaves every other address alone. -/
theorem Memory.read_write_other (m : Memory) {a k : Nat} (b : Byte) (h : k ≠ a) :
    Memory.read (Memory.write m a b) k = Memory.read m k := by
  induction m with
  | nil => by_cases hb : b = Memory.unlisted <;> simp [Memory.write, Memory.read, hb, Ne.symm h]
  | cons c m ih =>
    obtain ⟨j, v⟩ := c
    unfold Memory.write
    by_cases h1 : a < j
    · by_cases hb : b = Memory.unlisted <;> simp [h1, hb, Memory.read, Ne.symm h]
    · by_cases h2 : a = j
      · subst h2
        by_cases hb : b = Memory.unlisted <;> simp [hb, Memory.read, Ne.symm h]
      · simp only [h1, h2, if_false, Memory.read, ih]

/-- What is listed after a write was written or was listed before. -/
theorem Memory.mem_write {m : Memory} {a : Nat} {b : Byte} {c : Host.Cell} (h : c ∈ Memory.write m a b) :
    (c = (a, b) ∧ b ≠ Memory.unlisted) ∨ c ∈ m := by
  induction m with
  | nil => by_cases hb : b = Memory.unlisted <;> simp_all [Memory.write]
  | cons d m ih =>
    obtain ⟨k, v⟩ := d
    unfold Memory.write at h
    by_cases h1 : a < k
    · by_cases hb : b = Memory.unlisted <;> simp_all
    · by_cases h2 : a = k
      · by_cases hb : b = Memory.unlisted <;> (simp_all; try tauto)
      · simp only [h1, h2, if_false, List.mem_cons] at h ⊢
        rcases h with h | h
        · exact Or.inr (Or.inl h)
        · rcases ih h with h | h
          · exact Or.inl h
          · exact Or.inr (Or.inr h)

/-- Writing keeps the canonical form. -/
theorem Memory.wf_write {m : Memory} (hm : Memory.wf m) (a : Nat) (b : Byte) : Memory.wf (Memory.write m a b) := by
  refine ⟨?_, fun c hc => ?_⟩
  · induction m with
    | nil => by_cases hb : b = Memory.unlisted <;> simp [Memory.write, hb]
    | cons d m ih =>
      obtain ⟨k, v⟩ := d
      obtain ⟨hp, hv⟩ := hm
      have hp' := List.pairwise_cons.1 hp
      have htail : Memory.wf m := ⟨hp'.2, fun c hc => hv c (by simp [hc])⟩
      unfold Memory.write
      by_cases h1 : a < k
      · by_cases hb : b = Memory.unlisted
        · simpa [h1, hb] using hp
        · simp only [h1, hb, if_true, if_false, List.pairwise_cons]
          refine ⟨fun c hc => ?_, hp'⟩
          rcases List.mem_cons.1 hc with rfl | hc
          · exact h1
          · have := hp'.1 c hc; simp at this ⊢; omega
      · by_cases h2 : a = k
        · subst h2
          by_cases hb : b = Memory.unlisted
          · simpa [hb] using hp'.2
          · simp only [lt_irrefl, hb, if_true, if_false, List.pairwise_cons]
            exact ⟨hp'.1, hp'.2⟩
        · simp only [h1, h2, if_false, List.pairwise_cons]
          refine ⟨fun c hc => ?_, ih htail⟩
          rcases Memory.mem_write hc with ⟨rfl, -⟩ | hc
          · simp; omega
          · exact hp'.1 c hc
  · rcases Memory.mem_write hc with ⟨rfl, hb⟩ | hc
    · exact hb
    · exact hm.2 c hc

@[simp] theorem Memory.wf_nil : Memory.wf [] := by simp [Memory.wf]

/-- Removing entries by address keeps the canonical form. -/
theorem Memory.wf_filter {m : Memory} (hm : Memory.wf m) (p : Host.Cell → Bool) : Memory.wf (m.filter p) :=
  ⟨hm.1.filter p, fun c hc => hm.2 c (List.mem_filter.1 hc).1⟩

/-- What a store reads as below a bound depends only on the entries below it. -/
theorem Memory.read_filter_lt (m : Memory) {n a : Nat} (h : a < n) :
    Memory.read (m.filter fun c => decide (c.1 < n)) a = Memory.read m a := by
  induction m with
  | nil => rfl
  | cons c m ih =>
    obtain ⟨k, v⟩ := c
    by_cases hk : k < n
    · simp [hk, Memory.read, ih]
    · have : k ≠ a := by omega
      simp [hk, Memory.read, this, ih]

/-- In a canonical store an entry is what its address reads as. -/
theorem Memory.read_of_mem {m : Memory} (hm : Memory.wf m) {a : Nat} {b : Byte} (h : (a, b) ∈ m) :
    Memory.read m a = b := by
  induction m with
  | nil => simp at h
  | cons c m ih =>
    obtain ⟨k, v⟩ := c
    have hp := List.pairwise_cons.1 hm.1
    rcases List.mem_cons.1 h with h | h
    · cases h; simp [Memory.read]
    · have : k ≠ a := by have := hp.1 _ h; simp at this; omega
      simp only [Memory.read, this, if_false]
      exact ih ⟨hp.2, fun c hc => hm.2 c (by simp [hc])⟩ h

/-- An address that does not read as unlisted is listed. -/
theorem Memory.mem_of_read_ne {m : Memory} {a : Nat} (h : Memory.read m a ≠ Memory.unlisted) :
    (a, Memory.read m a) ∈ m := by
  induction m with
  | nil => simp at h
  | cons c m ih =>
    obtain ⟨k, v⟩ := c
    by_cases hk : k = a
    · subst hk; simp [Memory.read]
    · simp only [Memory.read, hk, if_false] at h ⊢
      exact List.mem_cons_of_mem _ (ih h)

/-- Two canonical stores that read alike everywhere are equal. -/
theorem Memory.eq_of_read_eq {m n : Memory} (hm : Memory.wf m) (hn : Memory.wf n)
    (h : ∀ a, Memory.read m a = Memory.read n a) : m = n := by
  have mem : ∀ {m n : Memory}, Memory.wf m → Memory.wf n → (∀ a, Memory.read m a = Memory.read n a) →
      ∀ c ∈ m, c ∈ n := by
    intro m n hm _ h c hc
    obtain ⟨a, b⟩ := c
    have hr := Memory.read_of_mem hm hc
    have hb : Memory.read n a ≠ Memory.unlisted := by rw [← h a, hr]; exact hm.2 _ hc
    have := Memory.mem_of_read_ne hb
    rwa [← h a, hr] at this
  have nodup : ∀ {m : Memory}, Memory.wf m → m.Nodup := fun hm =>
    hm.1.imp fun {x y} hxy hEq => by subst hEq; exact absurd hxy (lt_irrefl _)
  have hperm : m.Perm n := (List.perm_ext_iff_of_nodup (nodup hm) (nodup hn)).2 fun c =>
    ⟨mem hm hn h c, mem hn hm (fun a => (h a).symm) c⟩
  exact List.Perm.eq_of_pairwise (fun a b _ _ hab hba => absurd (hab.trans hba) (lt_irrefl _)) hm.1 hn.1 hperm

/-! ### The frame buffer -/

/-- The appended byte is at the old ACC_LEN, and every other frame byte is unchanged. -/
theorem appendByte_frameByte {s : State} (hm : Memory.wf s.frame) (b : Byte) (k : Nat) :
    (s.appendByte b).frameByte k = if k = s.accLen.toNat then b else s.frameByte k := by
  unfold State.frameByte
  rw [appendByte_frame]
  split
  · subst k; exact Memory.read_write_same hm _ _
  · exact Memory.read_write_other _ _ ‹_›

@[simp] theorem frameBytes_length (s : State) : s.frameBytes.length = s.accLen.toNat := by
  simp [State.frameBytes]

theorem frameBytes_getElem? (s : State) {i : Nat} (h : i < s.accLen.toNat) :
    s.frameBytes[i]? = some (s.frameByte i) := by
  simp [State.frameBytes, h]

theorem frameBytes_getD (s : State) {i : Nat} (h : i < s.accLen.toNat) : s.frameBytes.getD i 0 = s.frameByte i := by
  simp [List.getD, frameBytes_getElem? s h]

/-- Appending a byte to the frame buffer appends it to the list of valid bytes. -/
theorem appendByte_frameBytes {s : State} (hm : Memory.wf s.frame) (hl : s.accLen.toNat + 1 < 2 ^ 16) (b : Byte) :
    (s.appendByte b).frameBytes = s.frameBytes ++ [b] := by
  have hlen : (s.appendByte b).accLen.toNat = s.accLen.toNat + 1 := by
    rw [appendByte_accLen, BitVec.toNat_add]
    simp; omega
  unfold State.frameBytes
  rw [hlen, List.range_succ, List.map_append]
  congr 1
  · apply List.map_congr_left
    intro k hk
    rw [appendByte_frameByte hm, if_neg]
    have := List.mem_range.1 hk
    omega
  · simp [appendByte_frameByte hm]

end Sys2Proof.Machine
end

