-- ==== Sys2Proof/Laws/Crc.lean ====
section
/-! SUPPORT. The algebra of the CRC register: a shift is linear over XOR and loses nothing, and what 8 shifts make of one
byte. -/

namespace Sys2Proof.Machine

/-- One shift is linear over XOR. -/
theorem crcShift_xor (a b : Half) : crcShift (a ^^^ b) = crcShift a ^^^ crcShift b := by
  unfold crcShift
  rw [BitVec.getLsbD_xor, BitVec.ushiftRight_xor_distrib]
  cases a.getLsbD 0 <;> cases b.getLsbD 0 <;> simp only [Bool.xor_false, Bool.xor_true, Bool.not_true, Bool.not_false,
    if_true, if_false, Bool.false_eq_true]
  · ac_rfl
  · ac_rfl
  · rw [show a >>> 1 ^^^ crcPoly ^^^ (b >>> 1 ^^^ crcPoly) = a >>> 1 ^^^ b >>> 1 ^^^ (crcPoly ^^^ crcPoly) by ac_rfl]
    simp

@[simp] theorem crcShift_zero : crcShift 0#16 = 0#16 := by decide

/-- A shift loses nothing: only 0 shifts to 0, because the polynomial's top bit is 1. -/
theorem crcShift_eq_zero {a : Half} (h : crcShift a = 0#16) : a = 0#16 := by
  unfold crcShift at h
  split at h
  · have h15 := congrArg (fun x => BitVec.getLsbD x 15) h
    simp [crcPoly] at h15
  · rename_i h0
    ext i hi
    cases i with
    | zero => simpa using h0
    | succ i =>
      have := congrArg (fun x => BitVec.getLsbD x i) h
      simpa [Nat.add_comm 1 i, BitVec.getLsbD_eq_getElem hi] using this

/-- `n` shifts are linear over XOR. -/
theorem crcShifts_xor (n : Nat) (a b : Half) : crcShifts n (a ^^^ b) = crcShifts n a ^^^ crcShifts n b := by
  induction n generalizing a b with
  | zero => rfl
  | succ n ih => simp only [crcShifts, crcShift_xor, ih]

@[simp] theorem crcShifts_zero (n : Nat) : crcShifts n 0#16 = 0#16 := by
  induction n with
  | zero => rfl
  | succ n ih => simp [crcShifts, ih]

/-- `n` shifts lose nothing. -/
theorem crcShifts_eq_zero {n : Nat} {a : Half} (h : crcShifts n a = 0#16) : a = 0#16 := by
  induction n generalizing a with
  | zero => exact h
  | succ n ih => exact crcShift_eq_zero (ih h)

/-- What one byte contributes to the register. -/
theorem crcStep_eq (c : Half) (b : Byte) : crcStep c b = crcShifts 8 c ^^^ crcShifts 8 (b.setWidth 16) :=
  crcShifts_xor 8 c _

/-- A difference in the register is carried on by the shifts alone. -/
theorem crcStep_xor (c d : Half) (b : Byte) : crcStep (c ^^^ d) b = crcStep c b ^^^ crcShifts 8 d := by
  rw [crcStep_eq, crcStep_eq, crcShifts_xor]
  ac_rfl

/-- A difference in the byte changes the register by what that difference contributes. -/
theorem crcStep_xor_byte (c : Half) (b e : Byte) :
    crcStep c (b ^^^ e) = crcStep c b ^^^ crcShifts 8 (e.setWidth 16) := by
  rw [crcStep_eq, crcStep_eq, BitVec.setWidth_xor, crcShifts_xor]
  ac_rfl

/-- A nonzero difference in the register stays nonzero through any bytes. -/
theorem crcFold_xor_ne (bs : List Byte) (c : Half) {d : Half} (hd : d ≠ 0#16) :
    bs.foldl crcStep (c ^^^ d) ≠ bs.foldl crcStep c := by
  induction bs generalizing c d with
  | nil =>
    intro h
    apply hd
    have := congrArg (fun x => c ^^^ x) h
    simpa [← BitVec.xor_assoc] using this
  | cons b bs ih =>
    simp only [List.foldl_cons, crcStep_xor]
    exact ih _ fun h => hd (crcShifts_eq_zero h)

/-- Eight shifts bring the high byte down. -/
theorem crcShifts_highByte : ∀ b : Byte, crcShifts 8 (b.setWidth 16 <<< 8) = b.setWidth 16 := by decide +kernel

/-- A byte whose contribution has a zero high byte is 0. -/
theorem crcShifts_byte_high : ∀ b : Byte, (crcShifts 8 (b.setWidth 16)).extractLsb' 8 8 = 0x00#8 → b = 0x00#8 := by
  decide +kernel

/-- The register after its own low byte was folded in. -/
theorem crcStep_low (c : Half) : crcStep c (crcLow c) = (crcHigh c).setWidth 16 := by
  have h : c ^^^ (crcLow c).setWidth 16 = (crcHigh c).setWidth 16 <<< 8 := by
    apply BitVec.eq_of_getLsbD_eq
    intro i hi
    by_cases h8 : i < 8
    · simp [crcLow, crcHigh, h8, hi]
    · simp [crcLow, crcHigh, h8, hi, show 8 + (i - 8) = i by omega, show i - 8 < 8 by omega]
  rw [crcStep, h, crcShifts_highByte]

/-- The register is 0 after two bytes exactly when they are its transmitted bytes (R113): there is no final XOR. -/
theorem crcStep_two (c : Half) (x y : Byte) :
    crcStep (crcStep c x) y = 0#16 ↔ x = crcLow c ∧ y = crcHigh c := by
  have hx : crcStep c x = (crcHigh c).setWidth 16 ^^^ crcShifts 8 ((x ^^^ crcLow c).setWidth 16) := by
    rw [← crcStep_low, ← crcStep_xor_byte]
    congr 1
    rw [BitVec.xor_comm x, ← BitVec.xor_assoc, BitVec.xor_self, BitVec.zero_xor]
  constructor
  · intro h
    have h0 : crcStep c x ^^^ y.setWidth 16 = 0#16 := crcShifts_eq_zero h
    have h1 : crcStep c x = y.setWidth 16 := by
      have := congrArg (fun z => z ^^^ y.setWidth 16) h0
      simpa [BitVec.xor_assoc] using this
    have h2 : x ^^^ crcLow c = 0x00#8 := by
      apply crcShifts_byte_high
      rw [hx] at h1
      have := congrArg (fun z => BitVec.extractLsb' 8 8 z) h1
      ext i hi
      have hi' := congrArg (fun z => BitVec.getLsbD z i) this
      simpa [hi, BitVec.getLsbD_eq_getElem hi] using hi'
    have h3 : x = crcLow c := by
      have := congrArg (fun z => z ^^^ crcLow c) h2
      simpa [BitVec.xor_assoc] using this
    refine ⟨h3, ?_⟩
    rw [h3, crcStep_low] at h1
    have := congrArg (BitVec.setWidth 8) h1
    simpa using this.symm
  · rintro ⟨rfl, rfl⟩
    rw [crcStep_low, crcStep]
    simp

@[simp] theorem crcFold_append (a b : List Byte) (c : Half) :
    (a ++ b).foldl crcStep c = b.foldl crcStep (a.foldl crcStep c) := List.foldl_append

end Sys2Proof.Machine
end

