-- ==== Sys2Proof/Laws/Decode.lean ====
section
/-! SUPPORT. The small laws of the decoder and the encoder: the fields of a composed command word, the decoder's row for
each opcode, and what a decoded instruction is. -/

namespace Sys2Proof

@[simp] theorem opcOf_commandWord (opc : Byte) (arg : Half) : opcOf (commandWord opc arg) = opc := by
  ext i hi
  simp only [opcOf, commandWord, BitVec.getElem_extractLsb', BitVec.getLsbD_append]
  rw [if_neg (by omega)]
  simp [BitVec.getLsbD_eq_getElem hi]

@[simp] theorem argOf_commandWord (opc : Byte) (arg : Half) : argOf (commandWord opc arg) = arg := by
  ext i hi
  simp only [argOf, commandWord, BitVec.getElem_extractLsb', BitVec.getLsbD_append]
  rw [if_pos (by omega), if_pos (by omega)]
  simp [BitVec.getLsbD_eq_getElem hi]

@[simp] theorem argLow_append (hi lo : Byte) : argLow (hi ++ lo) = lo := by
  ext i h
  rw [argLow, BitVec.getElem_extractLsb', BitVec.getLsbD_append, if_pos (by omega), Nat.zero_add,
    BitVec.getLsbD_eq_getElem h]

@[simp] theorem argHigh_append (hi lo : Byte) : argHigh (hi ++ lo) = hi := by
  ext i h
  rw [argHigh, BitVec.getElem_extractLsb', BitVec.getLsbD_append, if_neg (by omega), Nat.add_sub_cancel_left,
    BitVec.getLsbD_eq_getElem h]

@[simp] theorem argBits_append (c : BitVec 3) : argBits (0x0000#13 ++ c) = c := by
  ext i h
  rw [argBits, BitVec.getElem_extractLsb', BitVec.getLsbD_append, if_pos (by omega), Nat.zero_add,
    BitVec.getLsbD_eq_getElem h]

theorem argLow_argOf (w : Word) : argLow (argOf w) = w.extractLsb' 0 8 := by
  ext i hi; simp [argLow, argOf]

theorem argHigh_argOf (w : Word) : argHigh (argOf w) = w.extractLsb' 8 8 := by
  ext i hi; simp [argHigh, argOf]

theorem argBits_argOf (w : Word) : argBits (argOf w) = w.extractLsb' 0 3 := by
  ext i hi; simp [argBits, argOf]

/-- Every decoded command is well formed: the decoder's last row is reached by exactly the reserved opcodes. -/
theorem decodeCommand_wellFormed (w : Word) : (decodeCommand w).wellFormed = true := by
  unfold decodeCommand
  split <;> try rfl
  rename_i h0 h1 h2 h3 h4 h5 h6 h7 h8 h9 h10 h11 h12 h13 h14
  generalize opcOf w = opc at *
  revert opc
  decide

/-- The response decode, row by row. -/
theorem decodeResponse_cases (reqFc f : Byte) :
    (f = 0x03#8 ∧ decodeResponse reqFc f = .rspFcReadHolding) ∨
    (f = 0x10#8 ∧ decodeResponse reqFc f = .rspFcWriteMultiple) ∨
    (f ≠ 0x03#8 ∧ f ≠ 0x10#8 ∧ f.toNat = reqFc.toNat + 0x80 ∧ decodeResponse reqFc f = .rspFcException f) ∨
    (f ≠ 0x03#8 ∧ f ≠ 0x10#8 ∧ f.toNat ≠ reqFc.toNat + 0x80 ∧ decodeResponse reqFc f = .rspFcOther f) := by
  unfold decodeResponse isExceptionFc
  by_cases h1 : f = 0x03#8
  · simp [h1]
  · by_cases h2 : f = 0x10#8
    · simp [h2]
    · by_cases h3 : f.toNat = reqFc.toNat + 0x80 <;> simp [h1, h2, h3]

/-- A response function code decodes to a well-formed row that its REQ_FC selects. -/
theorem decodeResponse_wellFormed (reqFc f : Byte) :
    (decodeResponse reqFc f).wellFormed = true ∧ (decodeResponse reqFc f).selectedUnder reqFc = true := by
  rcases decodeResponse_cases reqFc f with ⟨-, h⟩ | ⟨-, h⟩ | ⟨-, -, h3, h⟩ | ⟨h1, h2, h3, h⟩ <;> rw [h]
  · exact ⟨rfl, rfl⟩
  · exact ⟨rfl, rfl⟩
  · exact ⟨decide_eq_true (by omega), by simp [Instr.selectedUnder, h3]⟩
  · exact ⟨by simp [Instr.wellFormed, h1, h2], by simp [Instr.selectedUnder, h3]⟩

end Sys2Proof
end

