-- ==== Sys2Proof/Laws/Cycle.lean ====
section
/-! SUPPORT. What each phase of a cycle and a whole step can do, said once: later proofs cite these and do not unfold
`step`, `cycle` or a phase. -/

namespace Sys2Proof.Machine

/-! ### Chaining -/

@[simp] theorem andThen_next (s : State) (f : State → Out) : andThen (.next s) f = f s := rfl
@[simp] theorem andThen_fault (r : Fault) (f : State → Out) : andThen (.fault r) f = .fault r := rfl
@[simp] theorem andThen_refused (r : Refusal) (f : State → Out) : andThen (.refused r) f = .refused r := rfl

theorem andThen_eq_next {o : Out} {f : State → Out} {t : State} :
    andThen o f = .next t ↔ ∃ s, o = .next s ∧ f s = .next t := by
  cases o <;> simp

theorem andThen_eq_fault {o : Out} {f : State → Out} {r : Fault} :
    andThen o f = .fault r ↔ o = .fault r ∨ ∃ s, o = .next s ∧ f s = .fault r := by
  cases o <;> simp

theorem andThen_eq_refused {o : Out} {f : State → Out} {r : Refusal} :
    andThen o f = .refused r ↔ o = .refused r ∨ ∃ s, o = .next s ∧ f s = .refused r := by
  cases o <;> simp

/-! ### Instructions -/

/-- Every instruction answers a next state in every state: the block has no traps (R220). -/
theorem exec_next (i : Instr) (s : State) : ∃ t, exec i s = .next t := by
  cases i <;>
    simp only [exec, execNop, execCrcInit, execCrcByte, execCrcVerify, execFrmClear, execFrmPush, execSetReq, execStart,
      execDoneAck, execValidate, execInit, execClose, execCfgSet, execFlagsClr, execRxClear, execReserved,
      execRspFcReadHolding, execRspFcWriteMultiple, execRspFcException, execRspFcOther] <;>
    (repeat' split) <;> exact ⟨_, rfl⟩

/-- A decoded command word is a command: none of the four response rows. -/
theorem decodeCommand_ne_response (w : Word) :
    decodeCommand w ≠ .rspFcReadHolding ∧ decodeCommand w ≠ .rspFcWriteMultiple ∧
    (∀ f, decodeCommand w ≠ .rspFcException f) ∧ ∀ f, decodeCommand w ≠ .rspFcOther f := by
  unfold decodeCommand
  split <;> simp

/-! ### Phases -/

/-- Phase 1: nothing, or the presented command's meaning in a free block (R51). -/
theorem commandPhase_cases {cmd : Option Word} {s t : State} (h : commandPhase cmd s = .next t) :
    (t = s ∧ (cmd = none ∨ s.busy = true)) ∨
    ∃ w, cmd = some w ∧ s.busy = false ∧ exec (decodeCommand w) s = .next t := by
  unfold commandPhase at h
  split at h
  · exact Or.inl ⟨(Host.Outcome.next.inj h).symm, Or.inl rfl⟩
  · split at h
    · exact Or.inl ⟨(Host.Outcome.next.inj h).symm, Or.inr ‹_›⟩
    · rename_i hb
      exact Or.inr ⟨_, rfl, Bool.eq_false_iff.2 hb, h⟩

/-- Phase 1 always answers a next state. -/
theorem commandPhase_next (cmd : Option Word) (s : State) : ∃ t, commandPhase cmd s = .next t := by
  unfold commandPhase
  split
  · exact ⟨_, rfl⟩
  · split
    · exact ⟨_, rfl⟩
    · exact exec_next _ _

/-- Phase 1 of a busy block (R51). -/
theorem commandPhase_busy {s : State} (cmd : Option Word) (hb : s.busy = true) : commandPhase cmd s = .next s := by
  unfold commandPhase
  split
  · rfl
  · exact if_pos hb

/-- The header step always answers a next state. -/
theorem headerStep_next (s : State) : ∃ t, headerStep s = .next t := by
  unfold headerStep
  split
  · exact exec_next _ _
  · exact ⟨_, rfl⟩

/-- A byte taken always leads to a next state. -/
theorem consumedStep_next (s : State) : ∃ t, consumedStep s = .next t := by
  unfold consumedStep
  split
  · exact headerStep_next s
  all_goals exact ⟨_, rfl⟩

/-- Phase 2: nothing, or one byte moves from the FIFO to the frame and the assembler acts on it (R137). -/
theorem consumePhase_cases {s t : State} (h : consumePhase s = .next t) :
    (t = s ∧ (s.faState.isConsuming = false ∨ s.fifo = [])) ∨
    ∃ b rest, s.faState.isConsuming = true ∧ s.fifo = b :: rest ∧ s.accLen.toNat < s.params.frameMax ∧
      consumedStep (State.appendByte { s with fifo := rest } b) = .next t := by
  unfold consumePhase at h
  split at h
  · rename_i hc
    split at h
    · exact Or.inl ⟨(Host.Outcome.next.inj h).symm, Or.inr ‹_›⟩
    · split at h
      · exact Or.inr ⟨_, _, hc, ‹_›, of_decide_eq_true ‹s.frameHasRoom = true›, h⟩
      · simp at h
  · rename_i hc
    exact Or.inl ⟨(Host.Outcome.next.inj h).symm, Or.inl (Bool.eq_false_iff.2 hc)⟩

/-- Phase 2 when nothing can be consumed. -/
theorem consumePhase_idle {s : State} (h : s.faState.isConsuming = false ∨ s.fifo = []) : consumePhase s = .next s := by
  unfold consumePhase
  rcases h with h | h
  · simp [h]
  · split <;> simp [h]

/-- Phase 2 when a byte can be consumed. -/
theorem consumePhase_byte {s : State} {b : Byte} {rest : List Byte} (hc : s.faState.isConsuming = true)
    (hf : s.fifo = b :: rest) (hr : s.accLen.toNat < s.params.frameMax) :
    consumePhase s = consumedStep (State.appendByte { s with fifo := rest } b) := by
  simp [consumePhase, hc, hf, State.frameHasRoom, hr]

/-- Phase 2 faults only outside the frame buffer. -/
theorem consumePhase_fault {s : State} {r : Fault} (h : consumePhase s = .fault r) :
    s.faState.isConsuming = true ∧ s.params.frameMax ≤ s.accLen.toNat := by
  unfold consumePhase at h
  split at h
  · rename_i hc
    split at h
    · simp at h
    · split at h
      · obtain ⟨t, ht⟩ := consumedStep_next (State.appendByte { s with fifo := ‹List Byte› } ‹Byte›)
        rw [ht] at h; simp at h
      · rename_i hr
        simp only [State.frameHasRoom, decide_eq_true_eq] at hr
        exact ⟨hc, by omega⟩
  · simp at h

/-- Phase 2 refuses nothing. -/
theorem consumePhase_ne_refused (s : State) (r : Refusal) : consumePhase s ≠ .refused r := by
  intro h
  unfold consumePhase at h
  split at h
  · split at h
    · simp at h
    · split at h
      · obtain ⟨t, ht⟩ := consumedStep_next (State.appendByte { s with fifo := ‹List Byte› } ‹Byte›)
        rw [ht] at h; simp at h
      · simp at h
  · simp at h

/-- Phase 3: nothing, a byte pushed, or a byte lost with RXOVR (R136). -/
theorem enqueuePhase_cases (rx : Option Byte) (s : State) :
    (enqueuePhase rx s = s ∧ (rx = none ∨ s.inited = false)) ∨
    (∃ b, rx = some b ∧ s.inited = true ∧ s.fifo.length < s.params.rxqDepth ∧
      enqueuePhase rx s = { s with fifo := s.fifo ++ [b] }) ∨
    (∃ b, rx = some b ∧ s.inited = true ∧ s.params.rxqDepth ≤ s.fifo.length ∧
      enqueuePhase rx s = { s with rxovr := true }) := by
  cases rx with
  | none => exact Or.inl ⟨rfl, Or.inl rfl⟩
  | some b =>
    by_cases hi : s.inited = true
    · by_cases hr : s.fifo.length < s.params.rxqDepth
      · exact Or.inr (Or.inl ⟨b, rfl, hi, hr, by simp [enqueuePhase, hi, State.fifoHasRoom, hr, State.pushFifo]⟩)
      · exact Or.inr (Or.inr ⟨b, rfl, hi, by omega, by simp [enqueuePhase, hi, State.fifoHasRoom, hr]⟩)
    · exact Or.inl ⟨by simp [enqueuePhase, hi], Or.inr (by simpa using hi)⟩

/-- Phase 4: nothing, one tick counted, or the timeout (R149, R150). -/
theorem tickPhase_cases (tick : Bool) (s : State) :
    (tickPhase tick s = s ∧ (tick = false ∨ s.busy = false)) ∨
    (tick = true ∧ s.busy = true ∧ (s.elapsed + 1#16).toNat < s.toEff.toNat ∧
      tickPhase tick s = { s with elapsed := s.elapsed + 1#16 }) ∨
    (tick = true ∧ s.busy = true ∧ s.toEff.toNat ≤ (s.elapsed + 1#16).toNat ∧
      tickPhase tick s = timeOut { s with elapsed := s.elapsed + 1#16 }) := by
  unfold tickPhase
  cases tick
  · simp
  · cases hb : s.busy
    · simp
    · by_cases hle : s.toEff.toNat ≤ (s.elapsed + 1#16).toNat
      · exact Or.inr (Or.inr ⟨rfl, rfl, hle, by simp only [Bool.and_self, if_true, if_pos hle]⟩)
      · exact Or.inr (Or.inl ⟨rfl, rfl, by omega, by simp only [Bool.and_self, if_true, if_neg hle]⟩)

/-! ### A whole step -/

/-- A legal machine's step in a cycle whose read is allowed. -/
theorem step_eq {s : State} (hl : s.params.legal = true) (hr : s.ReadAllowed) :
    step s = if s.nextInput.rst then .next (resetStep s.beginCycle)
      else andThen (commandPhase s.nextInput.cmd s.beginCycle) (afterCommand s.nextInput) := by
  have hl' : s.dropInput.params.legal = true := hl
  simp only [step, cycle, hl', if_true, hr, phases]
  rfl

/-- The step of a cycle without reset. -/
theorem step_eq_phases {s : State} (hl : s.params.legal = true) (hr : s.ReadAllowed) (hrst : s.nextInput.rst = false) :
    step s = andThen (commandPhase s.nextInput.cmd s.beginCycle) (afterCommand s.nextInput) := by
  rw [step_eq hl hr, hrst]; rfl

/-- Illegal parameters get no step (R6). -/
theorem step_illegal {s : State} (hl : s.params.legal = false) : step s = .refused .illegalParams := by
  simp [step, cycle, hl]

/-- A refused read gets no step (R63). -/
theorem step_refusedRead {s : State} {r : HostRead} (hl : s.params.legal = true)
    (hr : s.nextInput.refusedRead = some r) : step s = .refused (.hostRead r) := by
  simp [step, cycle, hl, hr]

/-- Everything a step to a next state can be: the reset step, or the four phases in their order. -/
theorem step_cases {s t : State} (h : step s = .next t) :
    s.params.legal = true ∧ s.ReadAllowed ∧
    ((s.nextInput.rst = true ∧ t = resetStep s.beginCycle) ∨
      (s.nextInput.rst = false ∧ ∃ s1 s2, commandPhase s.nextInput.cmd s.beginCycle = .next s1 ∧
        consumePhase s1 = .next s2 ∧ t = tickPhase s.nextInput.tick (enqueuePhase s.nextInput.rx s2))) := by
  have hl : s.params.legal = true := by
    by_contra hn
    rw [step_illegal (by simpa using hn)] at h; simp at h
  have hr : s.ReadAllowed := by
    cases hc : s.nextInput.refusedRead with
    | none => exact hc
    | some r => rw [step_refusedRead hl hc] at h; simp at h
  refine ⟨hl, hr, ?_⟩
  rw [step_eq hl hr] at h
  cases hrst : s.nextInput.rst
  · simp only [hrst, Bool.false_eq_true, if_false] at h
    obtain ⟨s1, h1, h⟩ := andThen_eq_next.1 h
    obtain ⟨s2, h2, h⟩ := andThen_eq_next.1 h
    exact Or.inr ⟨rfl, s1, s2, h1, h2, (Host.Outcome.next.inj h).symm⟩
  · simp only [hrst, if_true] at h
    exact Or.inl ⟨rfl, (Host.Outcome.next.inj h).symm⟩

/-- A step faults only where the consume event does. -/
theorem step_fault {s : State} {r : Fault} (h : step s = .fault r) :
    s.nextInput.rst = false ∧ ∃ s1, commandPhase s.nextInput.cmd s.beginCycle = .next s1 ∧ consumePhase s1 = .fault r := by
  have hl : s.params.legal = true := by
    by_contra hn
    rw [step_illegal (by simpa using hn)] at h; simp at h
  have hr : s.ReadAllowed := by
    cases hc : s.nextInput.refusedRead with
    | none => exact hc
    | some r => rw [step_refusedRead hl hc] at h; simp at h
  rw [step_eq hl hr] at h
  cases hrst : s.nextInput.rst
  · simp only [hrst, Bool.false_eq_true, if_false] at h
    rcases andThen_eq_fault.1 h with h | ⟨s1, h1, h⟩
    · obtain ⟨t, ht⟩ := commandPhase_next s.nextInput.cmd s.beginCycle
      rw [ht] at h; simp at h
    · rcases andThen_eq_fault.1 h with h | ⟨s2, h2, h⟩
      · exact ⟨rfl, s1, h1, h⟩
      · simp at h
  · simp [hrst] at h

end Sys2Proof.Machine
end

