-- ==== Sys2Proof/Laws/Frames.lean ====
section
/-! SUPPORT. Everything the consume event can do, as one case list, and what each phase of a cycle leaves unchanged. -/

namespace Sys2Proof.Machine

/-- The state after a byte was taken and before the assembler acts on it. -/
def State.takeByte (s : State) (b : Byte) (rest : List Byte) : State := State.appendByte { s with fifo := rest } b

@[simp] theorem takeByte_faState (s : State) (b : Byte) (rest : List Byte) : (s.takeByte b rest).faState = s.faState := rfl
@[simp] theorem takeByte_accLen (s : State) (b : Byte) (rest : List Byte) : (s.takeByte b rest).accLen = s.accLen + 1#16 := rfl
@[simp] theorem takeByte_expLen (s : State) (b : Byte) (rest : List Byte) : (s.takeByte b rest).expLen = s.expLen := rfl
@[simp] theorem takeByte_fifo (s : State) (b : Byte) (rest : List Byte) : (s.takeByte b rest).fifo = rest := rfl
@[simp] theorem takeByte_params (s : State) (b : Byte) (rest : List Byte) : (s.takeByte b rest).params = s.params := rfl
@[simp] theorem takeByte_reqFc (s : State) (b : Byte) (rest : List Byte) : (s.takeByte b rest).reqFc = s.reqFc := rfl
@[simp] theorem takeByte_reqAddr (s : State) (b : Byte) (rest : List Byte) : (s.takeByte b rest).reqAddr = s.reqAddr := rfl
@[simp] theorem takeByte_ufc (s : State) (b : Byte) (rest : List Byte) : (s.takeByte b rest).ufc = s.ufc := rfl
@[simp] theorem takeByte_mm (s : State) (b : Byte) (rest : List Byte) : (s.takeByte b rest).mm = s.mm := rfl

/-- The taken byte is at the old ACC_LEN, and every other frame byte is unchanged. -/
theorem takeByte_frameByte {s : State} (hm : Memory.wf s.frame) (b : Byte) (rest : List Byte) (k : Nat) :
    (s.takeByte b rest).frameByte k = if k = s.accLen.toNat then b else s.frameByte k :=
  appendByte_frameByte (s := { s with fifo := rest }) hm b k

/-- The ways the assembler acts on a byte it has taken, `a` the state with the byte in the frame (R138 to R147). -/
inductive Consumed (a : State) : State → Prop where
  | wait (h : a.faState = .hdr) (hl : a.accLen ≠ 2#16) : Consumed a a
  | row3 (h : a.faState = .hdr) (hl : a.accLen = 2#16) (hf : a.frameByte 1 = 0x03#8) :
      Consumed a { a with faState := .bcnt }
  | row16 (h : a.faState = .hdr) (hl : a.accLen = 2#16) (hf : a.frameByte 1 = 0x10#8) :
      Consumed a { a with expLen := 8#16, faState := .body }
  | rowException (h : a.faState = .hdr) (hl : a.accLen = 2#16)
      (hf : (a.frameByte 1).toNat = a.reqFc.toNat + 0x80) :
      Consumed a { a with expLen := 5#16, faState := .body }
  | rowFailed (h : a.faState = .hdr) (hl : a.accLen = 2#16) (h3 : a.frameByte 1 ≠ 0x03#8)
      (h16 : a.frameByte 1 ≠ 0x10#8) (he : (a.frameByte 1).toNat ≠ a.reqFc.toNat + 0x80) (hu : a.ufc = false) :
      Consumed a (terminate .failed ResultCode.malformedFrame.byte noFrame 0x00#8 a)
  | rowStall (h : a.faState = .hdr) (hl : a.accLen = 2#16) (h3 : a.frameByte 1 ≠ 0x03#8)
      (h16 : a.frameByte 1 ≠ 0x10#8) (he : (a.frameByte 1).toNat ≠ a.reqFc.toNat + 0x80) (hu : a.ufc = true) :
      Consumed a { a with faState := .stall }
  | byteCount (h : a.faState = .bcnt) : Consumed a (byteCountStep a)
  | more (h : a.faState = .body) (hl : a.accLen ≠ a.expLen) : Consumed a a
  | complete (h : a.faState = .body) (hl : a.accLen = a.expLen) (hm : a.headerMatches = true) :
      Consumed a (completeFrame a)
  | restart (h : a.faState = .body) (hl : a.accLen = a.expLen) (hm : a.headerMatches = false) (hmm : a.mm = false) :
      Consumed a { a with accLen := 0#16, expLen := 0#16, faState := .hdr }
  | hold (h : a.faState = .body) (hl : a.accLen = a.expLen) (hm : a.headerMatches = false) (hmm : a.mm = true) :
      Consumed a { a with faState := .stall }

/-- A byte taken is acted on in one of these ways. -/
theorem consumed_of_step {a t : State} (hc : a.faState.isConsuming = true) (h : consumedStep a = .next t) :
    Consumed a t := by
  unfold consumedStep at h
  split at h
  · rename_i hfa
    unfold headerStep at h
    split at h
    · rename_i hl
      rcases decodeResponse_cases a.reqFc (a.frameByte 1) with ⟨h3, hd⟩ | ⟨h16, hd⟩ | ⟨-, -, he, hd⟩ | ⟨h3, h16, he, hd⟩ <;>
        rw [hd] at h
      · exact Host.Outcome.next.inj h ▸ .row3 hfa hl h3
      · exact Host.Outcome.next.inj h ▸ .row16 hfa hl h16
      · exact Host.Outcome.next.inj h ▸ .rowException hfa hl he
      · cases hu : a.ufc
        · simp only [exec, execRspFcOther, hu, Bool.false_eq_true, if_false, Host.Outcome.next.injEq] at h
          exact h ▸ .rowFailed hfa hl h3 h16 he hu
        · simp only [exec, execRspFcOther] at h
          rw [if_pos hu] at h
          exact Host.Outcome.next.inj h ▸ .rowStall hfa hl h3 h16 he hu
    · exact Host.Outcome.next.inj h ▸ .wait hfa ‹_›
  · exact Host.Outcome.next.inj h ▸ .byteCount ‹_›
  · rename_i hfa
    obtain rfl := Host.Outcome.next.inj h
    unfold bodyStep
    split
    · rename_i hl
      cases hm : a.headerMatches
      · cases hmm : a.mm
        · simpa [mismatchFrame, hmm] using Consumed.restart hfa hl hm hmm
        · simpa [mismatchFrame, hmm] using Consumed.hold hfa hl hm hmm
      · exact .complete hfa hl hm
    · exact .more hfa ‹_›
  all_goals simp_all [FaState.isConsuming]

/-- Phase 2: nothing, or a byte is taken and acted on. -/
theorem consumePhase_effect {s t : State} (h : consumePhase s = .next t) :
    (t = s ∧ (s.faState.isConsuming = false ∨ s.fifo = [])) ∨
    ∃ b rest, s.faState.isConsuming = true ∧ s.fifo = b :: rest ∧ s.accLen.toNat < s.params.frameMax ∧
      Consumed (s.takeByte b rest) t := by
  rcases consumePhase_cases h with h | ⟨b, rest, hc, hf, hr, h⟩
  · exact Or.inl h
  · exact Or.inr ⟨b, rest, hc, hf, hr, consumed_of_step hc h⟩

/-! ### Frames -/

/-- What no phase after the command writes. -/
structure AfterFrame (s t : State) : Prop where
  params : t.params = s.params
  inited : t.inited = s.inited
  crcOk : t.crcOk = s.crcOk
  frmovr : t.frmovr = s.frmovr
  illcmd : t.illcmd = s.illcmd
  crc : t.crc = s.crc
  reqAddr : t.reqAddr = s.reqAddr
  reqFc : t.reqFc = s.reqFc
  toEff : t.toEff = s.toEff
  defTimeout : t.defTimeout = s.defTimeout
  discard : t.discard = s.discard
  ufc : t.ufc = s.ufc
  mm : t.mm = s.mm
  ie : t.ie = s.ie
  inputs : t.inputs = s.inputs
  out : t.out = s.out

theorem AfterFrame.refl (s : State) : AfterFrame s s := by constructor <;> rfl

theorem AfterFrame.trans {s t u : State} (h : AfterFrame s t) (h' : AfterFrame t u) : AfterFrame s u := by
  constructor
  · exact h'.params.trans h.params
  · exact h'.inited.trans h.inited
  · exact h'.crcOk.trans h.crcOk
  · exact h'.frmovr.trans h.frmovr
  · exact h'.illcmd.trans h.illcmd
  · exact h'.crc.trans h.crc
  · exact h'.reqAddr.trans h.reqAddr
  · exact h'.reqFc.trans h.reqFc
  · exact h'.toEff.trans h.toEff
  · exact h'.defTimeout.trans h.defTimeout
  · exact h'.discard.trans h.discard
  · exact h'.ufc.trans h.ufc
  · exact h'.mm.trans h.mm
  · exact h'.ie.trans h.ie
  · exact h'.inputs.trans h.inputs
  · exact h'.out.trans h.out

/-- The assembler's action keeps the frame of the phases, and the frame store, the FIFO, the timer and RXOVR. -/
theorem Consumed.frame {a t : State} (h : Consumed a t) :
    AfterFrame a t ∧ t.frame = a.frame ∧ t.fifo = a.fifo ∧ t.elapsed = a.elapsed ∧ t.rxovr = a.rxovr := by
  cases h <;> exact ⟨by constructor <;> rfl, rfl, rfl, rfl, rfl⟩

/-- Phase 2 keeps the frame of the phases, the timer and RXOVR. -/
theorem consumePhase_frame {s t : State} (h : consumePhase s = .next t) :
    AfterFrame s t ∧ t.elapsed = s.elapsed ∧ t.rxovr = s.rxovr := by
  rcases consumePhase_effect h with ⟨rfl, -⟩ | ⟨b, rest, -, -, -, hc⟩
  · exact ⟨.refl _, rfl, rfl⟩
  · obtain ⟨ha, -, -, he, hr⟩ := hc.frame
    exact ⟨AfterFrame.trans (by constructor <;> rfl) ha, he, hr⟩

/-- Phase 3 keeps the frame of the phases and everything else but the FIFO and RXOVR. -/
theorem enqueuePhase_frame (rx : Option Byte) (s : State) :
    AfterFrame s (enqueuePhase rx s) ∧
      enqueuePhase rx s = { s with fifo := (enqueuePhase rx s).fifo, rxovr := (enqueuePhase rx s).rxovr } := by
  rcases enqueuePhase_cases rx s with ⟨h, -⟩ | ⟨b, -, -, -, h⟩ | ⟨b, -, -, -, h⟩ <;> rw [h] <;>
    exact ⟨by constructor <;> rfl, rfl⟩

/-- Phase 4 keeps the frame of the phases, the frame store, the FIFO, the lengths and RXOVR. -/
theorem tickPhase_frame (tick : Bool) (s : State) :
    AfterFrame s (tickPhase tick s) ∧ (tickPhase tick s).frame = s.frame ∧ (tickPhase tick s).fifo = s.fifo ∧
      (tickPhase tick s).accLen = s.accLen ∧ (tickPhase tick s).expLen = s.expLen ∧
      (tickPhase tick s).rxovr = s.rxovr := by
  rcases tickPhase_cases tick s with ⟨h, -⟩ | ⟨-, -, -, h⟩ | ⟨-, -, -, h⟩ <;> rw [h] <;>
    exact ⟨by constructor <;> rfl, rfl, rfl, rfl, rfl, rfl⟩

/-- Phase 4 neither reads nor writes the FIFO and RXOVR. -/
theorem tickPhase_withFifo (tick : Bool) (s : State) (q : List Byte) (r : Bool) :
    tickPhase tick { s with fifo := q, rxovr := r } = { tickPhase tick s with fifo := q, rxovr := r } := by
  unfold tickPhase
  by_cases hb : (tick && s.busy) = true
  · have hb' : (tick && State.busy { s with fifo := q, rxovr := r }) = true := hb
    rw [if_pos hb, if_pos hb']
    by_cases ht : s.toEff.toNat ≤ (s.elapsed + 1#16).toNat
    · simp only [if_pos ht]; rfl
    · simp only [if_neg ht]
  · have hb' : ¬(tick && State.busy { s with fifo := q, rxovr := r }) = true := hb
    rw [if_neg hb, if_neg hb']

/-- The phases after the command. -/
theorem afterCommand_frame {inp : CycleIn} {s t : State} (h : afterCommand inp s = .next t) : AfterFrame s t := by
  obtain ⟨s2, h2, h⟩ := andThen_eq_next.1 h
  obtain rfl := Host.Outcome.next.inj h
  exact (consumePhase_frame h2).1.trans ((enqueuePhase_frame _ _).1.trans (tickPhase_frame _ _).1)

/-- No instruction writes the parameters, the inputs to come or the output ports. -/
theorem exec_frame {i : Instr} {s t : State} (h : exec i s = .next t) :
    t.params = s.params ∧ t.inputs = s.inputs ∧ t.out = s.out := by
  cases i <;>
    simp only [exec, execNop, execCrcInit, execCrcByte, execCrcVerify, execFrmClear, execFrmPush, execSetReq, execStart,
      execDoneAck, execValidate, execInit, execClose, execCfgSet, execFlagsClr, execRxClear, execReserved,
      execRspFcReadHolding, execRspFcWriteMultiple, execRspFcException, execRspFcOther] at h <;>
    (repeat' split at h) <;> obtain rfl := Host.Outcome.next.inj h <;> exact ⟨rfl, rfl, rfl⟩

/-- Phase 1 writes none of these either. -/
theorem commandPhase_frame {cmd : Option Word} {s t : State} (h : commandPhase cmd s = .next t) :
    t.params = s.params ∧ t.inputs = s.inputs ∧ t.out = s.out := by
  rcases commandPhase_cases h with ⟨rfl, -⟩ | ⟨w, -, -, h⟩
  · exact ⟨rfl, rfl, rfl⟩
  · exact exec_frame h

/-- What a step without reset does, with the states between its phases. -/
theorem step_phases {s t : State} (h : step s = .next t) (hrst : s.nextInput.rst = false) :
    s.params.legal = true ∧ s.ReadAllowed ∧ ∃ s1 s2, commandPhase s.nextInput.cmd s.beginCycle = .next s1 ∧
      consumePhase s1 = .next s2 ∧ t = tickPhase s.nextInput.tick (enqueuePhase s.nextInput.rx s2) := by
  obtain ⟨hl, hr, h⟩ := step_cases h
  rcases h with ⟨h, -⟩ | ⟨-, h⟩
  · simp [hrst] at h
  · exact ⟨hl, hr, h⟩

/-- The command a cycle without reset accepts, as its first phase sees it. -/
theorem commandPhase_accepted {s s1 : State} (hrst : s.nextInput.rst = false)
    (h : commandPhase s.nextInput.cmd s.beginCycle = .next s1) :
    (s1 = s.beginCycle ∧ s.accepted = none) ∨
    ∃ w, s.busy = false ∧ s.nextInput.cmd = some w ∧ s.accepted = some (decodeCommand w) ∧
      exec (decodeCommand w) s.beginCycle = .next s1 := by
  rcases commandPhase_cases h with ⟨rfl, hc | hb⟩ | ⟨w, hc, hb, h⟩
  · exact Or.inl ⟨rfl, by simp [State.accepted, hc]⟩
  · have hb' : s.busy = true := hb
    exact Or.inl ⟨rfl, by simp [State.accepted, cmdReady, hb']⟩
  · have hb' : s.busy = false := hb
    exact Or.inr ⟨w, hb', hc, by simp [State.accepted, cmdReady, hrst, hb', hc], h⟩

end Sys2Proof.Machine
end

