-- ==== Sys2Proof/Laws/Invariant.lean ====
section
/-! SUPPORT. The invariant of spec/10_state.md R53, phase by phase: what keeps it and what it gives. -/

namespace Sys2Proof.Machine

/-- The bounds of the legal parameters (R6). -/
theorem legal_bounds {p : Params} (h : p.legal = true) : 260 ≤ p.frameMax ∧ p.frameMax ≤ 768 ∧ 1 ≤ p.rxqDepth ∧ p.rxqDepth ≤ 0x7FFF := by
  simp only [Params.legal, Bool.and_eq_true, decide_eq_true_eq] at h
  exact ⟨h.1.1.1.1.1, h.1.1.1.1.2, h.1.1.1.2, h.1.1.2⟩

/-- No byte is listed outside the frame buffer. -/
theorem frameByte_of_frameMax_le {s : State} (h : s.FrameInv) {a : Nat} (ha : s.params.frameMax ≤ a) : s.frameByte a = 0#8 := by
  by_contra hne
  have := Memory.mem_of_read_ne hne
  have := h.2.1 _ this
  simp at this; omega

/-- A classification's code is one RESULT_CODE may hold (R90, R170). -/
theorem classification_legal (s : State) : resultCodeLegal s.params.recCodes s.classification.1 := by
  unfold State.classification classify decodeExc resultCodeLegal
  (repeat' split) <;> simp_all [ResultCode.byte]

/-- Appending a byte where there is room keeps the frame buffer's invariant. -/
theorem appendByte_frameInv {s : State} (hl : s.params.legal = true) (h : s.FrameInv) (hr : s.accLen.toNat < s.params.frameMax) (b : Byte) : (s.appendByte b).FrameInv := by
  have := legal_bounds hl
  refine ⟨Memory.wf_write h.1 _ _, fun c hc => ?_, ?_⟩
  · rcases Memory.mem_write hc with ⟨rfl, _⟩ | hc
    · exact hr
    · exact h.2.1 c hc
  · rw [appendByte_accLen, appendByte_params]; simp; omega

/-- Outside the busy states the assembler's invariant says nothing. -/
theorem assemblerInv_of_not_busy {s : State} (h : s.busy = false) : s.AssemblerInv := by
  unfold State.busy at h
  refine ⟨fun h' => ?_, fun h' => ?_, fun h' => ?_⟩ <;> (rw [h'] at h; simp [FaState.isBusy] at h)

/-- A state that is not busy meets whatever is asked of busy states. -/
theorem of_false_eq_true {P : Prop} : (false = true) → P := fun h => by cases h
/-- A command accepted by a free block keeps the invariant. -/
theorem exec_command_inv {s t : State} {w : Word} (hi : s.Inv) (hb : s.busy = false) (h : exec (decodeCommand w) s = .next t) : t.Inv := by
  obtain ⟨n1, n2, n3, n4⟩ := decodeCommand_ne_response w
  have hi0 := hi
  obtain ⟨hl, hfr, hff, ht, ha, hres, hbs, hid⟩ := hi
  have := legal_bounds hl
  generalize decodeCommand w = i at *
  cases i <;> simp only [exec, execNop, execCrcInit, execCrcByte, execCrcVerify, execFrmClear, execFrmPush, execSetReq, execStart,
      execDoneAck, execValidate, execInit, execClose, execCfgSet, execFlagsClr, execRxClear, execReserved] at h
  case nop => cases h; exact hi0
  case crcInit => cases h; exact hi0
  case crcByte => cases h; exact hi0
  case crcVerify => cases h; exact hi0
  case frmClear => cases h; exact ⟨hl, ⟨hfr.1, hfr.2.1, Nat.zero_le _⟩, hff, ht, assemblerInv_of_not_busy hb, hres, fun h => absurd (h.symm.trans hb) (by decide), hid⟩
  case frmPush =>
    split at h
    · rename_i hroom
      cases h
      have hroom : s.accLen.toNat < s.params.frameMax := of_decide_eq_true hroom
      exact ⟨hl, appendByte_frameInv hl hfr hroom _, hff, ht, assemblerInv_of_not_busy hb, hres, fun h => absurd (h.symm.trans hb) (by decide), hid⟩
    · cases h; exact hi0
  case setReq => cases h; exact ⟨hl, hfr, hff, ht, assemblerInv_of_not_busy hb, hres, hbs, hid⟩
  case start v =>
    split at h
    · rename_i hin
      split at h
      · cases h
        exact ⟨hl, ⟨hfr.1, hfr.2.1, Nat.zero_le _⟩, hff, ⟨Nat.zero_le _, of_false_eq_true⟩, assemblerInv_of_not_busy rfl, Or.inl (show 0x80#8 ∈ _ by decide), of_false_eq_true, fun h => by cases h⟩
      · rename_i hz
        cases h
        refine ⟨hl, ⟨hfr.1, hfr.2.1, Nat.zero_le _⟩, hff, ⟨Nat.zero_le _, fun _ => ?_⟩, ⟨fun _ => ⟨Nat.zero_le _, rfl⟩, fun h => (by cases h), fun h => (by cases h)⟩, Or.inl (show 0x00#8 ∈ _ by decide), fun _ => ⟨hin, rfl, rfl, rfl, rfl⟩, fun h => (by cases h)⟩
        exact Nat.pos_of_ne_zero fun h => hz (BitVec.eq_of_toNat_eq h)
    · cases h
      exact ⟨hl, ⟨hfr.1, hfr.2.1, Nat.zero_le _⟩, hff, ⟨Nat.zero_le _, of_false_eq_true⟩, assemblerInv_of_not_busy rfl, Or.inl (show 0x84#8 ∈ _ by decide), of_false_eq_true, fun h => by cases h⟩
  case doneAck => cases h; exact ⟨hl, hfr, hff, ht, ha, hres, fun h => absurd (h.symm.trans hb) (by decide), fun _ => rfl⟩
  case validate => cases h; exact ⟨hl, hfr, hff, ht, ha, classification_legal s, fun h => absurd (h.symm.trans hb) (by decide), hid⟩
  case init => 
    split at h
    · cases h; exact hi0
    · cases h; exact ⟨hl, hfr, ⟨hff.1, fun h => by cases h⟩, ht, ha, hres, fun h => absurd (h.symm.trans hb) (by decide), hid⟩
  case close =>
    split at h
    · cases h; exact ⟨hl, hfr, ⟨Nat.zero_le _, fun _ => rfl⟩, ht, ha, hres, fun h => absurd (h.symm.trans hb) (by decide), hid⟩
    · cases h; exact hi0
  case cfgSet => cases h; exact hi0
  case flagsClr => cases h; exact hi0
  case rxClear => cases h; exact ⟨hl, hfr, ⟨Nat.zero_le _, fun _ => rfl⟩, ht, ha, hres, hbs, hid⟩
  case reserved => cases h; exact hi0
  case rspFcReadHolding => exact absurd rfl n1
  case rspFcWriteMultiple => exact absurd rfl n2
  case rspFcException f => exact absurd rfl (n3 f)
  case rspFcOther f => exact absurd rfl (n4 f)

/-- The consume event keeps the invariant. -/
theorem consumePhase_inv {s t : State} (hi : s.Inv) (h0 : consumePhase s = .next t) : t.Inv := by
  rcases consumePhase_effect h0 with ⟨rfl, -⟩ | ⟨b, rest, hcns, hf, hroom, hc⟩
  · exact hi
  clear h0
  have hbz : s.busy = true := by unfold State.busy; cases hx : s.faState <;> rw [hx] at hcns <;> first | rfl | cases hcns
  obtain ⟨hl, hfr, hff, ht, ha, hres, hbs, hid⟩ := hi
  have hB := legal_bounds hl
  have hfr' : (s.takeByte b rest).FrameInv := appendByte_frameInv (s := {s with fifo := rest}) hl hfr hroom b
  have hff' : (s.takeByte b rest).FifoInv := ⟨by have := hff.1; rw [hf] at this; simp at this; simp; omega, fun h => by
    have := hff.2 h; rw [hf] at this; cases this⟩
  have hfb := fun k => takeByte_frameByte hfr.1 b rest k
  have hal : (s.takeByte b rest).accLen.toNat = s.accLen.toNat + 1 := by simp; omega
  have ht1 := ht.2 hbz
  have hbz' := hbs hbz
  have hfn : s.faState ≠ .idle := by intro h; rw [h] at hcns; cases hcns
  generalize ha' : s.takeByte b rest = a at *
  have hpar : a.params = s.params := by rw [← ha']; rfl
  have hst : a.faState = s.faState := by rw [← ha']; rfl
  have hel : a.elapsed = s.elapsed := by rw [← ha']; rfl
  have hte : a.toEff = s.toEff := by rw [← ha']; rfl
  have hexp : a.expLen = s.expLen := by rw [← ha']; rfl
  have hre : a.reqFc = s.reqFc := by rw [← ha']; rfl
  have hresa : a.ResultInv := by rw [← ha']; exact ⟨hres, hbs, hid⟩
  have hta : a.TimerInv := by rw [← ha']; exact ht
  have hla : a.params.legal = true := hpar ▸ hl
  cases hc with
  | wait h hn =>
    have := ha.1 (hst ▸ h)
    refine ⟨hla, hfr', hff', hta, ⟨fun _ => ⟨?_, by rw [hexp]; exact this.2⟩, fun h' => (by rw [h] at h'; cases h'), fun h' => (by rw [h] at h'; cases h')⟩, hresa⟩
    have : t.accLen.toNat ≠ 2 := fun h => hn (BitVec.eq_of_toNat_eq h)
    omega
  | row3 h he hf3 =>
    have := ha.1 (hst ▸ h)
    exact ⟨hla, hfr', hff', ⟨hta.1, fun _ => (show a.elapsed.toNat < a.toEff.toNat by rw [hel, hte]; exact ht1)⟩, ⟨fun h => (by cases h), fun _ => ⟨(show a.accLen.toNat = 2 by rw [he]; rfl), (show a.expLen = _ by rw [hexp]; exact this.2), hf3⟩, fun h => (by cases h)⟩, hresa.1, fun _ => hresa.2.1 (by rw [State.busy, h]; rfl), fun h => (by cases h)⟩
  | row16 h he hf3 =>
    exact ⟨hla, hfr', hff', ⟨hta.1, fun _ => (show a.elapsed.toNat < a.toEff.toNat by rw [hel, hte]; exact ht1)⟩, ⟨fun h => (by cases h), fun h => (by cases h), fun _ => ⟨(show 2 ≤ a.accLen.toNat by rw [he]; decide), (show a.accLen.toNat < 8 by rw [he]; decide), (show 8 ≤ 260 by decide), Or.inr (Or.inl ⟨hf3, rfl⟩)⟩⟩, hresa.1, fun _ => hresa.2.1 (by rw [State.busy, h]; rfl), fun h => (by cases h)⟩
  | rowException h he hf3 =>
    exact ⟨hla, hfr', hff', ⟨hta.1, fun _ => (show a.elapsed.toNat < a.toEff.toNat by rw [hel, hte]; exact ht1)⟩, ⟨fun h => (by cases h), fun h => (by cases h), fun _ => ⟨(show 2 ≤ a.accLen.toNat by rw [he]; decide), (show a.accLen.toNat < 5 by rw [he]; decide), (show 5 ≤ 260 by decide), Or.inr (Or.inr ⟨hf3, rfl⟩)⟩⟩, hresa.1, fun _ => hresa.2.1 (by rw [State.busy, h]; rfl), fun h => (by cases h)⟩
  | rowFailed h he h3 h16 hx hu =>
    exact ⟨hla, hfr', hff', ⟨hta.1, of_false_eq_true⟩, assemblerInv_of_not_busy rfl, Or.inl (show 0x81#8 ∈ _ by decide), of_false_eq_true, fun h => (by cases h)⟩
  | rowStall h he h3 h16 hx hu =>
    exact ⟨hla, hfr', hff', ⟨hta.1, fun _ => (show a.elapsed.toNat < a.toEff.toNat by rw [hel, hte]; exact ht1)⟩, ⟨fun h => (by cases h), fun h => (by cases h), fun h => (by cases h)⟩, hresa.1, fun _ => hresa.2.1 (by rw [State.busy, h]; rfl), fun h => (by cases h)⟩
  | byteCount h =>
    have hb2 := ha.2.1 (hst ▸ h)
    have e : ((5#16 : Half) + (a.frameByte 2).setWidth 16).toNat = 5 + (a.frameByte 2).toNat := by
      have := (a.frameByte 2).isLt
      simp; omega
    refine ⟨hla, hfr', hff', ⟨hta.1, fun _ => by rw [show (byteCountStep a).elapsed = a.elapsed from rfl, show (byteCountStep a).toEff = a.toEff from rfl, hel, hte]; exact ht1⟩, ⟨fun h => (by cases h), fun h => (by cases h), fun _ => ?_⟩, hresa.1, fun _ => hresa.2.1 (by rw [State.busy, h]; rfl), fun h => (by cases h)⟩
    have hacc : a.accLen.toNat = 3 := by omega
    have hlt := (a.frameByte 2).isLt
    have e' : (byteCountStep a).expLen.toNat = 5 + (a.frameByte 2).toNat := e
    have e'' : (byteCountStep a).accLen.toNat = 3 := hacc
    refine ⟨by omega, by omega, by omega, Or.inl ⟨?_, by omega, e⟩⟩
    show a.frameByte 1 = 3#8
    rw [hfb, if_neg (by omega)]; exact hb2.2.2
  | more h hne =>
    have hb3 := ha.2.2 (hst ▸ h)
    have : t.accLen.toNat ≠ t.expLen.toNat := fun h => hne (BitVec.eq_of_toNat_eq h)
    refine ⟨hla, hfr', hff', hta, ⟨fun h' => (by rw [h] at h'; cases h'), fun h' => (by rw [h] at h'; cases h'), fun _ => ⟨by omega, by rw [hexp] at this ⊢; omega, by rw [hexp]; exact hb3.2.2.1, ?_⟩⟩, hresa⟩
    have h1 : t.frameByte 1 = s.frameByte 1 := by rw [hfb, if_neg (by omega)]
    unfold State.BodyBranch
    rw [h1, hexp, hre]
    rcases hb3.2.2.2 with hh | hh | hh
    · refine Or.inl ⟨hh.1, by omega, ?_⟩
      rw [hfb, if_neg (by omega)]; exact hh.2.2
    · exact Or.inr (Or.inl hh)
    · exact Or.inr (Or.inr hh)
  | complete h he hm =>
    exact ⟨hla, hfr', hff', ⟨hta.1, of_false_eq_true⟩, assemblerInv_of_not_busy rfl, classification_legal a, of_false_eq_true, fun h => (by cases h)⟩
  | restart h he hm hmm =>
    exact ⟨hla, ⟨hfr'.1, hfr'.2.1, Nat.zero_le _⟩, hff', ⟨hta.1, fun _ => (show a.elapsed.toNat < a.toEff.toNat by rw [hel, hte]; exact ht1)⟩, ⟨fun _ => ⟨Nat.zero_le _, rfl⟩, fun h => (by cases h), fun h => (by cases h)⟩, hresa.1, fun _ => hresa.2.1 (by rw [State.busy, h]; rfl), fun h => (by cases h)⟩
  | hold h he hm hmm =>
    exact ⟨hla, hfr', hff', ⟨hta.1, fun _ => (show a.elapsed.toNat < a.toEff.toNat by rw [hel, hte]; exact ht1)⟩, ⟨fun h => (by cases h), fun h => (by cases h), fun h => (by cases h)⟩, hresa.1, fun _ => hresa.2.1 (by rw [State.busy, h]; rfl), fun h => (by cases h)⟩

/-- The enqueue event keeps the invariant. -/
theorem enqueuePhase_inv {s : State} (rx : Option Byte) (hi : s.Inv) : (enqueuePhase rx s).Inv := by
  obtain ⟨hl, hfr, hff, ht, ha, hres, hbs, hid⟩ := hi
  rcases enqueuePhase_cases rx s with ⟨h, _⟩ | ⟨b, _, hin, hlt, h⟩ | ⟨b, _, _, _, h⟩ <;> rw [h]
  · exact ⟨hl, hfr, hff, ht, ha, hres, hbs, hid⟩
  · exact ⟨hl, hfr, ⟨by simp; omega, fun h => by rw [hin] at h; cases h⟩, ht, ha, hres, hbs, hid⟩
  · exact ⟨hl, hfr, hff, ht, ha, hres, hbs, hid⟩

/-- The tick event keeps the invariant. -/
theorem tickPhase_inv {s : State} (tick : Bool) (hi : s.Inv) : (tickPhase tick s).Inv := by
  obtain ⟨hl, hfr, hff, ht, ha, hres, hbs, hid⟩ := hi
  rcases tickPhase_cases tick s with ⟨h, _⟩ | ⟨_, hb, hlt, h⟩ | ⟨_, hb, hle, h⟩ <;> rw [h]
  · exact ⟨hl, hfr, hff, ht, ha, hres, hbs, hid⟩
  · exact ⟨hl, hfr, hff, ⟨le_of_lt hlt, fun _ => hlt⟩, ha, hres, hbs, hid⟩
  · refine ⟨hl, hfr, hff, ⟨?_, of_false_eq_true⟩, assemblerInv_of_not_busy rfl, Or.inl (show 0x80#8 ∈ _ by decide), of_false_eq_true, fun h => by cases h⟩
    have := ht.2 hb
    have := s.toEff.isLt
    show (s.elapsed + 1#16).toNat ≤ s.toEff.toNat
    simp; omega

end Sys2Proof.Machine
end

