-- ==== Sys2Proof/Laws/PerInstr.lean ====
section
/-! SUPPORT. The families of LAWS.json, one lemma for each constructor of Instr. `RsvZero`: the encoder writes the RSV
field of a command word as 0, and the function-code rows are single bytes, not command words (spec/30_encoding.md R80,
R82, R91). -/

namespace Sys2Proof.Laws.RsvZero

/-- RSV = word[23:16] is 0 in a command word the encoder writes; a response row is encoded by one byte. -/
def Statement (i : Instr) : Prop :=
  match encode i with
  | .cmd32 w => w.extractLsb' 16 8 = 0x00#8
  | .rxFc8 f => f = 0x03#8 ∨ f = 0x10#8 ∨ i = .rspFcException f ∨ i = .rspFcOther f

/-- The RSV field of a composed command word. -/
theorem commandWord_rsv (opc : Byte) (arg : Half) : (commandWord opc arg).extractLsb' 16 8 = 0x00#8 := by
  ext i hi
  simp only [commandWord, BitVec.getElem_extractLsb', BitVec.getLsbD_append]
  rw [if_pos (by omega), if_neg (by omega)]
  simp

theorem nop : Statement .nop := commandWord_rsv _ _
theorem crcInit : Statement .crcInit := commandWord_rsv _ _
theorem crcByte (b : Byte) : Statement (.crcByte b) := commandWord_rsv _ _
theorem crcVerify : Statement .crcVerify := commandWord_rsv _ _
theorem frmClear : Statement .frmClear := commandWord_rsv _ _
theorem frmPush (b : Byte) : Statement (.frmPush b) := commandWord_rsv _ _
theorem setReq (addr fc : Byte) : Statement (.setReq addr fc) := commandWord_rsv _ _
theorem start (t : Half) : Statement (.start t) := commandWord_rsv _ _
theorem doneAck : Statement .doneAck := commandWord_rsv _ _
theorem validate : Statement .validate := commandWord_rsv _ _
theorem init (d : Half) : Statement (.init d) := commandWord_rsv _ _
theorem close : Statement .close := commandWord_rsv _ _
theorem cfgSet (cfg : BitVec 3) : Statement (.cfgSet cfg) := commandWord_rsv _ _
theorem flagsClr (clr : BitVec 3) : Statement (.flagsClr clr) := commandWord_rsv _ _
theorem rxClear : Statement .rxClear := commandWord_rsv _ _
theorem reserved (opc : Byte) : Statement (.reserved opc) := commandWord_rsv _ _
theorem rspFcReadHolding : Statement .rspFcReadHolding := Or.inl rfl
theorem rspFcWriteMultiple : Statement .rspFcWriteMultiple := Or.inr (Or.inl rfl)
theorem rspFcException (f : Byte) : Statement (.rspFcException f) := Or.inr (Or.inr (Or.inl rfl))
theorem rspFcOther (f : Byte) : Statement (.rspFcOther f) := Or.inr (Or.inr (Or.inr rfl))

end Sys2Proof.Laws.RsvZero
end

