-- ==== Sys2Proof/Laws/Run.lean ====
section
/-! SUPPORT. Runs, one step at a time. -/

namespace Sys2Proof.Machine

@[simp] theorem runFor_zero (s : State) : runFor 0 s = .next s := rfl

theorem runFor_succ (k : Nat) (s : State) : runFor (k + 1) s = andThen (step s) (runFor k) := by
  have h : Sys2Proof.core.step s = step s := rfl
  unfold runFor
  simp only [Host.Core.run, h]
  cases step s <;> rfl

/-- A run is its first part and then the rest. -/
theorem runFor_add (j k : Nat) (s : State) : runFor (j + k) s = andThen (runFor j s) (runFor k) := by
  induction j generalizing s with
  | zero => simp
  | succ j ih =>
    rw [Nat.succ_add, runFor_succ, runFor_succ]
    cases step s with
    | next t => simp [ih]
    | fault r => rfl
    | refused r => rfl

@[simp] theorem runInputs_nil (s : State) : runInputs [] s = .next { s with inputs := [] } := rfl

/-- A step takes one cycle of inputs and leaves the others. -/
theorem step_inputs {s t : State} (h : step s = .next t) : t.inputs = s.inputs.tail := by
  obtain ⟨-, -, ⟨-, rfl⟩ | ⟨-, s1, s2, h1, h2, rfl⟩⟩ := step_cases h
  · rfl
  · rw [(tickPhase_frame _ _).1.inputs, (enqueuePhase_frame _ _).1.inputs, (consumePhase_frame h2).1.inputs,
      (commandPhase_frame h1).2.1]
    rfl

/-- A run over inputs, step by step. -/
theorem runInputs_cons (x : CycleIn) (xs : List CycleIn) (s : State) :
    runInputs (x :: xs) s = andThen (step { s with inputs := x :: xs }) (runInputs xs) := by
  unfold runInputs
  rw [List.length_cons, runFor_succ]
  cases h : step { s with inputs := x :: xs } with
  | next t =>
    have ht : t.inputs = xs := step_inputs h
    simp [← ht]
  | fault r => rfl
  | refused r => rfl

end Sys2Proof.Machine
end

