-- ==== Sys2Proof/Laws/Window.lean ====
section
/-! SUPPORT. The register window: what an allowed read answers, and the words of its gap and of its frame bytes. -/

namespace Sys2Proof.Machine

/-- An aligned 4-byte read answers the word at its offset (R62). -/
theorem hostRead_four (s : State) {a : BitVec 10} (h : a.toNat % 4 = 0) :
    s.hostRead { addr := a, size := 4#3 } = some (s.windowWord a.toNat) := by
  simp [State.hostRead, HostRead.refused, h]

/-- A 1-byte read answers the byte of the word that holds it (R62, R64). -/
theorem hostRead_one (s : State) (a : BitVec 10) :
    s.hostRead { addr := a, size := 1#3 } =
      some ((wordByte (s.windowWord (a.toNat - a.toNat % 4)) (a.toNat % 4)).setWidth 32) := by
  simp [State.hostRead, HostRead.refused]

/-- From 0x100 the window holds the frame (R65). -/
theorem windowWord_frame (s : State) {o : Nat} (h : 0x100 ≤ o) : s.windowWord o = s.frameWord (o - 0x100) := by
  unfold State.windowWord
  split <;> first | omega | exact if_pos h

/-- Between the last register and the frame the window reads 0 (R61). -/
theorem windowWord_gap (s : State) {o : Nat} (h : 0x02C ≤ o) (h' : o < 0x100) : s.windowWord o = 0#32 := by
  unfold State.windowWord
  split <;> first | omega | exact if_neg (by omega)

/-- Byte k of a frame word is the k-th of its four frame bytes, the first-received lowest (R65). -/
theorem wordByte_frameWord (s : State) (i : Nat) {k : Nat} (h : k < 4) :
    wordByte (s.frameWord i) k = s.windowFrameByte (i + k) := by
  have h4 : k = 0 ∨ k = 1 ∨ k = 2 ∨ k = 3 := by omega
  unfold State.frameWord wordByte
  apply BitVec.eq_of_getLsbD_eq
  intro j hj
  rcases h4 with rfl | rfl | rfl | rfl <;>
    simp only [BitVec.getLsbD_extractLsb', BitVec.getLsbD_append, hj, decide_true, Bool.true_and] <;>
    (repeat' split) <;> first | omega | (congr 1; omega)

end Sys2Proof.Machine
end

