-- ==== Sys2Proof/Tests/Slice0.lean ====
section
/-! SUPPORT. The model's own tests: WellFormed refuses ill-formed terms, words written out from spec/30_encoding.md decode
to what they stand for, one or two single steps for each instruction with results from spec/95_test_vectors.md, and for
every obligation with hypotheses a witness that meets them. -/

namespace Sys2Proof.Tests

open Sys2Proof Sys2Proof.Machine

/-! ### WellFormed refuses ill-formed terms -/

/-- 0x00 is NOP's opcode and 0x50 RX_CLEAR's: neither is reserved (R83, R84). -/
theorem test_wellFormed_reserved_refuses_assigned :
    (Instr.reserved 0x00#8).wellFormed = false ∧ (Instr.reserved 0x50#8).wellFormed = false := by decide

/-- No byte below 0x80 is REQ_FC + 0x80 (R91, R92). -/
theorem test_wellFormed_exception_refuses_low : (Instr.rspFcException 0x7F#8).wellFormed = false := by decide

/-- 0x03 and 0x10 take their own rows (R91). -/
theorem test_wellFormed_other_refuses_known :
    (Instr.rspFcOther 0x03#8).wellFormed = false ∧ (Instr.rspFcOther 0x10#8).wellFormed = false := by decide

/-- The selection by REQ_FC refuses the exception row under another request, and row 4 for the exception byte. -/
theorem test_selectedUnder_refuses :
    (Instr.rspFcException 0x83#8).selectedUnder 0x10#8 = false ∧
    (Instr.rspFcOther 0x83#8).selectedUnder 0x03#8 = false := by decide

/-! ### Decoding: the words of 95_test_vectors.md 2.1, and OPC, RSV, ARG written out bit by bit (R80, R83) -/

theorem test_decode_nop : decodeTableWord 32 0b00000000_00000000_0000000000000000 = some .nop := by decide
theorem test_decode_crcInit : decodeTableWord 32 0b00000001_00000000_0000000000000000 = some .crcInit := by decide
theorem test_decode_crcByte : decodeTableWord 32 0b00000010_00000000_00000000_00010000 = some (.crcByte 0x10#8) := by
  decide
theorem test_decode_crcVerify : decodeTableWord 32 0b00000011_00000000_0000000000000000 = some .crcVerify := by decide
theorem test_decode_frmClear : decodeTableWord 32 0b00010000_00000000_0000000000000000 = some .frmClear := by decide
theorem test_decode_frmPush : decodeTableWord 32 0b00010001_00000000_00000000_10011011 = some (.frmPush 0x9B#8) := by
  decide
theorem test_decode_setReq :
    decodeTableWord 32 0b00100000_00000000_00010000_00010001 = some (.setReq 0x11#8 0x10#8) := by decide
theorem test_decode_start : decodeTableWord 32 0b00100001_00000000_1111111111111111 = some (.start 0xFFFF#16) := by
  decide
theorem test_decode_doneAck : decodeTableWord 32 0b00100010_00000000_0000000000000000 = some .doneAck := by decide
theorem test_decode_validate : decodeTableWord 32 0b00110000_00000000_0000000000000000 = some .validate := by decide
theorem test_decode_init : decodeTableWord 32 0b01000000_00000000_0000000111110100 = some (.init 500#16) := by decide
theorem test_decode_close : decodeTableWord 32 0b01000001_00000000_0000000000000000 = some .close := by decide
theorem test_decode_cfgSet : decodeTableWord 32 0b01000010_00000000_0000000000000_101 = some (.cfgSet 5#3) := by decide
theorem test_decode_flagsClr : decodeTableWord 32 0b01000011_00000000_0000000000000_100 = some (.flagsClr 4#3) := by
  decide
theorem test_decode_rxClear : decodeTableWord 32 0b01010000_00000000_0000000000000000 = some .rxClear := by decide
theorem test_decode_reserved : decodeTableWord 32 0b00000100_00000000_0001001000110100 = some (.reserved 0x04#8) := by
  decide
theorem test_decode_readHolding : decodeTableWord 8 0b00000011 = some .rspFcReadHolding := by decide
theorem test_decode_writeMultiple : decodeTableWord 8 0b00010000 = some .rspFcWriteMultiple := by decide
theorem test_decode_exception :
    decodeTableWord 8 0b10000000 = some (.rspFcException 0x80#8) ∧
    decodeResponse 0x03#8 0b10000011#8 = .rspFcException 0x83#8 := by decide
theorem test_decode_other : decodeTableWord 8 0b00000100 = some (.rspFcOther 0x04#8) := by decide

/-- RSV and unused ARG bits are ignored (2.1, the corner cases). -/
theorem test_decode_ignored_bits :
    decodeCommand 0x0200FF01#32 = .crcByte 0x01#8 ∧ decodeCommand 0x02AB0001#32 = .crcByte 0x01#8 ∧
    decodeCommand 0x4200FFFF#32 = .cfgSet 7#3 ∧ decodeCommand 0xFF000000#32 = .reserved 0xFF#8 ∧
    decodeCommand 0x23000000#32 = .reserved 0x23#8 := by decide

/-- The other words of 2.1. -/
theorem test_decode_more_words :
    decodeCommand 0x20000301#32 = .setReq 0x01#8 0x03#8 ∧ decodeCommand 0x21000064#32 = .start 100#16 ∧
    decodeCommand 0x42000001#32 = .cfgSet 1#3 ∧ decodeCommand 0x42000002#32 = .cfgSet 2#3 ∧
    decodeCommand 0x43000001#32 = .flagsClr 1#3 := by decide

/-- Only 32 and 8 bits are encodings. -/
theorem test_decode_other_lengths : decodeTableWord 16 0x0300 = none ∧ decodeTableWord 0 0 = none := by decide

/-- The encoder writes the words of 2.1. -/
theorem test_encode_words :
    encode (.frmPush 0x9B#8) = .cmd32 0x1100009B#32 ∧ encode (.setReq 0x11#8 0x10#8) = .cmd32 0x20001011#32 ∧
    encode (.init 500#16) = .cmd32 0x400001F4#32 ∧ encode (.cfgSet 5#3) = .cmd32 0x42000005#32 ∧
    encode .rxClear = .cmd32 0x50000000#32 ∧ encode (.rspFcException 0x83#8) = .rxFc8 0x83#8 := by decide

/-! ### The CRC and the validator: rows of 2.2, 2.3 and 2.5 -/

theorem test_crc16_check_value :
    crc16 [0x31#8, 0x32#8, 0x33#8, 0x34#8, 0x35#8, 0x36#8, 0x37#8, 0x38#8, 0x39#8] = 0x4B37#16 := by decide +kernel

theorem test_crc_one_step_shift_by_shift :
    crcStep 0xFFFF#16 0x01#8 = 0x807E#16 ∧ crcShifts 2 0xFFFE#16 = 0x9FFE#16 ∧ crcShifts 4 0xFFFE#16 = 0x87FE#16 := by
  decide

theorem test_verify_byte_order :
    verify [0x01#8, 0x03#8, 0x00#8, 0x00#8, 0x00#8, 0x01#8, 0x84#8, 0x0A#8] = true ∧
    verify [0x01#8, 0x03#8, 0x00#8, 0x00#8, 0x00#8, 0x01#8, 0x0A#8, 0x84#8] = false := by decide +kernel

theorem test_classify_exception_codes :
    classify Params.block.recCodes 0x03#8 [0x01#8, 0x83#8, 0x02#8, 0xC0#8, 0xF1#8] = (0x02#8, 0x02#8) ∧
    classify Params.block.recCodes 0x03#8 [0x01#8, 0x83#8, 0x07#8, 0x00#8, 0xF2#8] = (0xFF#8, 0x07#8) ∧
    classify Params.block.recCodes 0x03#8 [0x01#8, 0x83#8, 0x41#8, 0x81#8] = (0xFF#8, 0x41#8) := by decide +kernel

theorem test_classify_order :
    classify Params.block.recCodes 0x03#8 [0x01#8, 0x83#8, 0x02#8] = (0x83#8, 0x00#8) ∧
    classify Params.block.recCodes 0x03#8 [0x01#8, 0x83#8, 0x02#8, 0xC0#8, 0xF0#8] = (0x82#8, 0x00#8) ∧
    classify Params.block.recCodes 0x83#8 [0x01#8, 0x03#8, 0x02#8, 0x00#8, 0x2A#8, 0x39#8, 0x9B#8] = (0x00#8, 0x00#8) := by
  decide +kernel

/-! ### States for the tests -/

/-- A field of an outcome's next state. -/
def after {α : Type} (o : Out) (f : State → α) : Option α :=
  match o with
  | .next t => some (f t)
  | .fault _ => none
  | .refused _ => none

/-- `INIT 500` from reset. -/
def opened : State := { State.reset with inited := true }

/-- The block in a state, with the inputs of the next cycles. -/
def given (s : State) (inputs : List CycleIn) : State := { s with inputs := inputs }

/-- The block in a state, with these bytes in the FIFO. -/
def queued (s : State) (bs : List Byte) : State := { s with fifo := bs }

/-- The block in a state, after so many ticks. -/
def ticked (s : State) (n : Half) : State := { s with elapsed := n }

/-- The block in a state, under MM = 1. -/
def holding (s : State) : State := { s with mm := true }

def tickIn : CycleIn := { CycleIn.idle with tick := true }
def rstIn : CycleIn := { CycleIn.idle with rst := true }
def rxIn (b : Byte) : CycleIn := { CycleIn.idle with rx := some b }
def readIn (a : BitVec 10) (n : BitVec 3) : CycleIn := { CycleIn.idle with read := some { addr := a, size := n } }

/-- `SET_REQ 0x01, 0x03`, `START 10`: the assembler awaits the address byte. -/
def inHdr : State := { opened with faState := .hdr, toEff := 10#16, reqAddr := 0x01#8, reqFc := 0x03#8 }

/-- The same under `SET_REQ 0x01, 0x10`. -/
def inHdrWrite : State := { inHdr with reqFc := 0x10#8 }

/-- After the address byte: the function code comes next. -/
def inHdr1 : State := { inHdr with frame := [(0, 0x01#8)], accLen := 1#16 }

/-- After `01 03`: the byte count comes next. -/
def inBcnt : State := { inHdr with faState := .bcnt, frame := [(0, 0x01#8), (1, 0x03#8)], accLen := 2#16 }

/-- After `01 03 02 00 2A 39`: one byte is missing. -/
def inBody : State :=
  { inHdr with
    faState := .body, accLen := 6#16, expLen := 7#16
    frame := [(0, 0x01#8), (1, 0x03#8), (2, 0x02#8), (4, 0x2A#8), (5, 0x39#8)] }

/-- After `01 03 02 00 2A`. -/
def inBody5 : State := { inBody with frame := [(0, 0x01#8), (1, 0x03#8), (2, 0x02#8), (4, 0x2A#8)], accLen := 5#16 }

/-- After `01 83 02 C0`: one byte of an exception frame is missing. -/
def inException : State :=
  { inHdr with
    faState := .body, accLen := 4#16, expLen := 5#16
    frame := [(0, 0x01#8), (1, 0x83#8), (2, 0x02#8), (3, 0xC0#8)] }

/-- An exception frame held under MM = 1. -/
def inStall : State :=
  { inHdr with
    faState := .stall, accLen := 5#16, expLen := 5#16, mm := true
    frame := [(0, 0x01#8), (1, 0x83#8), (2, 0x02#8), (3, 0xC0#8), (4, 0xF1#8)] }

/-- The end of P2, but for IE. -/
def completed : State :=
  { opened with
    faState := .complete, done := true, toEff := 500#16, reqAddr := 0x01#8, reqFc := 0x03#8
    accLen := 7#16, expLen := 7#16, resultLen := 7#16
    frame := [(0, 0x01#8), (1, 0x03#8), (2, 0x02#8), (4, 0x2A#8), (5, 0x39#8), (6, 0x9B#8)] }

/-- The same with another byte past ACC_LEN. -/
def completedStale : State := { completed with frame := completed.frame ++ [(9, 0x55#8)] }

/-- The end of `START 0`. -/
def ended : State := { opened with faState := .timedOut, done := true, resultCode := 0x80#8, resultLen := 0xFFFF#16 }

/-- Parameters with the smallest FIFO. -/
def smallFifo : Params := { Params.block with rxqDepth := 1 }

/-- The next step after a command word is placed where it is fetched. -/
def ran (s : State) (w : Nat) : Out := step (s.withFetchWord 32 w)

/-- The next step after a response function code is placed where it is fetched. -/
def ranFc (s : State) (f : Nat) : Out := step (s.withFetchWord 8 f)

/-! ### Single steps -/

theorem test_nop : after (ran State.reset 0x00000000) (fun t => (t.statusWord, t.crc, t.defTimeout)) =
    some (0#32, 0xFFFF#16, 500#16) := by decide

theorem test_crcInit : after (ran { State.reset with crc := 0x807E#16 } 0x01000000) State.crc = some 0xFFFF#16 := by
  decide

/-- P1, cycle 2. -/
theorem test_crcByte : after (ran State.reset 0x02000010) State.crc = some 0x8CBE#16 := by decide

/-- 2.4: folding in a frame's own CRC gives 0. -/
theorem test_crcByte_own_crc :
    after (ran { State.reset with crc := crcStep 0x5E01#16 0x01#8 } 0x0200005E) State.crc = some 0x0000#16 := by
  decide +kernel

/-- 2.4: VERIFY FF FF. -/
theorem test_crcVerify :
    after (ran { State.reset with frame := [(0, 0xFF#8), (1, 0xFF#8)], accLen := 2#16 } 0x03000000)
      (fun t => (t.statusWord, t.crc)) = some (0x080#32, 0xFFFF#16) := by decide

/-- 2.4: VERIFY 01. -/
theorem test_crcVerify_short :
    after (ran { State.reset with frame := [(0, 0x01#8)], accLen := 1#16, crcOk := true } 0x03000000) State.crcOk =
      some false := by decide

/-- 2.4: FRM_CLEAR keeps CRC_OK. -/
theorem test_frmClear :
    after (ran { completed with crcOk := true } 0x10000000)
      (fun t => (t.accLen, t.expLen, t.crcOk, t.windowWord 0x100)) = some (0#16, 0#16, true, 0#32) := by decide

theorem test_frmPush :
    after (ran completed 0x1100009C) (fun t => (t.accLen, t.frameByte 7, t.frameByte 6, t.frmovr)) =
      some (8#16, 0x9C#8, 0x9B#8, false) := by decide

/-- 2.8: the 261st FRM_PUSH. -/
theorem test_frmPush_full :
    after (ran { State.reset with accLen := 260#16 } 0x11000000) (fun t => (t.accLen, t.frmovr)) =
      some (260#16, true) := by decide

theorem test_setReq : after (ran State.reset 0x20001011) (fun t => (t.reqAddr, t.reqFc)) =
    some (0x11#8, 0x10#8) := by decide

/-- E4: START 3, DONE dropped and the results cleared. -/
theorem test_start :
    after (ran completed 0x21000003)
      (fun t => (t.faState, t.toEff, t.elapsed, t.done, t.resultLen)) =
      some (.hdr, 3#16, 0#16, false, 0#16) := by decide

/-- 2.7: START 0 before INIT is NOT_INITIALIZED, and P5's STATUS. -/
theorem test_start_not_initialised :
    after (ran State.reset 0x21000000) (fun t => (t.statusWord, t.resultCode, t.resultLen)) =
      some (0x47#32, 0x84#8, 0xFFFF#16) := by decide

/-- 2.7: DONE_ACK after a timeout under IE. -/
theorem test_doneAck :
    after (ran { ended with ie := true } 0x22000000) (fun t => (t.statusWord, t.resultCode)) =
      some (0x26#32, 0x80#8) := by decide

/-- P3: the held exception frame is classified. -/
theorem test_validate :
    after (ran { inStall with faState := .timedOut, resultLen := 0xFFFF#16 } 0x30000000)
      (fun t => (t.windowWord 0x008, t.windowWord 0x020)) = some (0x00000202#32, 0x00020005#32) := by decide +kernel

theorem test_validate_empty :
    after (ran { State.reset with resultLen := 9#16 } 0x30000000) (fun t => (t.resultCode, t.resultLen, t.done)) =
      some (0x83#8, 0#16, false) := by decide

theorem test_init : after (ran State.reset 0x40000005) (fun t => (t.inited, t.defTimeout)) = some (true, 5#16) := by
  decide

/-- E6: the second INIT. -/
theorem test_init_again : after (ran opened 0x40000064) (fun t => (t.inited, t.defTimeout)) = some (true, 500#16) := by
  decide

/-- 2.8: CLOSE drops the queued bytes and keeps DEF_TIMEOUT. -/
theorem test_close :
    after (ran { opened with fifo := [0x01#8, 0x02#8, 0x03#8] } 0x41000000)
      (fun t => (t.inited, t.rxCount, t.defTimeout)) = some (false, 0#16, 500#16) := by decide

/-- 2.8: CFG_SET 0xFFFF. -/
theorem test_cfgSet : after (ran State.reset 0x4200FFFF) (fun t => t.windowWord 0x028) = some 0x00000007#32 := by decide

/-- 2.1: CFG_SET IE. -/
theorem test_cfgSet_ie : after (ran completed 0x42000004) State.statusWord = some 0x865#32 := by decide

/-- 2.8: FLAGS_CLR 2 keeps ILLCMD. -/
theorem test_flagsClr_keeps : after (ran { opened with illcmd := true } 0x43000002) State.statusWord = some 0x420#32 := by
  decide

/-- 2.8: FLAGS_CLR 4 clears it. -/
theorem test_flagsClr_clears : after (ran { opened with illcmd := true } 0x43000004) State.statusWord = some 0x020#32 := by
  decide

/-- P4: three bytes drained. -/
theorem test_rxClear :
    after (ran { opened with fifo := [0x02#8, 0x00#8, 0x2A#8] } 0x50000000) (fun t => t.windowWord 0x024) =
      some 0x00030000#32 := by decide

/-- 2.8: a second RX_CLEAR. -/
theorem test_rxClear_empty : after (ran opened 0x50000000) State.discard = some 0xFFFF#16 := by decide

/-- 2.1: a reserved opcode. -/
theorem test_reserved : after (ran opened 0xFF000000) State.statusWord = some 0x420#32 := by decide

/-- 2.6: the branches of the header, each as the first step after reset but for CFG. -/
theorem test_rspFcReadHolding :
    after (ranFc State.reset 0x03) (fun t => (t.faState, t.accLen, t.expLen, t.frameByte 1)) =
      some (.bcnt, 2#16, 0#16, 0x03#8) := by decide

theorem test_rspFcWriteMultiple :
    after (ranFc State.reset 0x10) (fun t => (t.faState, t.accLen, t.expLen)) = some (.body, 2#16, 8#16) := by decide

theorem test_rspFcException :
    after (ranFc State.reset 0x80) (fun t => (t.faState, t.accLen, t.expLen)) = some (.body, 2#16, 5#16) := by decide

/-- P4: an unknown function code under UFC = 0. -/
theorem test_rspFcOther :
    after (ranFc State.reset 0x04) (fun t => (t.faState, t.resultCode, t.resultLen, t.done)) =
      some (.failed, 0x81#8, 0xFFFF#16, true) := by decide

/-- 2.7: the same under UFC = 1. -/
theorem test_rspFcOther_stall :
    after (ranFc { State.reset with ufc := true } 0x04) (fun t => (t.faState, t.done)) = some (.stall, false) := by decide

/-! ### Events -/

/-- 2.8: a byte while not initialised. -/
theorem test_enqueue_closed : after (step (given State.reset [rxIn 0x01#8])) State.fifo = some [] := by decide

/-- P2, cycle 13: the last byte completes the frame. -/
theorem test_complete :
    after (step { inBody with fifo := [0x9B#8] })
      (fun t => (t.faState, t.resultCode, t.windowWord 0x01C, t.windowWord 0x020)) =
      some (.complete, 0x00#8, 0x00070007#32, 0x00040007#32) := by decide +kernel

/-- 2.6: `01 03 FF` gives the largest frame. -/
theorem test_byte_count :
    after (step { inBcnt with fifo := [0xFF#8] }) (fun t => (t.faState, t.accLen, t.expLen)) =
      some (.body, 3#16, 260#16) := by decide

/-- E4: the third tick. -/
theorem test_timeout :
    after (step (given { inHdr with toEff := 3#16, elapsed := 2#16 } [tickIn]))
      (fun t => (t.faState, t.elapsed, t.resultCode, t.resultLen, t.done)) =
      some (.timedOut, 3#16, 0x80#8, 0xFFFF#16, true) := by decide

/-- 2.7: START 1 in a cycle with a tick times out in that cycle. -/
theorem test_start_with_tick :
    after (step (given opened [{ tickIn with cmd := some 0x21000001#32 }])) (fun t => (t.faState, t.elapsed)) =
      some (.timedOut, 1#16) := by decide

/-- 2.10: a reset cycle does not execute the command it carries. -/
theorem test_reset_cycle :
    after (step (given inBody [{ rstIn with cmd := some 0x02000001#32 }]))
      (fun t => (t.faState, t.crc, t.out.cmdReady, t.accLen)) = some (.idle, 0xFFFF#16, false, 0#16) := by decide

/-- 2.9: the window after P2. -/
theorem test_window_reads :
    after (step (given { completed with ie := true } [readIn 0x104#10 4#3])) (fun t => t.out.rdData) =
      some (some 0x009B392A#32) ∧
    after (step (given { completed with ie := true } [readIn 0x005#10 1#3])) (fun t => t.out.rdData) =
      some (some 0x08#32) := by decide

/-- P2: the payload. -/
theorem test_payload : completed.payload = [0x03#8, 0x02#8, 0x00#8, 0x2A#8] := by decide

/-- 2.7: a timeout of 10 ticks of 1 ms, and R259's count for a host that needs at least 500 ms. -/
theorem test_timeout_ms :
    Params.block.minTimeoutMs 10 = 9 ∧ Params.block.maxTimeoutMs 10 = 10 ∧ Params.block.ticksForAtLeast 500 = 501 := by
  decide

/-! ### The text of a program (R86, R87) -/

theorem test_parse_setReq : parseLine "SET_REQ 0x01, 0x03".toList = .ok (.command (.setReq 0x01#8 0x03#8)) := rfl
theorem test_parse_flags : parseLine "CFG_SET IE|UFC".toList = .ok (.command (.cfgSet 5#3)) := rfl
theorem test_parse_default : parseLine "START DEFAULT".toList = .ok (.pseudo .startDefault) := rfl
theorem test_parse_rx : parseLine "@rx 01 83".toList = .ok (.rx [0x01#8, 0x83#8]) := rfl
theorem test_parse_comment : parseLine "; a comment".toList = .ok .comment := rfl
theorem test_parse_unknown : parseLine "HALT".toList = .error .unknownMnemonic := rfl

/-- P1's words. -/
theorem test_expand_crcOf :
    (Line.pseudo (.crcOf [0x10#8, 0x03#8])).cycles =
      [CycleIn.ofCommand 0x01000000#32, CycleIn.ofCommand 0x02000010#32, CycleIn.ofCommand 0x02000003#32] := by decide

/-! ### Witnesses: for every obligation with hypotheses, states and operands that meet them -/

/-- The free block holds a word on the command port. -/
def freeCmd : State := given opened [CycleIn.ofCommand 0x00000000#32]

/-- A busy block holds a word on the command port. -/
def busyCmd : State := given inBody [CycleIn.ofCommand 0x02000001#32]

theorem witness_ResetCycleGivesResetState :
    (given inBody [rstIn]).params.legal = true ∧ (given inBody [rstIn]).ReadAllowed ∧
    (given inBody [rstIn]).nextInput.rst = true := by decide

theorem witness_IllegalParametersAreRejected :
    Params.block.legal = true ∧ Params.legal { Params.block with frameMax := 768, rxqDepth := 0x7FFF } = true ∧
    State.params { State.reset with params := { Params.block with frameMax := 259 } } =
      { Params.block with frameMax := 259 } ∧
    Params.legal { Params.block with frameMax := 259 } = false ∧ Params.legal { Params.block with rxqDepth := 0 } = false ∧
    Params.legal { Params.block with recCodes := [1, 2] } = false ∧
    Params.legal { Params.block with tickMs := 0 } = false := by decide

/-- Each state of FA_STATE, the frame bytes at both ends, and the ends of the two ranges that read 0. -/
theorem witness_WindowWordsPackTheFields :
    State.reset.faState = .idle ∧ inHdr.faState = .hdr ∧ inBcnt.faState = .bcnt ∧ inBody.faState = .body ∧
    inStall.faState = .stall ∧ completed.faState = .complete ∧ ended.faState = .timedOut ∧
    State.faState { opened with faState := .failed } = .failed ∧
    (0 < completed.params.frameMax ∧ 0 < 768 ∧ 0 < completed.accLen.toNat) ∧
    (259 < completed.params.frameMax ∧ ¬259 < completed.accLen.toNat) ∧
    (0x02C ≤ (0x02C#10).toNat ∧ (0x02C#10).toNat < 0x100) ∧ ((0x0FF#10).toNat < 0x100) ∧
    0x100 + completed.params.frameMax ≤ (0x204#10).toNat ∧ 0x100 + completed.params.frameMax ≤ (0x3FF#10).toNat ∧
    (0x02C#10).toNat % 4 = 0 ∧ (0x0FC#10).toNat % 4 = 0 ∧ (0x204#10).toNat % 4 = 0 ∧ (0x3FC#10).toNat % 4 = 0 ∧
    completed.params.legal = true ∧ (queued completed [0x01#8]).FifoInv ∧
    4 ≤ (4#16).toInt ∧ 4 ≤ (0x7FFF#16).toInt ∧ (3#16).toInt < 4 ∧ (0xFFFF#16).toInt < 4 := by decide

theorem witness_FrameWordReadsFourBytes :
    completed.accLen.toNat ≤ completed.params.frameMax ∧ 0 < 192 ∧ 191 < 192 ∧ 0 < 4 ∧ 3 < 4 ∧
    (0 < completed.params.frameMax ∧ 259 < completed.params.frameMax ∧ 259 < 768) ∧
    4 * 1 + 2 < completed.accLen.toNat ∧ ¬4 * 1 + 3 < completed.accLen.toNat := by decide

theorem witness_HostReadSizesAndAlignment :
    completed.params.legal = true ∧
    (given completed [readIn 0x002#10 4#3]).nextInput.read = some { addr := 0x002#10, size := 4#3 } ∧
    (4#3 = 4#3 ∧ (0x002#10).toNat % 4 ≠ 0) ∧ (2#3 ≠ 1#3 ∧ 2#3 ≠ 4#3) ∧
    ¬((1#3 ≠ 1#3 ∧ 1#3 ≠ 4#3) ∨ (1#3 = 4#3 ∧ (0x3FF#10).toNat % 4 ≠ 0)) := by decide

theorem witness_HostReadsHaveNoSideEffect :
    (given inBody [readIn 0x004#10 4#3]).inputs = readIn 0x004#10 4#3 :: [] ∧
    (readIn 0x004#10 4#3).refusedRead = none ∧ (∃ t, step (given inBody [readIn 0x004#10 4#3]) = .next t) ∧
    (∃ t, step (given inBody [{ readIn 0x004#10 4#3 with read := none }]) = .next t) ∧
    completed.params.legal = true ∧ completed.ReadAllowed ∧ completed.nextInput.rst = false ∧ completed.accepted = none ∧
    completed.faState.isConsuming = false ∧ completed.nextInput.rx = none ∧ completed.nextInput.tick = false ∧
    (inBody.faState.isConsuming = true ∧ inBody.fifo = [] ∧ inBody.accepted = none) :=
  ⟨rfl, rfl, ⟨_, rfl⟩, ⟨_, rfl⟩, by decide⟩

theorem witness_OutputPortsShowStartOfCycle :
    ∃ t, step (given completed [readIn 0x004#10 4#3]) = .next t ∧ t.out.rdData = some 0x65#32 := ⟨_, rfl, by decide⟩

theorem witness_StepRunsThePresentedCommand :
    freeCmd.params.legal = true ∧ freeCmd.ReadAllowed ∧ freeCmd.nextInput.rst = false ∧ freeCmd.busy = false ∧
    freeCmd.nextInput.cmd = some 0x00000000#32 := by decide

theorem witness_StepRunsTheResponseFunctionCode :
    (queued inHdr1 [0x03#8, 0x02#8]).Inv ∧ inHdr1.ReadAllowed ∧ inHdr1.nextInput.rst = false ∧
    inHdr1.faState = .hdr ∧ inHdr1.accLen = 1#16 := by
  and_intros <;> decide

theorem witness_HeldCommandsDoNothing :
    busyCmd.inputs = CycleIn.ofCommand 0x02000001#32 :: [] ∧ busyCmd.busy = true ∧
    (CycleIn.ofCommand 0x02000001#32).rst = false ∧ freeCmd.inputs = CycleIn.ofCommand 0x00000000#32 :: [] ∧
    freeCmd.busy = false := by decide

theorem witness_ArrivingByteWaitsOneCycle :
    (given inBody [CycleIn.idle]).inputs = CycleIn.idle :: [] ∧ CycleIn.idle.rst = false ∧
    ∃ t, step (given inBody [CycleIn.idle]) = .next t := ⟨rfl, rfl, _, rfl⟩

/-- A command, a reserved opcode, and rows 3 and 4 of the response decode at both ends of row 3. -/
theorem witness_DecodeInvertsEncode :
    (Instr.setReq 0xFF#8 0x00#8).wellFormed = true ∧ (Instr.setReq 0xFF#8 0x00#8).selectedUnder 0x03#8 = true ∧
    (Instr.reserved 0xFF#8).wellFormed = true ∧ (Instr.reserved 0xFF#8).selectedUnder 0x03#8 = true ∧
    (Instr.rspFcException 0x80#8).wellFormed = true ∧ (Instr.rspFcException 0x80#8).selectedUnder 0x00#8 = true ∧
    (Instr.rspFcException 0xFF#8).selectedUnder 0x7F#8 = true ∧
    (Instr.rspFcOther 0x83#8).wellFormed = true ∧ (Instr.rspFcOther 0x83#8).selectedUnder 0x83#8 = true := by decide

theorem witness_IgnoredBitsDoNotMatter :
    opcOf 0x0200FF01#32 = opcOf 0x02AB0001#32 ∧
    0x0200FF01#32 &&& usedBits (opcOf 0x0200FF01#32) = 0x02AB0001#32 &&& usedBits (opcOf 0x0200FF01#32) ∧
    isReservedOpc (opcOf 0x0200FF01#32) = false ∧ encode (decodeCommand 0x0200FF01#32) = .cmd32 0x02000001#32 := by decide

theorem witness_ReservedOpcodesOnlySetIllcmd :
    isReservedOpc 0x04#8 = true ∧ isReservedOpc 0xFF#8 = true ∧ decodeCommand 0xFF000000#32 = .reserved 0xFF#8 ∧
    opcOf 0xFF000000#32 = 0xFF#8 ∧ inBody.busy = true := by decide

theorem witness_ResponseFunctionCodeRows :
    0x80 ≤ (0x80#8).toNat ∧ (0x7F#8).toNat ≤ 0x7F ∧ (0xFF#8).toNat = (0x7F#8).toNat + 0x80 ∧
    4 ≤ [0x01#8, 0x83#8, 0x41#8, 0x81#8].length ∧ verify [0x01#8, 0x83#8, 0x41#8, 0x81#8] = true ∧
    decodeResponse 0x03#8 ([0x01#8, 0x83#8, 0x41#8, 0x81#8].getD 1 0#8) = .rspFcException 0x83#8 ∧
    decodeResponse 0x10#8 ([0x01#8, 0x83#8, 0x41#8, 0x81#8].getD 1 0#8) ≠ .rspFcException 0x83#8 := by decide +kernel

/-- For each opcode of a command: a word of that opcode, and a busy block to hold it. -/
theorem witness_command_words :
    opcOf 0x00FFFFFF#32 = 0x00#8 ∧ opcOf 0x01000000#32 = 0x01#8 ∧ opcOf 0x02000010#32 = 0x02#8 ∧
    opcOf 0x03000000#32 = 0x03#8 ∧ opcOf 0x10000000#32 = 0x10#8 ∧ opcOf 0x1100009B#32 = 0x11#8 ∧
    opcOf 0x20001011#32 = 0x20#8 ∧ opcOf 0x2100FFFF#32 = 0x21#8 ∧ opcOf 0x22000000#32 = 0x22#8 ∧
    opcOf 0x30000000#32 = 0x30#8 ∧ opcOf 0x400001F4#32 = 0x40#8 ∧ opcOf 0x41000000#32 = 0x41#8 ∧
    opcOf 0x42000005#32 = 0x42#8 ∧ opcOf 0x43000004#32 = 0x43#8 ∧ opcOf 0x50000000#32 = 0x50#8 ∧ inBody.busy = true := by
  decide

theorem witness_CrcRegisterCommands : opcOf 0x02000010#32 = 0x02#8 ∧ opcOf 0x01000000#32 = 0x01#8 ∧ inBody.busy = true := by
  decide

theorem witness_CrcVerifyChecksTheFrame :
    opcOf 0x03000000#32 = 0x03#8 ∧ inHdr1.accLen.toNat < 2 ∧
    State.frameBytes { State.reset with frame := [(0, 0xFF#8), (1, 0xFF#8)], accLen := 2#16 } = [0xFF#8, 0xFF#8] ∧
    completed.FreshComplete ∧
    (completed.resultCode, completed.excRaw) =
      classify completed.params.recCodes completed.reqFc completed.frameBytes := by
  decide +kernel

theorem witness_CrcRoundTripAndSingleBitErrors :
    0 < ([] : List Byte).length + 2 ∧ 0 < 8 ∧ 1 < ([] : List Byte).length + 2 ∧ 7 < 8 ∧
    flipBit [0xFF#8, 0xFF#8] 0 0 = [0xFE#8, 0xFF#8] := by decide

theorem witness_VerifyIsZeroResidue :
    2 ≤ [0xFF#8, 0xFF#8].length ∧ [0xFF#8].length < 2 ∧ verify [0xFF#8, 0xFF#8] = true := by decide

theorem witness_OnlyCrcCommandsTouchTheCrcRegister :
    (∃ t, step (given opened [CycleIn.ofCommand 0x02000001#32]) = .next t ∧
      t.crc ≠ (given opened [CycleIn.ofCommand 0x02000001#32]).crc) ∧
    freeCmd.nextInput.rst = false ∧ freeCmd.nextInput.read = none ∧ freeCmd.accepted = some .nop ∧
    (∃ t, step freeCmd = .next t) :=
  ⟨⟨_, rfl, by decide⟩, by decide, by decide, by decide, _, rfl⟩

theorem witness_ClassifyDecidesInOrder :
    [0x01#8, 0x83#8, 0x02#8].length < 4 ∧ 4 ≤ [0x01#8, 0x83#8, 0x41#8, 0x81#8].length ∧
    verify [0x01#8, 0x83#8, 0x41#8, 0x80#8] = false ∧ verify [0x01#8, 0x83#8, 0x41#8, 0x81#8] = true ∧
    ([0x01#8, 0x83#8, 0x41#8, 0x81#8].getD 1 0#8).toNat = (0x03#8).toNat + 0x80 ∧
    ([0x01#8, 0x83#8, 0x41#8, 0x81#8].getD 1 0#8).toNat ≠ (0x10#8).toNat + 0x80 ∧
    0x0B#8 ∈ Params.block.recCodes ∧ 0x07#8 ∉ Params.block.recCodes ∧
    (0x01#8).toNat ∈ [1, 2, 3, 4, 5, 6, 8, 10, 11] ∧ (0x0B#8).toNat ∈ [1, 2, 3, 4, 5, 6, 8, 10, 11] ∧
    (0x07#8).toNat ∉ [1, 2, 3, 4, 5, 6, 8, 10, 11] ∧ (0x09#8).toNat ∉ [1, 2, 3, 4, 5, 6, 8, 10, 11] ∧
    (0x00#8).toNat ∉ [1, 2, 3, 4, 5, 6, 8, 10, 11] ∧ (0x0C#8).toNat ∉ [1, 2, 3, 4, 5, 6, 8, 10, 11] := by decide +kernel

theorem witness_ClassifyNeverReturnsAssemblerCodes : Params.block.legal = true := by decide

theorem witness_ValidateClassifiesTheFrame : opcOf 0x30000000#32 = 0x30#8 ∧ State.reset.accLen = 0#16 := by decide

theorem witness_ExceptionFrameIsDecodedByValidate :
    inStall.reqFc.toNat ≤ 0x7F ∧ inStall.frameBytes = withCrc [0x01#8, inStall.reqFc + 0x80#8, 0x02#8] := by decide +kernel

theorem witness_NopChangesNothing : opcOf 0x00000000#32 = 0x00#8 ∧ inBody.busy = true := by decide

theorem witness_FrmClearEmptiesTheFrame : opcOf 0x10000000#32 = 0x10#8 ∧ inBody.busy = true := by decide

/-- Room for the last byte, and none left. -/
theorem witness_FrmPushAppendsOrFlags :
    opcOf 0x1100009B#32 = 0x11#8 ∧ Memory.wf completed.frame ∧
    State.accLen { completed with accLen := 259#16 } = 259#16 ∧ (259#16).toNat < completed.params.frameMax ∧
    completed.params.frameMax ≤ (260#16).toNat := by decide

theorem witness_InitIsIdempotent : opcOf 0x400001F4#32 = 0x40#8 ∧ State.reset.inited = false ∧ opened.inited = true := by
  decide

theorem witness_CloseReleasesOnce : opcOf 0x41000000#32 = 0x41#8 ∧ opened.inited = true ∧ State.reset.inited = false := by
  decide

theorem witness_CfgSetWritesThePolicies : opcOf 0x42000005#32 = 0x42#8 ∧ inBody.busy = true := by decide

theorem witness_FlagsClrClearsTheNamedFlags : opcOf 0x43000004#32 = 0x43#8 ∧ inBody.busy = true := by decide

theorem witness_RxClearCountsTheDiscarded :
    opcOf 0x50000000#32 = 0x50#8 ∧ opened.fifo = [] ∧ opened.inited = true ∧ opened.params.legal = true ∧
    (queued opened [0x02#8]).FifoInv ∧ [0x02#8] ≠ [] := by decide

theorem witness_SetReqLatchesTheRequest : opcOf 0x20001011#32 = 0x20#8 ∧ inBody.busy = true := by decide

/-- INITED = 0; an effective timeout of 0 by operand and by default; the sentinel and the largest operand below it. -/
theorem witness_StartBeginsOrEndsAtOnce :
    opcOf 0x2100FFFF#32 = 0x21#8 ∧ State.reset.inited = false ∧ opened.inited = true ∧
    (if (0#16 : Half) = 0xFFFF#16 then opened.defTimeout else 0#16) = 0#16 ∧
    (if (0xFFFF#16 : Half) = 0xFFFF#16 then State.defTimeout { opened with defTimeout := 0#16 } else 0xFFFF#16) = 0#16 ∧
    (if (0xFFFF#16 : Half) = 0xFFFF#16 then opened.defTimeout else 0xFFFF#16) ≠ 0#16 ∧
    (if (0xFFFE#16 : Half) = 0xFFFF#16 then opened.defTimeout else 0xFFFE#16) ≠ 0#16 := by decide

theorem witness_DoneAckDropsOnlyDone : opcOf 0x22000000#32 = 0x22#8 ∧ inBody.busy = true := by decide

/-- The exception row at both ends of its range, its neighbours, and both values of UFC. -/
theorem witness_ResponseRowEffects :
    (0x83#8).toNat = inHdr1.reqFc.toNat + 0x80 ∧ (0x80#8).toNat = State.reset.reqFc.toNat + 0x80 ∧
    (0xFF#8).toNat = (State.reqFc { inHdr1 with reqFc := 0x7F#8 }).toNat + 0x80 ∧
    (0x82#8 ≠ 0x03#8 ∧ 0x82#8 ≠ 0x10#8 ∧ (0x82#8).toNat ≠ inHdr1.reqFc.toNat + 0x80) ∧
    inHdr1.ufc = false ∧ State.ufc { inHdr1 with ufc := true } = true := by decide

/-- Closed; room for one; full. -/
theorem witness_EnqueueDropsPushesOrFlags :
    State.reset.inited = false ∧ opened.inited = true ∧
    State.fifo { opened with params := smallFifo } = [] ∧ ([] : List Byte).length < smallFifo.rxqDepth ∧
    smallFifo.rxqDepth ≤ [0x01#8].length := by decide

/-- STALL; the first byte; BCNT; BODY with more to come; the last byte with a matching header; and with a differing one under each MM. -/
theorem witness_ConsumeBuildsTheFrame :
    (queued inStall [0x01#8]).Inv ∧ inStall.faState.isConsuming = false ∧
    (queued inHdr [0x01#8]).Inv ∧ inHdr.faState = .hdr ∧ inHdr.accLen = 0#16 ∧
    (queued inBcnt [0x02#8]).Inv ∧ inBcnt.faState = .bcnt ∧
    (queued inBody [0x9B#8]).Inv ∧ inBody.faState = .body ∧ inBody.accLen + 1#16 = inBody.expLen ∧
    inBody.frameByte 0 = inBody.reqAddr ∧ inBody.frameByte 1 = inBody.reqFc ∧
    (queued inBody5 [0x39#8]).Inv ∧ inBody5.accLen + 1#16 ≠ inBody5.expLen ∧
    (queued inException [0xF1#8]).Inv ∧ inException.accLen + 1#16 = inException.expLen ∧
    inException.frameByte 1 ≠ inException.reqFc ∧ inException.mm = false ∧
    (holding (queued inException [0xF1#8])).Inv := by
  and_intros <;> decide

/-- A cycle in which STALL stays, and the one that times it out. -/
theorem witness_StallConsumesNothing :
    (queued inStall [0x01#8]).Inv ∧ inStall.faState = .stall ∧ inStall.nextInput.rst = false ∧
    (∃ t, step (queued inStall [0x01#8]) = .next t ∧ t.faState = .stall) ∧
    State.Inv (given (ticked inStall 9#16) [tickIn]) ∧
    (∃ t, step (given (ticked inStall 9#16) [tickIn]) = .next t ∧ t.faState = .timedOut) :=
  ⟨by decide, rfl, rfl, ⟨_, rfl, rfl⟩, by decide, _, rfl, rfl⟩

/-- Below the deadline, and at it. -/
theorem witness_TickCountsAndTimesOut :
    (ticked inHdr 8#16).Inv ∧ inHdr.busy = true ∧ 8 + 1 < inHdr.toEff.toNat ∧
    (ticked inHdr 9#16).Inv ∧ inHdr.toEff.toNat ≤ 9 + 1 ∧ opened.Inv ∧ opened.busy = false := by
  and_intros <;> decide

theorem witness_FaStateTransitions :
    freeCmd.busy = false ∧ (∃ t, commandPhase (some 0x00000000#32) freeCmd = .next t) ∧ opcOf 0x00000000#32 ≠ 0x21#8 ∧
    (∃ t, commandPhase (some 0x2100FFFF#32) freeCmd = .next t) ∧ opcOf 0x2100FFFF#32 = 0x21#8 ∧
    (queued inBody [0x9B#8]).Inv ∧ (∃ t, consumePhase (queued inBody [0x9B#8]) = .next t) ∧
    (given inBody [rstIn]).nextInput.rst = true ∧ (∃ t, step (given inBody [rstIn]) = .next t) :=
  ⟨rfl, ⟨_, rfl⟩, by decide, ⟨_, rfl⟩, by decide, by decide, ⟨_, rfl⟩, rfl, _, rfl⟩

/-- The byte that fills the frame, under MM = 0. -/
theorem witness_ExceptionResponseNeverCompletes :
    (queued inException [0xF1#8]).Inv ∧ inException.faState = .body ∧
    (inException.frameByte 1).toNat = inException.reqFc.toNat + 0x80 ∧ inException.nextInput.rst = false ∧
    inException.accLen = 4#16 ∧ [0xF1#8] ≠ [] ∧
    (∃ t, step (queued inException [0xF1#8]) = .next t ∧ t.faState = .hdr) :=
  ⟨by decide, rfl, by decide, rfl, rfl, by decide, _, rfl, rfl⟩

/-- Log 21: under UFC = 0 an unknown function code after the dropped exception frame ends the transaction FAILED (R142). -/
theorem test_failed_after_dropped_exception :
    after (runInputs (List.replicate 3 CycleIn.idle) (queued inException [0xF1#8, 0x01#8, 0x04#8]))
      (fun t => (t.faState, t.resultCode)) = some (.failed, 0x81#8) := by decide

theorem witness_CompletionIsClassified :
    (queued inBody [0x9B#8]).Inv ∧ inBody.busy = true ∧
    ∃ t, step (queued inBody [0x9B#8]) = .next t ∧ t.faState = .complete := ⟨by decide, rfl, _, rfl, rfl⟩

/-- The cycle that ends without a frame; a later cycle; and a later cycle of a completed frame. -/
theorem witness_ResultsStayUntilOverwritten :
    State.Inv (given (ticked inHdr 9#16) [tickIn]) ∧ (given inHdr [tickIn]).nextInput.rst = false ∧
    inHdr.busy = true ∧
    (∃ t, step (given (ticked inHdr 9#16) [tickIn]) = .next t ∧ t.faState = .timedOut) ∧
    (∃ t, step (given State.reset [CycleIn.ofCommand 0x21000064#32]) = .next t ∧ t.faState = .failed) ∧
    (given State.reset [CycleIn.ofCommand 0x21000064#32]).accepted = some (.start 100#16) ∧
    ended.FreshNoFrame ∧ (given ended [CycleIn.ofCommand 0x10000000#32]).accepted = some .frmClear ∧
    (∃ t, step (given ended [CycleIn.ofCommand 0x10000000#32]) = .next t) ∧
    completed.FreshComplete ∧ (given completed [CycleIn.ofCommand 0x03000000#32]).accepted = some .crcVerify ∧
    (∃ t, step (given completed [CycleIn.ofCommand 0x03000000#32]) = .next t) :=
  ⟨by decide, rfl, rfl, ⟨_, rfl, rfl⟩, ⟨_, rfl, rfl⟩, by decide, by decide, by decide, ⟨_, rfl⟩, by decide, by decide,
    _, rfl⟩

/-- The cycle that breaks R53 to the letter: SET_REQ is accepted in COMPLETE (log 14). -/
theorem witness_CompletedFrameStaysToTheLetter :
    (given completed [CycleIn.ofCommand 0x20000302#32]).Inv ∧
    (given completed [CycleIn.ofCommand 0x20000302#32]).FreshComplete ∧
    (given completed [CycleIn.ofCommand 0x20000302#32]).nextInput.rst = false ∧
    (given completed [CycleIn.ofCommand 0x20000302#32]).accepted = some (.setReq 0x02#8 0x03#8) ∧
    ∃ t, step (given completed [CycleIn.ofCommand 0x20000302#32]) = .next t ∧ t.frameByte 0 ≠ t.reqAddr :=
  ⟨by decide, by decide, rfl, by decide, _, rfl, by decide⟩

theorem witness_DoneRisesOncePerTransaction :
    (queued inBody [0x9B#8]).Inv ∧ inBody.nextInput.rst = false ∧ inBody.busy = true ∧
    (∃ t, step (queued inBody [0x9B#8]) = .next t) ∧
    (given opened [CycleIn.ofCommand 0x21000000#32]).Inv ∧
    (given opened [CycleIn.ofCommand 0x21000000#32]).accepted = some (.start 0#16) ∧
    (∃ t, step (given opened [CycleIn.ofCommand 0x21000000#32]) = .next t ∧ t.done = true) ∧
    (given completed [CycleIn.ofCommand 0x22000000#32]).Inv ∧ completed.busy = false ∧
    (given completed [CycleIn.ofCommand 0x22000000#32]).accepted = some .doneAck ∧
    (∃ t, step (given completed [CycleIn.ofCommand 0x22000000#32]) = .next t) :=
  ⟨by decide, rfl, rfl, ⟨_, rfl⟩, by decide, by decide, ⟨_, rfl, rfl⟩, by decide, rfl, by decide, _, rfl⟩

/-- The deadline cycle of a last byte, of an unknown function code, and of a START that ends at once for each reason. -/
theorem witness_ByteWorkBeatsTheDeadline :
    (given (ticked (queued inBody [0x9B#8]) 9#16) [tickIn]).Inv ∧ (given inBody [tickIn]).ReadAllowed ∧
    (given inBody [tickIn]).nextInput.rst = false ∧ inBody.accLen.toNat + 1 = inBody.expLen.toNat ∧
    inBody.frameByte 0 = inBody.reqAddr ∧ inBody.frameByte 1 = inBody.reqFc ∧ (given inBody [tickIn]).nextInput.tick = true ∧
    (given (ticked (queued inHdr1 [0x04#8]) 9#16) [tickIn]).Inv ∧ inHdr1.faState = .hdr ∧ inHdr1.accLen = 1#16 ∧
    (0x04#8).toNat ≠ inHdr1.reqFc.toNat + 0x80 ∧ inHdr1.ufc = false ∧
    (given opened [{ tickIn with cmd := some 0x21000000#32 }]).Inv ∧
    (given opened [{ tickIn with cmd := some 0x21000000#32 }]).accepted = some (.start 0#16) ∧
    (given State.reset [{ tickIn with cmd := some 0x21000005#32 }]).Inv ∧
    (given State.reset [{ tickIn with cmd := some 0x21000005#32 }]).accepted = some (.start 5#16) ∧
    State.reset.inited = false := by
  and_intros <;> decide

/-- For each field, a cycle that changes it. -/
theorem witness_OnlyTheNamedCommandsWrite :
    after (ran opened 0x20001011) (fun t => (t.reqAddr, t.reqFc)) ≠ some (opened.reqAddr, opened.reqFc) ∧
    after (ran opened 0x21000003) State.toEff ≠ some opened.toEff ∧
    after (ran State.reset 0x40000005) State.defTimeout ≠ some State.reset.defTimeout ∧
    after (ran opened 0x41000000) State.inited ≠ some opened.inited ∧
    after (ran { opened with crcOk := true } 0x03000000) State.crcOk ≠ some true ∧
    after (ran opened 0x50000000) State.discard ≠ some opened.discard ∧
    after (ran opened 0x42000007) (fun t => (t.ufc, t.mm, t.ie)) = some (true, true, true) ∧
    after (ran opened 0xFF000000) State.illcmd = some true ∧
    after (ran { opened with illcmd := true } 0x43000004) State.illcmd = some false ∧
    after (ran { opened with accLen := 260#16 } 0x11000000) State.frmovr = some true ∧
    after (step (given { opened with params := smallFifo, fifo := [0x01#8] } [rxIn 0x02#8])) State.rxovr = some true ∧
    after (ran { opened with rxovr := true } 0x43000001) State.rxovr = some false := by decide

theorem witness_TerminationIsPreciseAndFinal :
    FaState.complete.isTerminal = true ∧ FaState.timedOut.isTerminal = true ∧ FaState.failed.isTerminal = true := by decide

theorem witness_ResetMeetsTheInvariant : Params.block.legal = true ∧ smallFifo.legal = true := by decide

theorem witness_EveryStepKeepsTheInvariant :
    (queued inBody [0x9B#8]).Inv ∧ ∃ t, step (queued inBody [0x9B#8]) = .next t := ⟨by decide, _, rfl⟩

theorem witness_NoStepFaults : (queued inBody [0x9B#8]).Inv ∧ inBody.ReadAllowed := by
  and_intros <;> decide

/-- Two states that differ in a frame byte past ACC_LEN. -/
theorem witness_StaleFrameBytesAreUnobservable :
    completed.Inv ∧ completedStale.Inv ∧ completed.visible = completedStale.visible ∧
    completed.frameByte 9 ≠ completedStale.frameByte 9 := by
  and_intros <;> decide

/-- The last two bytes of a frame, in two schedules: one per cycle, and with a tick and an idle cycle between. -/
def scheduleA : List CycleIn := [rxIn 0x39#8, rxIn 0x9B#8, CycleIn.idle]
def scheduleB : List CycleIn := [rxIn 0x39#8, tickIn, CycleIn.idle, rxIn 0x9B#8, CycleIn.idle]

theorem witness_ChunkingDoesNotMatter :
    inBody5.Inv ∧ inBody5.busy = true ∧ quietInputs scheduleA ∧ quietInputs scheduleB ∧ noCommands scheduleA ∧
    noCommands scheduleB ∧ inBody5.fifo ++ rxBytes scheduleA = [] ++ rxBytes scheduleB ∧
    (∃ t, runInputs scheduleA inBody5 = .next t ∧ t.faState = .complete) ∧
    (∃ t, runInputs scheduleB (queued inBody5 []) = .next t ∧ t.faState = .complete) :=
  ⟨by decide, rfl, by decide, by decide, by decide, by decide, by decide, ⟨_, rfl, rfl⟩, _, rfl, rfl⟩

/-- The same with both bytes waiting in the FIFO at the start of the other run. -/
theorem witness_ChunkingDoesNotMatter_waiting :
    (queued inBody5 [0x39#8, 0x9B#8]).Inv ∧ quietInputs [CycleIn.idle, CycleIn.idle] ∧
    noCommands [CycleIn.idle, CycleIn.idle] ∧
    inBody5.fifo ++ rxBytes scheduleA = [0x39#8, 0x9B#8] ++ rxBytes [CycleIn.idle, CycleIn.idle] ∧
    (∃ t, runInputs [CycleIn.idle, CycleIn.idle] (queued inBody5 [0x39#8, 0x9B#8]) = .next t ∧ t.faState = .complete) :=
  ⟨by decide, by decide, by decide, by decide, _, rfl, rfl⟩

theorem witness_EveryTransactionEnds :
    (ticked inHdr 8#16).Inv ∧ inHdr.busy = true ∧ quietInputs [tickIn, CycleIn.idle, tickIn] ∧
    inHdr.toEff.toNat - 8 ≤ tickCount [tickIn, CycleIn.idle, tickIn] := by
  and_intros <;> decide

/-- A response without data, and a write echo; a byte waits behind each. -/
theorem witness_GoodResponseCompletes :
    (queued inHdr (withCrc (inHdr.reqAddr :: 0x03#8 :: BitVec.ofNat 8 ([] : List Byte).length :: []) ++ [0x55#8])).Inv ∧
    inHdr.faState = .hdr ∧ inHdr.accLen = 0#16 ∧ inHdr.reqFc = 0x03#8 ∧ ([] : List Byte).length ≤ 255 ∧
    inHdrWrite.reqFc = 0x10#8 ∧ inHdrWrite.faState = .hdr ∧ inHdrWrite.accLen = 0#16 ∧
    (queued inHdrWrite (withCrc [0x01#8, 0x10#8, 0x00#8, 0x01#8, 0x00#8, 0x02#8] ++ [0x55#8])).Inv := by
  and_intros <;> decide +kernel

theorem witness_PseudoInstructionsRun :
    State.reset.Inv ∧ State.reset.busy = false ∧ [0x10#8, 0x03#8].length ≤ State.reset.params.frameMax := by
  and_intros <;> decide

end Sys2Proof.Tests
end

section
/-! PROOF. The scope family: the legal parameters (spec/00_scope.md R6) and the only writers of the fields
(spec/10_state.md R28 to R48). -/

namespace Sys2Proof.Machine

/-! ### The legal parameters -/

/-- The set of R6, whose rising order is the model's form of it (log 6). -/
theorem recCodesLegal_iff (codes : List Byte) :
    Params.recCodesLegal codes = true ↔
      (∀ c ∈ codes, 1 ≤ c.toNat ∧ c.toNat ≤ 11) ∧ (1 ∈ codes ∧ 2 ∈ codes ∧ 11 ∈ codes) ∧
        codes.Pairwise fun a b => a.toNat < b.toNat := by
  simp only [Params.recCodesLegal, Bool.and_eq_true, decide_eq_true_eq, List.all_eq_true, List.contains_iff_mem]
  tauto

theorem legal_iff (p : Params) :
    p.legal = true ↔
      (260 ≤ p.frameMax ∧ p.frameMax ≤ 768) ∧ (1 ≤ p.rxqDepth ∧ p.rxqDepth ≤ 0x7FFF) ∧ 1 ≤ p.tickMs ∧
        Params.recCodesLegal p.recCodes = true := by
  simp only [Params.legal, Bool.and_eq_true, decide_eq_true_eq]
  tauto

/-- Settles O3: the legal column of R6 clause by clause, and the refusal of illegal parameters by `step_illegal`. -/
theorem illegalParametersAreRejected : Obligations.IllegalParametersAreRejected := by
  refine ⟨rfl, rfl, rfl, rfl, rfl, by decide, fun p => ?_, fun s => step_illegal⟩
  rw [legal_iff, recCodesLegal_iff]

/-! ### The only writers of the fields -/

/-- Between `s` and `t` the fields with a named writer changed only as the command `cmd` writes them. RXOVR, which the
enqueue event writes too, is no part of this. -/
structure WrittenOnlyBy (cmd : Option Instr) (s t : State) : Prop where
  params : t.params = s.params
  request : t.reqAddr ≠ s.reqAddr ∨ t.reqFc ≠ s.reqFc → cmd = some (.setReq t.reqAddr t.reqFc)
  toEff : t.toEff ≠ s.toEff → ∃ v, cmd = some (.start v)
  defTimeout : t.defTimeout ≠ s.defTimeout → s.inited = false ∧ cmd = some (.init t.defTimeout)
  inited : t.inited ≠ s.inited →
    s.inited = false ∧ (∃ d, cmd = some (.init d)) ∨ s.inited = true ∧ cmd = some .close
  crcOk : t.crcOk ≠ s.crcOk → cmd = some .crcVerify
  discard : t.discard ≠ s.discard → cmd = some .rxClear
  config : t.ufc ≠ s.ufc ∨ t.mm ≠ s.mm ∨ t.ie ≠ s.ie → ∃ c, cmd = some (.cfgSet c)
  illcmd : t.illcmd ≠ s.illcmd →
    t.illcmd = true ∧ (∃ opc, cmd = some (.reserved opc)) ∨ t.illcmd = false ∧ ∃ c, cmd = some (.flagsClr c)
  frmovr : t.frmovr ≠ s.frmovr →
    t.frmovr = true ∧ (∃ b, cmd = some (.frmPush b)) ∨ t.frmovr = false ∧ ∃ c, cmd = some (.flagsClr c)

theorem WrittenOnlyBy.refl (cmd : Option Instr) (s : State) : WrittenOnlyBy cmd s s := by
  constructor <;> simp

/-- The phases after the command write none of these fields. -/
theorem WrittenOnlyBy.trans_afterFrame {cmd : Option Instr} {s t u : State} (h : WrittenOnlyBy cmd s t)
    (hf : AfterFrame t u) : WrittenOnlyBy cmd s u where
  params := hf.params.trans h.params
  request := by rw [hf.reqAddr, hf.reqFc]; exact h.request
  toEff := by rw [hf.toEff]; exact h.toEff
  defTimeout := by rw [hf.defTimeout]; exact h.defTimeout
  inited := by rw [hf.inited]; exact h.inited
  crcOk := by rw [hf.crcOk]; exact h.crcOk
  discard := by rw [hf.discard]; exact h.discard
  config := by rw [hf.ufc, hf.mm, hf.ie]; exact h.config
  illcmd := by rw [hf.illcmd]; exact h.illcmd
  frmovr := by rw [hf.frmovr]; exact h.frmovr

/-- A flag that is masked and changes is cleared. -/
theorem and_eq_false_of_ne : ∀ a b : Bool, (a && b) ≠ a → (a && b) = false := by decide

/-- Every instruction writes only the fields that name it as a writer; the instructions not named write none of them. -/
theorem exec_writtenOnlyBy {i : Instr} {s t : State} (h : exec i s = .next t) : WrittenOnlyBy (some i) s t := by
  have none_written := WrittenOnlyBy.refl (some i) s
  cases i with
  | setReq addr fc =>
    obtain rfl := Host.Outcome.next.inj h
    exact { none_written with request := fun _ => rfl }
  | start v =>
    simp only [exec, execStart] at h
    split at h <;> (try split at h) <;> obtain rfl := Host.Outcome.next.inj h <;>
      exact { none_written with toEff := fun _ => ⟨v, rfl⟩ }
  | init d =>
    simp only [exec, execInit] at h
    split at h <;> obtain rfl := Host.Outcome.next.inj h
    · exact none_written
    · have hi : s.inited = false := Bool.eq_false_iff.2 ‹_›
      exact { none_written with defTimeout := fun _ => ⟨hi, rfl⟩, inited := fun _ => .inl ⟨hi, d, rfl⟩ }
  | close =>
    simp only [exec, execClose] at h
    split at h <;> obtain rfl := Host.Outcome.next.inj h
    · exact { none_written with inited := fun _ => .inr ⟨‹_›, rfl⟩ }
    · exact none_written
  | crcVerify =>
    obtain rfl := Host.Outcome.next.inj h
    exact { none_written with crcOk := fun _ => rfl }
  | rxClear =>
    obtain rfl := Host.Outcome.next.inj h
    exact { none_written with discard := fun _ => rfl }
  | cfgSet cfg =>
    obtain rfl := Host.Outcome.next.inj h
    exact { none_written with config := fun _ => ⟨cfg, rfl⟩ }
  | reserved opc =>
    obtain rfl := Host.Outcome.next.inj h
    exact { none_written with illcmd := fun _ => .inl ⟨rfl, opc, rfl⟩ }
  | flagsClr clr =>
    obtain rfl := Host.Outcome.next.inj h
    exact { none_written with
      illcmd := fun hne => .inr ⟨and_eq_false_of_ne _ _ hne, clr, rfl⟩
      frmovr := fun hne => .inr ⟨and_eq_false_of_ne _ _ hne, clr, rfl⟩ }
  | frmPush b =>
    simp only [exec, execFrmPush] at h
    split at h <;> obtain rfl := Host.Outcome.next.inj h
    · exact { none_written with params := rfl }
    · exact { none_written with frmovr := fun _ => .inl ⟨rfl, b, rfl⟩ }
  | rspFcOther f =>
    simp only [exec, execRspFcOther] at h
    split at h <;> obtain rfl := Host.Outcome.next.inj h <;> exact { none_written with params := rfl }
  | nop | crcInit | crcByte _ | frmClear | doneAck | validate | rspFcReadHolding | rspFcWriteMultiple
  | rspFcException _ =>
    obtain rfl := Host.Outcome.next.inj h
    exact { none_written with params := rfl }

/-- The only instruction that changes RXOVR is FLAGS_CLR, and it clears it. -/
theorem exec_rxovr {i : Instr} {s t : State} (h : exec i s = .next t) (hne : t.rxovr ≠ s.rxovr) :
    t.rxovr = false ∧ ∃ c, i = .flagsClr c := by
  cases i with
  | flagsClr clr =>
    obtain rfl := Host.Outcome.next.inj h
    exact ⟨and_eq_false_of_ne _ _ hne, clr, rfl⟩
  | start | init | close | frmPush | rspFcOther =>
    simp only [exec, execStart, execInit, execClose, execFrmPush, execRspFcOther] at h
    (repeat' split at h) <;> obtain rfl := Host.Outcome.next.inj h <;> exact absurd rfl hne
  | nop | crcInit | crcByte | crcVerify | frmClear | setReq | doneAck | validate | cfgSet | rxClear | reserved
  | rspFcReadHolding | rspFcWriteMultiple | rspFcException =>
    obtain rfl := Host.Outcome.next.inj h
    exact absurd rfl hne

/-- The enqueue event changes RXOVR only by raising it, with a received byte and a full FIFO (R136). -/
theorem enqueuePhase_rxovr {rx : Option Byte} {s : State} (hne : (enqueuePhase rx s).rxovr ≠ s.rxovr) :
    (enqueuePhase rx s).rxovr = true ∧ rx ≠ none ∧ s.params.rxqDepth ≤ s.fifo.length := by
  rcases enqueuePhase_cases rx s with ⟨h, -⟩ | ⟨b, -, -, -, h⟩ | ⟨b, rfl, -, hfull, h⟩ <;> rw [h] at hne ⊢
  · exact absurd rfl hne
  · exact absurd rfl hne
  · exact ⟨rfl, by simp, hfull⟩

/-- The consume event of a consuming state leaves room in the FIFO (R261). -/
theorem consumePhase_leaves_room {s t : State} (hl : s.params.legal = true) (hq : s.FifoInv)
    (hc : s.faState.isConsuming = true) (h : consumePhase s = .next t) : t.fifo.length < t.params.rxqDepth := by
  obtain ⟨-, -, hdepth, -⟩ := legal_bounds hl
  rw [(consumePhase_frame h).1.params]
  rcases consumePhase_effect h with ⟨rfl, hidle | hempty⟩ | ⟨b, rest, -, hf, -, hcd⟩
  · simp [hc] at hidle
  · rw [hempty]; exact hdepth
  · obtain ⟨-, -, hrest, -⟩ := hcd.frame
    obtain ⟨hle, -⟩ := hq
    rw [hf, List.length_cons] at hle
    rw [hrest, takeByte_fifo]
    exact hle

/-- A consuming state is busy, so its command phase does nothing (R24, R51). -/
theorem busy_of_isConsuming {s : State} (hc : s.faState.isConsuming = true) : s.busy = true := by
  unfold State.busy
  cases hs : s.faState <;> simp [hs, FaState.isConsuming, FaState.isBusy] at hc ⊢

/-- A step without reset writes the fields of `WrittenOnlyBy` only by the command it accepts. -/
theorem step_writtenOnlyBy {s t : State} (hrst : s.nextInput.rst = false) (h : step s = .next t) :
    WrittenOnlyBy s.accepted s t := by
  obtain ⟨-, -, s1, s2, h1, h2, rfl⟩ := step_phases h hrst
  have hf := afterCommand_frame (andThen_eq_next.2 ⟨s2, h2, rfl⟩ : afterCommand s.nextInput s1 = .next _)
  have hw : WrittenOnlyBy s.accepted s.beginCycle s1 := by
    rcases commandPhase_accepted hrst h1 with ⟨rfl, -⟩ | ⟨w, -, -, ha, he⟩
    · exact .refl _ _
    · exact ha ▸ exec_writtenOnlyBy he
  have ht := hw.trans_afterFrame hf
  -- `beginCycle` differs from `s` in the inputs and the outputs only, so each clause is the one about `s`.
  exact { ht with params := ht.params }

/-- A step without reset changes RXOVR by a received byte that finds the FIFO full, or by FLAGS_CLR. -/
theorem step_rxovr {s t : State} (hrst : s.nextInput.rst = false) (h : step s = .next t) (hne : t.rxovr ≠ s.rxovr) :
    t.rxovr = true ∧ s.nextInput.rx ≠ none ∧ (s.Inv → s.faState.isConsuming = false) ∨
      t.rxovr = false ∧ ∃ c, s.accepted = some (.flagsClr c) := by
  obtain ⟨hl, -, s1, s2, h1, h2, rfl⟩ := step_phases h hrst
  obtain ⟨-, -, -, -, -, htick⟩ := tickPhase_frame s.nextInput.tick (enqueuePhase s.nextInput.rx s2)
  obtain ⟨-, -, hcons⟩ := consumePhase_frame h2
  rw [htick] at hne ⊢
  by_cases henq : (enqueuePhase s.nextInput.rx s2).rxovr = s2.rxovr
  · rw [henq, hcons] at hne ⊢
    rcases commandPhase_accepted hrst h1 with ⟨rfl, -⟩ | ⟨w, -, -, ha, he⟩
    · exact absurd rfl hne
    · obtain ⟨hfalse, c, hc⟩ := exec_rxovr he hne
      exact .inr ⟨hfalse, c, hc ▸ ha⟩
  · obtain ⟨htrue, hrx, hfull⟩ := enqueuePhase_rxovr henq
    refine .inl ⟨htrue, hrx, fun hinv => ?_⟩
    by_contra hc
    replace hc : s.beginCycle.faState.isConsuming = true := Bool.eq_true_of_not_eq_false hc
    rw [commandPhase_busy _ (busy_of_isConsuming hc)] at h1
    obtain rfl := Host.Outcome.next.inj h1
    obtain ⟨-, -, hq, -⟩ := hinv
    have hroom := consumePhase_leaves_room (s := s.beginCycle) hl hq hc h2
    omega

/-- Settles O51: the command phase writes only the accepted command's fields, no later phase writes any of them, and
RXOVR rises only in the enqueue event. -/
theorem onlyTheNamedCommandsWrite : Obligations.OnlyTheNamedCommandsWrite := by
  intro s t hrst h
  have hw := step_writtenOnlyBy hrst h
  exact ⟨hw.params, hw.request, hw.toEff, hw.defTimeout, hw.inited, hw.crcOk, hw.discard, hw.config, hw.illcmd,
    hw.frmovr, step_rxovr hrst h⟩

end Sys2Proof.Machine
end

section
/-! PROOF. The state family, part 1: the invariant of spec/10_state.md R53 along a whole step, the values of the reset
table (R54), and what one cycle runs and shows (R50, R51, R52). -/

namespace Sys2Proof.Machine

/-! ### The invariant along a step -/

/-- Reset under legal parameters meets the invariant, whatever inputs are to come and whatever the last outputs were. -/
theorem resetWith_inv {p : Params} (hl : p.legal = true) : (State.resetWith p).Inv :=
  ⟨hl, ⟨Memory.wf_nil, by simp [State.resetWith], Nat.zero_le _⟩, ⟨Nat.zero_le _, fun _ => rfl⟩,
    ⟨Nat.le_refl _, of_false_eq_true⟩, assemblerInv_of_not_busy rfl, Or.inl (List.mem_cons_self ..), of_false_eq_true,
    fun _ => rfl⟩

/-- Settles O53: the reset state of every legal machine, this block's among them. -/
theorem resetMeetsTheInvariant : Obligations.ResetMeetsTheInvariant :=
  ⟨resetWith_inv (by decide), fun _ => resetWith_inv⟩

/-- The command phase keeps the invariant. -/
theorem commandPhase_inv {cmd : Option Word} {s t : State} (hi : s.Inv) (h : commandPhase cmd s = .next t) : t.Inv := by
  rcases commandPhase_cases h with ⟨rfl, -⟩ | ⟨w, -, hb, h⟩
  · exact hi
  · exact exec_command_inv hi hb h

/-- The invariant speaks of neither the inputs to come nor the output ports. -/
theorem beginCycle_inv {s : State} (hi : s.Inv) : s.beginCycle.Inv := hi

/-- Settles O54: a reset cycle leads to the reset state, and each of the four phases of another cycle keeps the
invariant. -/
theorem everyStepKeepsTheInvariant : Obligations.EveryStepKeepsTheInvariant := by
  intro s t hi h
  obtain ⟨hl, -, ⟨-, rfl⟩ | ⟨-, s1, s2, h1, h2, rfl⟩⟩ := step_cases h
  · exact resetWith_inv hl
  · have hi1 : s1.Inv := commandPhase_inv (beginCycle_inv hi) h1
    have hi2 : s2.Inv := consumePhase_inv hi1 h2
    exact tickPhase_inv _ (enqueuePhase_inv _ hi2)

/-! ### Reset values -/

/-- With ACC_LEN = 0 every frame byte of the window reads 0 (R65). -/
theorem windowFrameByte_of_accLen_zero {s : State} (h : s.accLen = 0#16) (i : Nat) : s.windowFrameByte i = 0#8 := by
  simp [State.windowFrameByte, h]

/-- Settles O1: every field is read off the reset state; no frame byte is valid there, since ACC_LEN = 0. -/
theorem resetStateValues : Obligations.ResetStateValues := by
  refine ⟨rfl, rfl, fun p => ?_⟩
  have hwindow : ∀ i, (State.resetWith p).windowFrameByte i = 0#8 := windowFrameByte_of_accLen_zero rfl
  exact ⟨rfl, rfl, rfl, rfl, rfl, rfl, rfl, rfl, rfl, rfl, rfl, rfl, rfl, rfl, rfl, rfl, rfl, rfl, rfl, hwindow, rfl,
    rfl, rfl, rfl, rfl, rfl, rfl, rfl, rfl⟩

/-! ### What a cycle runs -/

/-- Phase 1 of a free block runs the presented command (R51). -/
theorem commandPhase_free {s : State} (w : Word) (hb : s.busy = false) :
    commandPhase (some w) s = exec (decodeCommand w) s := by
  simp [commandPhase, hb]

/-- Settles O9: the command phase of a free block is the meaning of the presented word. -/
theorem stepRunsThePresentedCommand : Obligations.StepRunsThePresentedCommand := by
  intro s w hl hr hrst hb hc
  rw [step_eq_phases hl hr hrst, hc, commandPhase_free (s := s.beginCycle) w hb]

/-- The header byte that makes ACC_LEN 2 is decoded, and its row is run (R138). -/
theorem consumedStep_header {s : State} (hs : s.faState = .hdr) (hl : s.accLen = 2#16) :
    consumedStep s = exec (decodeResponse s.reqFc (s.frameByte 1)) s := by
  simp [consumedStep, headerStep, hs, hl]

/-- Settles O10: a busy block runs no command, and the byte taken is FRAME[1], which the header step decodes. -/
theorem stepRunsTheResponseFunctionCode : Obligations.StepRunsTheResponseFunctionCode := by
  intro s f rest hi hr hrst hs hacc hfifo
  obtain ⟨hl, ⟨hwf, -, -⟩, -⟩ := hi
  obtain ⟨hmax, -⟩ := legal_bounds hl
  have hbusy : s.beginCycle.busy = true := by simp [State.busy, hs, FaState.isBusy]
  have hroom : s.beginCycle.accLen.toNat < s.beginCycle.params.frameMax := by simp [hacc]; omega
  have hcons : s.beginCycle.faState.isConsuming = true := by simp [hs, FaState.isConsuming]
  have hbyte : (State.appendByte { s.beginCycle with fifo := rest } f).frameByte 1 = f := by
    rw [appendByte_frameByte (by exact hwf)]; simp [hacc]
  rw [step_eq_phases hl hr hrst, commandPhase_busy _ hbusy, andThen_next, afterCommand,
    consumePhase_byte hcons (by exact hfifo) hroom, consumedStep_header (by exact hs) (by simp [hacc]), hbyte]
  rfl

/-! ### What a cycle shows -/

/-- The outputs of a step are those of the state it begins from, in a reset cycle too (R52, log 16). -/
theorem step_out {s t : State} (h : step s = .next t) : t.out = portOut s.nextInput s := by
  obtain ⟨-, -, ⟨-, rfl⟩ | ⟨-, s1, s2, h1, h2, rfl⟩⟩ := step_cases h
  · rfl
  · obtain ⟨-, -, hcmd⟩ := commandPhase_frame h1
    rw [(tickPhase_frame _ _).1.out, (enqueuePhase_frame _ _).1.out, (consumePhase_frame h2).1.out, hcmd]
    rfl

/-- Settles O8: the three ports of `portOut`. -/
theorem outputPortsShowStartOfCycle : Obligations.OutputPortsShowStartOfCycle := by
  intro s t h
  rw [step_out h]
  exact ⟨rfl, rfl, rfl⟩

/-- The enqueue and tick phases in one: the received byte shows in the FIFO and RXOVR only. -/
theorem tickPhase_enqueuePhase (tick : Bool) (rx : Option Byte) (s : State) :
    tickPhase tick (enqueuePhase rx s) =
      { tickPhase tick s with fifo := (enqueuePhase rx s).fifo, rxovr := (enqueuePhase rx s).rxovr } := by
  conv_lhs => rw [(enqueuePhase_frame rx s).2]
  exact tickPhase_withFifo _ _ _ _

/-- Settles O12: both cycles run the same command and consume phases, and then differ in the received byte only. -/
theorem arrivingByteWaitsOneCycle : Obligations.ArrivingByteWaitsOneCycle := by
  intro s t i rest rx hin hrst h
  have hi : s.nextInput = i := by simp [State.nextInput, hin]
  obtain ⟨hl, hr, s1, s2, h1, h2, rfl⟩ := step_phases h (by rw [hi]; exact hrst)
  have hread : i.refusedRead = none := hi ▸ hr
  rw [hi] at h1 ⊢
  have hbegin : State.beginCycle { s with inputs := { i with rx := rx } :: rest } = s.beginCycle := by
    simp only [State.beginCycle, State.dropInput, hi, hin]; rfl
  refine ⟨tickPhase i.tick (enqueuePhase rx s2), ?_, ?_⟩
  · rw [step_eq_phases (by exact hl) (by exact hread) (by exact hrst), hbegin]
    exact andThen_eq_next.2 ⟨s1, h1, andThen_eq_next.2 ⟨s2, h2, rfl⟩⟩
  · rw [tickPhase_enqueuePhase _ rx, tickPhase_enqueuePhase _ i.rx]

end Sys2Proof.Machine
end

section
/-! PROOF. The state family, part 2: the frame bytes at or past ACC_LEN reach no observation (spec/10_state.md R40, R49,
spec/20_memory.md R65). Each phase is shown to answer a state and its visible part alike. -/

namespace Sys2Proof.Machine

/-! ### The visible part of a state -/

@[simp] theorem visible_params (s : State) : s.visible.params = s.params := rfl
@[simp] theorem visible_faState (s : State) : s.visible.faState = s.faState := rfl
@[simp] theorem visible_accLen (s : State) : s.visible.accLen = s.accLen := rfl
@[simp] theorem visible_expLen (s : State) : s.visible.expLen = s.expLen := rfl
@[simp] theorem visible_fifo (s : State) : s.visible.fifo = s.fifo := rfl
@[simp] theorem visible_inited (s : State) : s.visible.inited = s.inited := rfl
@[simp] theorem visible_ufc (s : State) : s.visible.ufc = s.ufc := rfl
@[simp] theorem visible_mm (s : State) : s.visible.mm = s.mm := rfl
@[simp] theorem visible_frameHasRoom (s : State) : s.visible.frameHasRoom = s.frameHasRoom := rfl
@[simp] theorem visible_effectiveTimeout (s : State) (v : Half) :
    s.visible.effectiveTimeout v = s.effectiveTimeout v := rfl

@[simp] theorem visible_visible (s : State) : s.visible.visible = s.visible :=
  congrArg (fun m => { s with frame := m }) (List.filter_eq_self.2 fun _ hc => (List.mem_filter.1 hc).2)

/-- A valid frame byte is visible. -/
theorem visible_frameByte (s : State) {i : Nat} (h : i < s.accLen.toNat) : s.visible.frameByte i = s.frameByte i :=
  Memory.read_filter_lt _ h

theorem visible_frameBytes (s : State) : s.visible.frameBytes = s.frameBytes :=
  List.map_congr_left fun _ hi => visible_frameByte s (List.mem_range.1 hi)

theorem visible_classification (s : State) : s.visible.classification = s.classification :=
  congrArg (classify s.params.recCodes s.reqFc) (visible_frameBytes s)

/-- The match check reads two valid bytes. -/
theorem visible_headerMatches {s : State} (h : 2 ≤ s.accLen.toNat) : s.visible.headerMatches = s.headerMatches := by
  unfold State.headerMatches
  rw [visible_frameByte s (by omega), visible_frameByte s (by omega)]
  rfl

/-- The window shows no frame byte at or past ACC_LEN (R65). -/
theorem visible_windowFrameByte (s : State) (i : Nat) : s.visible.windowFrameByte i = s.windowFrameByte i := by
  unfold State.windowFrameByte
  rw [visible_params, visible_accLen]
  split
  · rename_i h
    exact visible_frameByte s h.2
  · rfl

theorem visible_windowWord (s : State) (o : Nat) : s.visible.windowWord o = s.windowWord o := by
  by_cases h : 0x100 ≤ o
  · simp only [windowWord_frame _ h, State.frameWord, visible_windowFrameByte]
  · simp only [State.windowWord, if_neg h]; rfl

theorem visible_hostRead (s : State) (r : HostRead) : s.visible.hostRead r = s.hostRead r := by
  simp only [State.hostRead, visible_windowWord]

/-- The cycle begins alike: the output ports show the visible part only. -/
theorem visible_beginCycle (s : State) : s.visible.beginCycle = s.beginCycle.visible := by
  have hread : s.visible.hostRead = s.hostRead := funext (visible_hostRead s)
  have hout : portOut s.nextInput s.visible = portOut s.nextInput s := by simp only [portOut, hread]; rfl
  exact congrArg (fun o => { s.dropInput.visible with out := o }) hout

/-- What a store reads as, once the entries at or past a bound are dropped. -/
theorem Memory.read_filter_of_le (m : Memory) {n a : Nat} (h : n ≤ a) :
    Memory.read (m.filter fun c => decide (c.1 < n)) a = Memory.unlisted := by
  by_contra hne
  have := (List.mem_filter.1 (Memory.mem_of_read_ne hne)).2
  simp at this; omega

/-- Two canonical stores that read alike below a bound are equal once the entries at or past it are dropped. -/
theorem Memory.filter_lt_eq {m m' : Memory} (hm : Memory.wf m) (hm' : Memory.wf m') {n : Nat}
    (h : ∀ a, a < n → Memory.read m a = Memory.read m' a) :
    m.filter (fun c => decide (c.1 < n)) = m'.filter fun c => decide (c.1 < n) := by
  refine Memory.eq_of_read_eq (Memory.wf_filter hm _) (Memory.wf_filter hm' _) fun a => ?_
  by_cases ha : a < n
  · rw [Memory.read_filter_lt _ ha, Memory.read_filter_lt _ ha, h a ha]
  · rw [Memory.read_filter_of_le _ (by omega), Memory.read_filter_of_le _ (by omega)]

/-- Appending a byte brings no hidden byte to light: it writes the one byte that becomes valid. -/
theorem visible_appendByte {s : State} (hm : Memory.wf s.frame) (b : Byte) :
    (s.visible.appendByte b).visible = (s.appendByte b).visible := by
  have hm' : Memory.wf s.visible.frame := Memory.wf_filter hm _
  have hlen : (s.accLen + 1#16).toNat ≤ s.accLen.toNat + 1 := by simp; omega
  refine congrArg (fun m => { s.appendByte b with frame := m })
    (Memory.filter_lt_eq (Memory.wf_write hm' _ _) (Memory.wf_write hm _ _) fun a ha => ?_)
  by_cases h : a = s.accLen.toNat
  · rw [h]; exact (Memory.read_write_same hm' _ _).trans (Memory.read_write_same hm _ _).symm
  · refine (Memory.read_write_other _ _ h).trans (Eq.trans ?_ (Memory.read_write_other _ _ h).symm)
    exact Memory.read_filter_lt _ (show a < s.accLen.toNat by change a < (s.accLen + 1#16).toNat at ha; omega)

/-! ### Each phase on the visible part -/

/-- Two states that differ only in whether hidden frame bytes of `s` are listed show the same. -/
theorem visible_eq_of_visible_frame {s u v : State} (hu : u = { v with frame := s.visible.frame })
    (hf : v.frame = s.frame) (hl : v.accLen.toNat ≤ s.accLen.toNat) : u.visible = v.visible := by
  subst hu
  refine congrArg (fun m => { v with frame := m }) ?_
  rw [hf]
  change (s.frame.filter _).filter _ = s.frame.filter _
  rw [List.filter_filter]
  refine List.filter_congr fun c _ => ?_
  rw [Bool.and_eq_left_iff_imp]
  simp only [decide_eq_true_eq]
  omega

/-- The same for the states an instruction leads to. -/
theorem visibleOutcome_next {s u v : State} (hu : u = { v with frame := s.visible.frame })
    (hf : v.frame = s.frame) (hl : v.accLen.toNat ≤ s.accLen.toNat) :
    visibleOutcome (.next u) = visibleOutcome (.next v) :=
  congrArg Host.Outcome.next (visible_eq_of_visible_frame hu hf hl)

/-- An instruction reads valid frame bytes only, and only FRM_PUSH writes one. -/
theorem visible_exec (i : Instr) {s : State} (hm : Memory.wf s.frame) :
    visibleOutcome (exec i s.visible) = visibleOutcome (exec i s) := by
  cases i with
  | frmPush b =>
    simp only [exec, execFrmPush]
    rw [visible_frameHasRoom]
    split
    · exact congrArg Host.Outcome.next (visible_appendByte hm b)
    · exact visibleOutcome_next (s := s) rfl rfl (Nat.le_refl _)
  | crcVerify =>
    simp only [exec, execCrcVerify, visible_frameBytes]
    exact visibleOutcome_next (s := s) rfl rfl (Nat.le_refl _)
  | validate =>
    simp only [exec, execValidate, visible_classification]
    exact visibleOutcome_next (s := s) rfl rfl (Nat.le_refl _)
  | frmClear => exact visibleOutcome_next (s := s) rfl rfl (Nat.zero_le _)
  | start v =>
    simp only [exec, execStart]
    rw [visible_inited, visible_effectiveTimeout]
    (repeat' split) <;> exact visibleOutcome_next (s := s) rfl rfl (Nat.zero_le _)
  | init | close =>
    simp only [exec, execInit, execClose]
    rw [visible_inited]
    split <;> exact visibleOutcome_next (s := s) rfl rfl (Nat.le_refl _)
  | rspFcOther f =>
    simp only [exec, execRspFcOther]
    rw [visible_ufc]
    split <;> exact visibleOutcome_next (s := s) rfl rfl (Nat.le_refl _)
  | nop | crcInit | crcByte | setReq | doneAck | cfgSet | flagsClr | rxClear | reserved | rspFcReadHolding
  | rspFcWriteMultiple | rspFcException =>
    exact visibleOutcome_next (s := s) rfl rfl (Nat.le_refl _)

/-- A state that is kept shows the same. -/
theorem visibleOutcome_visible (s : State) : visibleOutcome (.next s.visible) = visibleOutcome (.next s) :=
  congrArg Host.Outcome.next (visible_visible s)

/-- Phase 1 on the visible part (R51). -/
theorem visible_commandPhase (cmd : Option Word) {s : State} (hm : Memory.wf s.frame) :
    visibleOutcome (commandPhase cmd s.visible) = visibleOutcome (commandPhase cmd s) := by
  cases cmd with
  | none => exact visibleOutcome_visible s
  | some w =>
    cases hb : s.busy
    · rw [commandPhase_free w hb, commandPhase_free w (by exact hb)]
      exact visible_exec _ hm
    · rw [commandPhase_busy _ hb, commandPhase_busy _ (by exact hb)]
      exact visibleOutcome_visible s

theorem visible_byteCountStep {s : State} (h : 3 ≤ s.accLen.toNat) :
    byteCountStep s.visible = (byteCountStep s).visible := by
  unfold byteCountStep
  rw [visible_frameByte s (by omega)]
  rfl

theorem visible_completeFrame (s : State) : completeFrame s.visible = (completeFrame s).visible := by
  unfold completeFrame
  rw [visible_classification]
  rfl

/-- RESTART hides every frame byte, HOLD hides none (R147). -/
theorem visible_mismatchFrame (s : State) : (mismatchFrame s.visible).visible = (mismatchFrame s).visible := by
  unfold mismatchFrame
  rw [visible_mm]
  split
  · exact visible_eq_of_visible_frame (s := s) rfl rfl (Nat.le_refl _)
  · exact visible_eq_of_visible_frame (s := s) rfl rfl (Nat.zero_le _)

theorem visible_bodyStep {s : State} (h : 2 ≤ s.accLen.toNat) :
    (bodyStep s.visible).visible = (bodyStep s).visible := by
  unfold bodyStep
  rw [visible_headerMatches h, visible_accLen, visible_expLen]
  split
  · split
    · rw [visible_completeFrame, visible_visible]
    · exact visible_mismatchFrame s
  · exact visible_visible s

/-- Where the assembler reads a frame byte by its index, that byte is valid: FRAME[2] in BCNT, FRAME[0] and FRAME[1] in
BODY, and FRAME[1] when ACC_LEN is 2. -/
theorem visible_consumedStep {s : State} (hm : Memory.wf s.frame) (hbcnt : s.faState = .bcnt → 3 ≤ s.accLen.toNat)
    (hbody : s.faState = .body → 2 ≤ s.accLen.toNat) :
    visibleOutcome (consumedStep s.visible) = visibleOutcome (consumedStep s) := by
  unfold consumedStep
  rw [visible_faState]
  cases hs : s.faState with
  | hdr =>
    simp only [headerStep]
    rw [visible_accLen]
    split
    · rename_i hl
      rw [visible_frameByte s (by rw [hl]; decide)]
      exact visible_exec _ hm
    · exact visibleOutcome_visible s
  | bcnt =>
    simp only
    rw [visible_byteCountStep (hbcnt hs)]
    exact visibleOutcome_visible _
  | body => exact congrArg Host.Outcome.next (visible_bodyStep (hbody hs))
  | idle | stall | complete | timedOut | failed => exact visibleOutcome_visible s

/-- Phase 2 on the visible part (R137). -/
theorem visible_consumePhase {s : State} (hi : s.Inv) :
    visibleOutcome (consumePhase s.visible) = visibleOutcome (consumePhase s) := by
  obtain ⟨hl, ⟨hm, -, hmax⟩, -, -, ⟨-, hbcnt, hbody⟩, -⟩ := hi
  have hbounds := legal_bounds hl
  simp only [consumePhase]
  rw [visible_faState, visible_fifo, visible_frameHasRoom]
  split
  · split
    · exact visibleOutcome_visible s
    · rename_i b rest _
      split
      · let a : State := { s with fifo := rest }
        have hm' : Memory.wf a.visible.frame := Memory.wf_filter hm _
        have hlen : (s.accLen + 1#16).toNat = s.accLen.toNat + 1 := by simp; omega
        have hbcnt' : s.faState = .bcnt → 3 ≤ (s.accLen + 1#16).toNat := fun h => by have := hbcnt h; omega
        have hbody' : s.faState = .body → 2 ≤ (s.accLen + 1#16).toNat := fun h => by have := hbody h; omega
        calc visibleOutcome (consumedStep (a.visible.appendByte b))
            = visibleOutcome (consumedStep (a.visible.appendByte b).visible) :=
              (visible_consumedStep (Memory.wf_write hm' _ _) hbcnt' hbody').symm
          _ = visibleOutcome (consumedStep (a.appendByte b).visible) := by rw [visible_appendByte (s := a) hm]
          _ = visibleOutcome (consumedStep (a.appendByte b)) :=
              visible_consumedStep (Memory.wf_write hm _ _) hbcnt' hbody'
      · rfl
  · exact visibleOutcome_visible s

/-- Phase 3 neither reads nor writes the frame. -/
theorem visible_enqueuePhase (rx : Option Byte) (s : State) :
    enqueuePhase rx s.visible = (enqueuePhase rx s).visible := by
  cases rx with
  | none => rfl
  | some b => simp only [enqueuePhase, apply_ite State.visible]; rfl

/-- Phase 4 neither reads nor writes the frame. -/
theorem visible_tickPhase (tick : Bool) (s : State) : tickPhase tick s.visible = (tickPhase tick s).visible := by
  simp only [tickPhase, apply_ite State.visible]; rfl

/-! ### A whole step on the visible part -/

/-- Chaining keeps outcomes that show the same. -/
theorem visibleOutcome_andThen {o o' : Out} {f : State → Out} (h : visibleOutcome o = visibleOutcome o')
    (hf : ∀ u v, o = .next u → o' = .next v → u.visible = v.visible → visibleOutcome (f u) = visibleOutcome (f v)) :
    visibleOutcome (andThen o f) = visibleOutcome (andThen o' f) := by
  cases o <;> cases o' <;> simp only [visibleOutcome, reduceCtorEq, Host.Outcome.next.injEq] at h
  · exact hf _ _ rfl rfl h
  · exact h
  · exact h

/-- The phases after the command on two states that show the same. -/
theorem afterCommand_visible_congr (inp : CycleIn) {s t : State} (hs : s.Inv) (ht : t.Inv)
    (h : s.visible = t.visible) : visibleOutcome (afterCommand inp s) = visibleOutcome (afterCommand inp t) := by
  have hconsume : visibleOutcome (consumePhase s) = visibleOutcome (consumePhase t) := by
    rw [← visible_consumePhase hs, h, visible_consumePhase ht]
  refine visibleOutcome_andThen hconsume fun u v _ _ huv => congrArg Host.Outcome.next ?_
  rw [← visible_tickPhase, ← visible_enqueuePhase, huv, visible_enqueuePhase, visible_tickPhase]

/-- A step on two states that show the same. -/
theorem step_visible_congr {s t : State} (hs : s.Inv) (ht : t.Inv) (h : s.visible = t.visible) :
    visibleOutcome (step s) = visibleOutcome (step t) := by
  have hin : s.nextInput = t.nextInput :=
    show s.visible.nextInput = t.visible.nextInput from congrArg State.nextInput h
  have hbegin : s.beginCycle.visible = t.beginCycle.visible := by rw [← visible_beginCycle, h, visible_beginCycle]
  have ⟨hls, ⟨hms, _⟩, _⟩ := hs
  have ⟨hlt, ⟨hmt, _⟩, _⟩ := ht
  cases hr : s.nextInput.refusedRead with
  | some r => rw [step_refusedRead hls hr, step_refusedRead hlt (hin ▸ hr)]
  | none =>
    rw [step_eq hls hr, step_eq hlt (show t.nextInput.refusedRead = none from hin ▸ hr), ← hin]
    split
    · have hreset : resetStep s.beginCycle = resetStep t.beginCycle :=
        show resetStep s.beginCycle.visible = resetStep t.beginCycle.visible from congrArg resetStep hbegin
      rw [hreset]
    · have hcmd : visibleOutcome (commandPhase s.nextInput.cmd s.beginCycle) =
          visibleOutcome (commandPhase s.nextInput.cmd t.beginCycle) := by
        rw [← visible_commandPhase _ (by exact hms), hbegin, visible_commandPhase _ (by exact hmt)]
      refine visibleOutcome_andThen hcmd fun u v hu hv huv => ?_
      have hiu : u.Inv := commandPhase_inv (beginCycle_inv hs) hu
      have hiv : v.Inv := commandPhase_inv (beginCycle_inv ht) hv
      exact afterCommand_visible_congr _ hiu hiv huv

/-- Settles O56: the window and the steps of two states with one visible part. -/
theorem staleFrameBytesAreUnobservable : Obligations.StaleFrameBytesAreUnobservable := by
  intro s t hs ht h
  refine ⟨fun r => ?_, step_visible_congr hs ht h⟩
  rw [← visible_hostRead, h, visible_hostRead]

end Sys2Proof.Machine
end

section
/-! PROOF. The state family, part 3: the words of the register window (spec/10_state.md R23, spec/20_memory.md R61 to
R65). -/

namespace Sys2Proof.Machine

/-! ### The fields of a packed word -/

@[simp] theorem packHalves_lo (hi lo : Half) : (packHalves hi lo).extractLsb' 0 16 = lo :=
  BitVec.extractLsb'_append_eq_right

@[simp] theorem packHalves_hi (hi lo : Half) : (packHalves hi lo).extractLsb' 16 16 = hi :=
  BitVec.extractLsb'_append_eq_left

theorem packBytes_eq (hi lo : Byte) : packBytes hi lo = packHalves 0#16 (hi ++ lo) := rfl

@[simp] theorem packBytes_low (hi lo : Byte) : (packBytes hi lo).extractLsb' 0 8 = lo := by
  rw [← argLow_argOf, argOf, packBytes_eq, packHalves_lo, argLow_append]

@[simp] theorem packBytes_high (hi lo : Byte) : (packBytes hi lo).extractLsb' 8 8 = hi := by
  rw [← argHigh_argOf, argOf, packBytes_eq, packHalves_lo, argHigh_append]

@[simp] theorem packBytes_rest (hi lo : Byte) : (packBytes hi lo).extractLsb' 16 16 = 0#16 := by
  rw [packBytes_eq, packHalves_hi]

@[simp] theorem flagBit_getLsbD_zero (b : Bool) : (flagBit b).getLsbD 0 = b := by cases b <;> rfl

theorem statusWord_code (s : State) : s.statusWord.extractLsb' 0 4 = s.faState.code :=
  BitVec.extractLsb'_append_eq_right

theorem statusWord_flags (s : State) :
    s.statusWord.getLsbD 4 = s.busy ∧ s.statusWord.getLsbD 5 = s.inited ∧ s.statusWord.getLsbD 6 = s.done ∧
    s.statusWord.getLsbD 7 = s.crcOk ∧ s.statusWord.getLsbD 8 = s.rxovr ∧ s.statusWord.getLsbD 9 = s.frmovr ∧
    s.statusWord.getLsbD 10 = s.illcmd ∧ s.statusWord.getLsbD 11 = s.irq := by
  and_intros <;> simp only [State.statusWord, BitVec.getLsbD_append] <;> exact flagBit_getLsbD_zero _

theorem statusWord_rest (s : State) : s.statusWord.extractLsb' 12 20 = 0#20 := by
  ext i h
  simp only [State.statusWord, BitVec.getElem_extractLsb', BitVec.getLsbD_append]
  (repeat rw [if_neg (by omega)])
  simp

/-- The configuration word (R23): UFC, MM and IE in bits 0 to 2. -/
theorem configWord_flags (s : State) :
    (s.windowWord 0x028).getLsbD 0 = s.ufc ∧ (s.windowWord 0x028).getLsbD 1 = s.mm ∧
    (s.windowWord 0x028).getLsbD 2 = s.ie := by
  and_intros <;> simp only [State.windowWord, BitVec.getLsbD_append] <;> exact flagBit_getLsbD_zero _

theorem configWord_rest (s : State) : (s.windowWord 0x028).extractLsb' 3 29 = 0#29 := by
  ext i h
  simp only [State.windowWord, BitVec.getElem_extractLsb', BitVec.getLsbD_append]
  (repeat rw [if_neg (by omega)])
  simp

/-! ### The frame bytes and the unassigned offsets -/

/-- Past FRAME_MAX the window has no frame byte, and the offset reads 0 (R61). -/
theorem windowFrameByte_of_frameMax_le {s : State} {i : Nat} (h : s.params.frameMax ≤ i) :
    s.windowFrameByte i = 0#8 := if_neg (by omega)

theorem frameWord_of_frameMax_le {s : State} {i : Nat} (h : s.params.frameMax ≤ i) : s.frameWord i = 0#32 := by
  rw [State.frameWord, windowFrameByte_of_frameMax_le (i := i + 3) (by omega),
    windowFrameByte_of_frameMax_le (i := i + 2) (by omega), windowFrameByte_of_frameMax_le (i := i + 1) (by omega),
    windowFrameByte_of_frameMax_le h]
  rfl

/-- A 1-byte read at 0x100 + i answers the window's frame byte i (R65). -/
theorem reads1_frame (s : State) {a : BitVec 10} {i : Nat} (h : a.toNat = 0x100 + i) :
    s.Reads1 a (s.windowFrameByte i) := by
  have hword : 0x100 ≤ a.toNat - a.toNat % 4 := by omega
  have hbyte : a.toNat - a.toNat % 4 - 0x100 + a.toNat % 4 = i := by omega
  rw [State.Reads1, hostRead_one, windowWord_frame s hword, wordByte_frameWord _ _ (Nat.mod_lt _ (by decide)), hbyte]

/-- An unassigned offset: in the gap behind the registers, or behind the frame buffer (R61). -/
theorem reads1_unassigned (s : State) {a : BitVec 10}
    (h : 0x02C ≤ a.toNat ∧ a.toNat < 0x100 ∨ 0x100 + s.params.frameMax ≤ a.toNat) : s.Reads1 a 0#8 := by
  rcases h with ⟨hlo, hhi⟩ | h
  · rw [State.Reads1, hostRead_one, windowWord_gap s (by omega) (by omega)]
    simp [wordByte]
  · rw [← windowFrameByte_of_frameMax_le (s := s) (i := a.toNat - 0x100) (by omega)]
    exact reads1_frame s (by omega)

theorem reads4_unassigned (s : State) {a : BitVec 10} (h4 : a.toNat % 4 = 0)
    (h : 0x02C ≤ a.toNat ∧ a.toNat < 0x100 ∨ 0x100 + s.params.frameMax ≤ a.toNat) : s.Reads4 a 0#32 := by
  rw [State.Reads4, hostRead_four s h4]
  rcases h with ⟨hlo, hhi⟩ | h
  · rw [windowWord_gap s hlo hhi]
  · rw [windowWord_frame s (by omega), frameWord_of_frameMax_le (by omega)]

/-! ### The derived fields -/

/-- RX_COUNT does not wrap: RXQ_DEPTH is at most 0x7FFF (R6, R44). -/
theorem rxCount_toNat {s : State} (hl : s.params.legal = true) (hq : s.FifoInv) : s.rxCount.toNat = s.fifo.length := by
  obtain ⟨-, -, -, hdepth⟩ := legal_bounds hl
  obtain ⟨hle, -⟩ := hq
  rw [State.rxCount, BitVec.toNat_ofNat]
  omega

/-- PLEN does not wrap: s16(RESULT_LEN) is below 0x8000 (R43). -/
theorem plen_toNat {s : State} (h : 4 ≤ s.resultLen.toInt) : (s.plen.toNat : Int) = s.resultLen.toInt - 3 := by
  have hlt : s.resultLen.toInt < 2 ^ 15 := BitVec.toInt_lt
  rw [State.plen, if_pos h, BitVec.toNat_ofInt]
  omega

/-- Settles O4: each register word by its packing, each frame byte and each unassigned offset by its read. -/
theorem windowWordsPackTheFields : Obligations.WindowWordsPackTheFields := by
  intro s
  have hcode : ∀ {f : FaState}, s.faState = f → s.statusWord.extractLsb' 0 4 = f.code := fun h =>
    h ▸ statusWord_code s
  obtain ⟨b4, b5, b6, b7, b8, b9, b10, b11⟩ := statusWord_flags s
  obtain ⟨c0, c1, c2⟩ := configWord_flags s
  have reads : ∀ a : BitVec 10, a.toNat % 4 = 0 → s.Reads4 a (s.windowWord a.toNat) := fun _ => hostRead_four s
  refine ⟨reads _ rfl,
    ⟨_, reads _ rfl, hcode, hcode, hcode, hcode, hcode, hcode, hcode, hcode, b4, b5, b6, b7, b8, b9, b10, b11,
      statusWord_rest s⟩,
    ⟨_, reads _ rfl, packBytes_low _ _, packBytes_high _ _, packBytes_rest _ _⟩,
    ⟨_, reads _ rfl, packHalves_lo _ _, packHalves_hi _ _⟩,
    ⟨_, reads _ rfl, packBytes_low _ _, packBytes_high _ _, packBytes_rest _ _⟩,
    ⟨_, reads _ rfl, packHalves_lo _ _, packHalves_hi _ _⟩,
    ⟨_, reads _ rfl, packHalves_lo _ _, packHalves_hi _ _⟩,
    ⟨_, reads _ rfl, packHalves_lo _ _, packHalves_hi _ _⟩,
    ⟨_, reads _ rfl, packHalves_lo _ _, packHalves_hi _ _⟩,
    ⟨_, reads _ rfl, packHalves_lo _ _, packHalves_hi _ _⟩,
    ⟨_, reads _ rfl, c0, c1, c2, configWord_rest s⟩,
    fun i hmax h768 => ?_, fun a => reads1_unassigned s, fun a => reads4_unassigned s, rxCount_toNat, plen_toNat,
    fun h => if_neg (by omega)⟩
  have hbyte : s.windowFrameByte i = if i < s.accLen.toNat then s.frameByte i else 0x00#8 := by
    simp [State.windowFrameByte, hmax]
  rw [← hbyte]
  exact reads1_frame s (by rw [BitVec.toNat_ofNat]; omega)

end Sys2Proof.Machine
end

section
/-! PROOF. The state family, part 4: how long the results of a transaction stay (spec/10_state.md R53, spec/
41_frame_assembler.md R131). -/

namespace Sys2Proof.Machine

/-! ### A transaction that ends without a frame -/

/-- In TIMED_OUT and FAILED there is no frame (R42, R53). -/
def State.NoFrameWhenEnded (s : State) : Prop :=
  s.faState = .timedOut ∨ s.faState = .failed → s.resultLen = noFrame

theorem noFrameWhenEnded_of_busy {s : State} (hb : s.busy = true) : s.NoFrameWhenEnded := by
  rintro (h | h) <;> simp [State.busy, h, FaState.isBusy] at hb

/-- START ends a transaction at once only with the sentinel length (R133, R134). -/
theorem execStart_noFrameWhenEnded {v : Half} {s t : State} (h : exec (.start v) s = .next t) :
    t.NoFrameWhenEnded := by
  simp only [exec, execStart] at h
  split at h
  · split at h <;> obtain rfl := Host.Outcome.next.inj h
    · exact fun _ => rfl
    · exact noFrameWhenEnded_of_busy rfl
  · obtain rfl := Host.Outcome.next.inj h
    exact fun _ => rfl

/-- The consume event ends a transaction without a frame only by the fourth row of R91 (R142). -/
theorem consumePhase_noFrameWhenEnded {s t : State} (hs : s.NoFrameWhenEnded) (h : consumePhase s = .next t) :
    t.NoFrameWhenEnded := by
  rcases consumePhase_effect h with ⟨rfl, -⟩ | ⟨b, rest, -, -, -, hc⟩
  · exact hs
  · cases hc with
    | wait | more => exact hs
    | rowFailed => exact fun _ => rfl
    | complete => rintro (h | h) <;> cases h
    | row3 | row16 | rowException | rowStall | byteCount | restart | hold => exact noFrameWhenEnded_of_busy rfl

theorem enqueuePhase_noFrameWhenEnded (rx : Option Byte) {s : State} (hs : s.NoFrameWhenEnded) :
    (enqueuePhase rx s).NoFrameWhenEnded := by
  rw [(enqueuePhase_frame rx s).2]
  exact hs

/-- The deadline ends a transaction with the sentinel length (R150). -/
theorem tickPhase_noFrameWhenEnded (tick : Bool) {s : State} (hs : s.NoFrameWhenEnded) :
    (tickPhase tick s).NoFrameWhenEnded := by
  rcases tickPhase_cases tick s with ⟨h, -⟩ | ⟨-, -, -, h⟩ | ⟨-, -, -, h⟩ <;> rw [h]
  · exact hs
  · exact hs
  · exact fun _ => rfl

/-- A step of a transaction in flight, or one that accepts START, ends it without a frame only with the sentinel
length. -/
theorem step_noFrameWhenEnded {s t : State} (hrst : s.nextInput.rst = false) (h : step s = .next t)
    (hs : s.busy = true ∨ ∃ v, s.accepted = some (.start v)) : t.NoFrameWhenEnded := by
  obtain ⟨-, -, s1, s2, h1, h2, rfl⟩ := step_phases h hrst
  have hs1 : s1.NoFrameWhenEnded := by
    rcases commandPhase_accepted hrst h1 with ⟨rfl, hnone⟩ | ⟨w, hfree, -, ha, he⟩
    · rcases hs with hb | ⟨v, hv⟩
      · exact noFrameWhenEnded_of_busy hb
      · simp [hnone] at hv
    · rcases hs with hb | ⟨v, hv⟩
      · simp [hfree] at hb
      · rw [show decodeCommand w = .start v from Option.some.inj (ha.symm.trans hv)] at he
        exact execStart_noFrameWhenEnded he
  exact tickPhase_noFrameWhenEnded _ (enqueuePhase_noFrameWhenEnded _ (consumePhase_noFrameWhenEnded hs1 h2))

/-! ### Results that stay -/

/-- What the command `cmd`, when it is no START, leaves of the results from `s` to `t`: VALIDATE alone writes the result
fields, FRM_CLEAR and FRM_PUSH alone the frame. -/
structure ResultsKept (cmd : Option Instr) (s t : State) : Prop where
  faState : t.faState = s.faState
  result : cmd ≠ some .validate → t.resultLen = s.resultLen ∧ t.resultCode = s.resultCode ∧ t.excRaw = s.excRaw
  frame : cmd ≠ some .frmClear → (∀ b, cmd ≠ some (.frmPush b)) →
    t.frame = s.frame ∧ t.accLen = s.accLen ∧ t.expLen = s.expLen

theorem ResultsKept.refl (cmd : Option Instr) (s : State) : ResultsKept cmd s s :=
  ⟨rfl, fun _ => ⟨rfl, rfl, rfl⟩, fun _ _ => ⟨rfl, rfl, rfl⟩⟩

/-- Every command but START keeps the results that are not its own to write. -/
theorem exec_resultsKept {w : Word} {s t : State} (hst : ∀ v, decodeCommand w ≠ .start v)
    (h : exec (decodeCommand w) s = .next t) : ResultsKept (some (decodeCommand w)) s t := by
  obtain ⟨n1, n2, n3, n4⟩ := decodeCommand_ne_response w
  generalize decodeCommand w = i at *
  have hkept := ResultsKept.refl (some i) s
  cases i with
  | start v => exact absurd rfl (hst v)
  | rspFcReadHolding => exact absurd rfl n1
  | rspFcWriteMultiple => exact absurd rfl n2
  | rspFcException f => exact absurd rfl (n3 f)
  | rspFcOther f => exact absurd rfl (n4 f)
  | validate =>
    obtain rfl := Host.Outcome.next.inj h
    exact { hkept with result := fun hne => absurd rfl hne }
  | frmClear =>
    obtain rfl := Host.Outcome.next.inj h
    exact { hkept with frame := fun hne => absurd rfl hne }
  | frmPush b =>
    simp only [exec, execFrmPush] at h
    split at h <;> obtain rfl := Host.Outcome.next.inj h
    · exact { hkept with frame := fun _ hne => absurd rfl (hne b) }
    · exact { hkept with faState := rfl }
  | init | close =>
    simp only [exec, execInit, execClose] at h
    split at h <;> obtain rfl := Host.Outcome.next.inj h <;> exact { hkept with faState := rfl }
  | nop | crcInit | crcByte | crcVerify | setReq | doneAck | cfgSet | flagsClr | rxClear | reserved =>
    obtain rfl := Host.Outcome.next.inj h
    exact { hkept with faState := rfl }

/-- After its command a free block only takes a received byte into the FIFO. -/
theorem afterCommand_free (inp : CycleIn) {s : State} (hb : s.busy = false) :
    afterCommand inp s = .next (enqueuePhase inp.rx s) := by
  have hcons : s.faState.isConsuming = false := by
    by_contra hc
    simp [busy_of_isConsuming (Bool.eq_true_of_not_eq_false hc)] at hb
  have hb' : (enqueuePhase inp.rx s).busy = false := by rw [(enqueuePhase_frame _ _).2]; exact hb
  rw [afterCommand, consumePhase_idle (.inl hcons), andThen_next, tickPhase, hb', Bool.and_false]
  rfl

/-- A step of a free block that accepts no START keeps the results that its command does not write. -/
theorem step_resultsKept {s t : State} (hb : s.busy = false) (hrst : s.nextInput.rst = false)
    (hst : ∀ v, s.accepted ≠ some (.start v)) (h : step s = .next t) : ResultsKept s.accepted s t := by
  obtain ⟨-, -, s1, s2, h1, h2, rfl⟩ := step_phases h hrst
  have hkept : ResultsKept s.accepted s.beginCycle s1 := by
    rcases commandPhase_accepted hrst h1 with ⟨rfl, -⟩ | ⟨w, -, -, ha, he⟩
    · exact .refl _ _
    · rw [ha] at hst ⊢
      exact exec_resultsKept (fun v hv => hst v (congrArg some hv)) he
  have hb1 : s1.busy = false := by rw [State.busy, hkept.faState]; exact hb
  have hphases : afterCommand s.nextInput s1 = .next _ := andThen_eq_next.2 ⟨s2, h2, rfl⟩
  rw [afterCommand_free _ hb1] at hphases
  rw [← Host.Outcome.next.inj hphases, (enqueuePhase_frame _ _).2]
  exact { hkept with faState := hkept.faState }

/-- Settles O47: the cycle that ends without a frame by `step_noFrameWhenEnded`; later cycles by `step_resultsKept`, and
the latched request by `step_writtenOnlyBy`. -/
theorem resultsStayUntilOverwritten : Obligations.ResultsStayUntilOverwritten := by
  refine ⟨fun s t _ hrst h hs hend => ⟨hend, step_noFrameWhenEnded hrst h hs hend⟩, ?_, ?_⟩
  · intro s t ⟨hend, hlen⟩ hrst h hval hst
    have hb : s.busy = false := by rcases hend with hs | hs <;> simp [State.busy, hs, FaState.isBusy]
    have hkept := step_resultsKept hb hrst hst h
    obtain ⟨hlen', -, -⟩ := hkept.result hval
    exact ⟨hkept.faState ▸ hend, hlen'.trans hlen⟩
  · intro s t ⟨hs, hlen, hexp, h5, haddr, hfc⟩ hrst h hclr hpush hval hst hset
    have hb : s.busy = false := by simp [State.busy, hs, FaState.isBusy]
    have hkept := step_resultsKept hb hrst hst h
    obtain ⟨hrl, hrc, hexc⟩ := hkept.result hval
    obtain ⟨hframe, hacc, hexp'⟩ := hkept.frame hclr hpush
    have hreq : t.reqAddr = s.reqAddr ∧ t.reqFc = s.reqFc := by
      by_contra hne
      exact hset _ _ ((step_writtenOnlyBy hrst h).request (not_and_or.1 hne))
    have hbyte : t.frameByte = s.frameByte := by unfold State.frameByte; rw [hframe]
    refine ⟨⟨hkept.faState.trans hs, ?_, ?_, ?_, ?_, ?_⟩, hrc, hexc, ?_⟩
    · rw [hrl, hacc, hlen]
    · rw [hacc, hexp', hexp]
    · rw [hacc]; exact h5
    · rw [hbyte, hreq.1, haddr]
    · rw [hbyte, hreq.2, hfc]
    · unfold State.frameBytes; rw [hacc, hbyte]

/-! ### R53 to the letter -/

/-- After SET_REQ 0x01, 0x03 and START 500 the response `01 03 00 20 F0` has completed, and the host now presents
SET_REQ 0x02, 0x03. -/
def completedThenSetReq : State :=
  { State.reset with
    inited := true, faState := .complete, done := true, toEff := 500#16, reqAddr := 0x01#8, reqFc := 0x03#8
    frame := [(0, 0x01#8), (1, 0x03#8), (3, 0x20#8), (4, 0xF0#8)], accLen := 5#16, expLen := 5#16, resultLen := 5#16
    inputs := [CycleIn.ofCommand 0x20000302#32] }

/-- The block accepts the new request in COMPLETE, and REQ_ADDR no longer is the frame's first byte (R131, log 14). -/
theorem completedThenSetReq_step :
    completedThenSetReq.accepted = some (.setReq 0x02#8 0x03#8) ∧
    ∃ t, step completedThenSetReq = .next t ∧ t.frameByte 0 = 0x01#8 ∧ t.reqAddr = 0x02#8 :=
  ⟨by decide, _, rfl, by decide, by decide⟩

/-- Refutes O48: SET_REQ is none of the four commands of R53, and after it FRAME[0] differs from REQ_ADDR. -/
theorem not_completedFrameStaysToTheLetter : ¬ Obligations.CompletedFrameStaysToTheLetter := by
  intro h
  obtain ⟨hacc, t, hstep, hbyte, haddr⟩ := completedThenSetReq_step
  have hinv : completedThenSetReq.Inv := by decide
  have hfresh : completedThenSetReq.FreshComplete := by decide
  obtain ⟨-, -, -, -, heq, -⟩ := h completedThenSetReq t hinv hfresh rfl hstep (by simp [hacc]) (by simp [hacc])
    (by simp [hacc]) (by simp [hacc])
  rw [hbyte, haddr] at heq
  exact absurd heq (by decide)

end Sys2Proof.Machine
end

section
/-! PROOF. The memory family: the host's reads of the register window (spec/20_memory.md R60 to R68), what they answer,
which of them are refused, and that they change no state. -/

namespace Sys2Proof.Machine

/-! ### Frame bytes in the window (R65) -/

/-- With ACC_LEN inside the frame buffer, the window shows exactly the valid frame bytes. -/
theorem windowFrameByte_of_accLen_le {s : State} (h : s.accLen.toNat ≤ s.params.frameMax) (i : Nat) :
    s.windowFrameByte i = if i < s.accLen.toNat then s.frameByte i else 0x00#8 := by
  have hiff : (i < s.params.frameMax ∧ i < s.accLen.toNat) ↔ i < s.accLen.toNat := by omega
  rw [State.windowFrameByte, if_congr hiff rfl rfl]

/-- The 10-bit offset of frame byte i does not wrap inside the window. -/
theorem frameOffset_toNat {i : Nat} (h : i < 768) : (BitVec.ofNat 10 (0x100 + i)).toNat = 0x100 + i := by
  rw [BitVec.toNat_ofNat]
  omega

/-- The aligned 4-byte read at 0x100 + 4j answers the four frame bytes from 4j. -/
theorem reads4_frame (s : State) {j : Nat} (h : j < 192) :
    s.Reads4 (BitVec.ofNat 10 (0x100 + 4 * j)) (s.frameWord (4 * j)) := by
  have haddr := frameOffset_toNat (i := 4 * j) (by omega)
  rw [State.Reads4, hostRead_four s (by omega), haddr, windowWord_frame s (by omega), Nat.add_sub_cancel_left]

/-- Settles O5: a frame byte and a frame word are read through the window's frame bytes, which below FRAME_MAX are the
valid bytes of the frame. -/
theorem frameWordReadsFourBytes : Obligations.FrameWordReadsFourBytes := by
  intro s hacc
  refine ⟨fun i _ h768 => ?_, fun j hj => ⟨_, reads4_frame s hj, fun k hk => ?_⟩, frameBytes_length s,
    fun i => frameBytes_getElem? s⟩
  · rw [← windowFrameByte_of_accLen_le hacc]
    exact reads1_frame s (frameOffset_toNat h768)
  · rw [← windowFrameByte_of_accLen_le hacc]
    exact wordByte_frameWord s (4 * j) hk

/-! ### Which reads are refused (R62, R63, R64) -/

/-- The offset of the word that holds the byte at offset a. -/
theorem wordOffset_toNat (a : BitVec 10) : (a - BitVec.ofNat 10 (a.toNat % 4)).toNat = a.toNat - a.toNat % 4 := by
  rw [BitVec.toNat_sub, BitVec.toNat_ofNat]
  have hlt : a.toNat < 2 ^ 10 := a.isLt
  omega

/-- R63's two reasons: another size than 1 or 4, or a misaligned 4-byte read. -/
theorem refused_iff (r : HostRead) :
    r.refused = true ↔ (r.size ≠ 1#3 ∧ r.size ≠ 4#3) ∨ (r.size = 4#3 ∧ r.addr.toNat % 4 ≠ 0) := by
  simp [HostRead.refused]

/-- A read gets no data exactly when it is refused. -/
theorem hostRead_eq_none_iff (s : State) (r : HostRead) : s.hostRead r = none ↔ r.refused = true := by
  cases href : r.refused with
  | true => simp [State.hostRead, href]
  | false =>
    simp only [State.hostRead, href, Bool.false_eq_true, if_false, iff_false]
    split <;> exact Option.some_ne_none _

/-- A cycle with a read is refused exactly by that read. -/
theorem refusedRead_of_read {inp : CycleIn} {r : HostRead} (h : inp.read = some r) :
    inp.refusedRead = if r.refused then some r else none := by
  rw [CycleIn.refusedRead, h]

/-- A legal machine refuses no cycle whose read is allowed. -/
theorem step_ne_refused {s : State} (hl : s.params.legal = true) (hr : s.ReadAllowed) (q : Refusal) :
    step s ≠ .refused q := by
  intro h
  rw [step_eq hl hr] at h
  split at h
  · cases h
  · obtain ⟨s1, h1⟩ := commandPhase_next s.nextInput.cmd s.beginCycle
    rw [h1, andThen_next] at h
    rcases andThen_eq_refused.1 h with h | ⟨s2, -, h⟩
    · exact consumePhase_ne_refused s1 q h
    · cases h

/-- The whole cycle of a legal machine is refused exactly when its read is (log 4). -/
theorem step_refused_iff {s : State} {r : HostRead} (hl : s.params.legal = true) (hread : s.nextInput.read = some r) :
    step s = .refused (.hostRead r) ↔ r.refused = true := by
  have hcycle := refusedRead_of_read hread
  cases href : r.refused with
  | true => simpa using step_refusedRead hl (by rw [hcycle, href]; rfl)
  | false => simpa using step_ne_refused hl (show s.ReadAllowed by rw [State.ReadAllowed, hcycle, href]; rfl) _

/-- Settles O6: the answer of a 1-byte read by `hostRead_one`, the refused reads by `refused_iff`. -/
theorem hostReadSizesAndAlignment : Obligations.HostReadSizesAndAlignment := by
  intro s
  refine ⟨fun a => ⟨s.windowWord (a.toNat - a.toNat % 4), ?_, hostRead_one s a⟩,
    fun r => (hostRead_eq_none_iff s r).trans (refused_iff r),
    fun hl r hread => (step_refused_iff hl hread).trans (refused_iff r)⟩
  rw [State.Reads4, hostRead_four s (by rw [wordOffset_toNat]; omega), wordOffset_toNat]

/-! ### The output ports are written once a cycle and read by no phase -/

/-- A state with other output ports. -/
def State.withOut (o : PortOut) (s : State) : State := { s with out := o }

/-- An outcome whose next state has other output ports. -/
def outcomeWithOut (o : PortOut) (r : Out) : Out := andThen r fun t => .next (t.withOut o)

@[simp] theorem outcomeWithOut_next (o : PortOut) (t : State) : outcomeWithOut o (.next t) = .next (t.withOut o) := rfl

/-- Chaining commutes with replacing the output ports when both parts do. -/
theorem outcomeWithOut_andThen (o : PortOut) (r : Out) {f : State → Out}
    (hf : ∀ t, f (t.withOut o) = outcomeWithOut o (f t)) :
    andThen (outcomeWithOut o r) f = outcomeWithOut o (andThen r f) := by
  cases r with
  | next t => exact hf t
  | fault _ => rfl
  | refused _ => rfl

/-- The meaning of an instruction does not depend on the output ports. -/
theorem exec_withOut (i : Instr) (o : PortOut) (s : State) : exec i (s.withOut o) = outcomeWithOut o (exec i s) := by
  cases i
  case frmPush b => simp only [exec, execFrmPush, apply_ite (outcomeWithOut o)]; rfl
  case start v => simp only [exec, execStart, apply_ite (outcomeWithOut o)]; rfl
  case init d => simp only [exec, execInit, apply_ite (outcomeWithOut o)]; rfl
  case close => simp only [exec, execClose, apply_ite (outcomeWithOut o)]; rfl
  case rspFcOther f => simp only [exec, execRspFcOther, apply_ite (outcomeWithOut o)]; rfl
  all_goals rfl

theorem commandPhase_withOut (cmd : Option Word) (o : PortOut) (s : State) :
    commandPhase cmd (s.withOut o) = outcomeWithOut o (commandPhase cmd s) := by
  cases cmd with
  | none => rfl
  | some w => simp only [commandPhase, exec_withOut, apply_ite (outcomeWithOut o)]; rfl

theorem bodyStep_withOut (o : PortOut) (s : State) : bodyStep (s.withOut o) = (bodyStep s).withOut o := by
  simp only [bodyStep, mismatchFrame, apply_ite (State.withOut o)]; rfl

theorem consumedStep_withOut (o : PortOut) (s : State) :
    consumedStep (s.withOut o) = outcomeWithOut o (consumedStep s) := by
  have hstate : (s.withOut o).faState = s.faState := rfl
  unfold consumedStep
  rw [hstate]
  cases s.faState
  case hdr => simp only [headerStep, exec_withOut, apply_ite (outcomeWithOut o)]; rfl
  case body => exact congrArg Host.Outcome.next (bodyStep_withOut o s)
  all_goals rfl

theorem consumePhase_withOut (o : PortOut) (s : State) :
    consumePhase (s.withOut o) = outcomeWithOut o (consumePhase s) := by
  have hfifo : (s.withOut o).fifo = s.fifo := rfl
  unfold consumePhase
  rw [hfifo]
  cases s.fifo with
  | nil => simp only [apply_ite (outcomeWithOut o)]; rfl
  | cons b rest =>
    have htake : consumedStep (State.appendByte { s.withOut o with fifo := rest } b) =
        outcomeWithOut o (consumedStep (State.appendByte { s with fifo := rest } b)) :=
      consumedStep_withOut o (State.appendByte { s with fifo := rest } b)
    simp only [htake, apply_ite (outcomeWithOut o)]; rfl

theorem enqueuePhase_withOut (rx : Option Byte) (o : PortOut) (s : State) :
    enqueuePhase rx (s.withOut o) = (enqueuePhase rx s).withOut o := by
  cases rx with
  | none => rfl
  | some b => simp only [enqueuePhase, apply_ite (State.withOut o)]; rfl

theorem tickPhase_withOut (tick : Bool) (o : PortOut) (s : State) :
    tickPhase tick (s.withOut o) = (tickPhase tick s).withOut o := by
  simp only [tickPhase, apply_ite (State.withOut o)]; rfl

theorem afterCommand_withOut (inp : CycleIn) (o : PortOut) (s : State) :
    afterCommand inp (s.withOut o) = outcomeWithOut o (afterCommand inp s) := by
  unfold afterCommand
  rw [consumePhase_withOut]
  refine outcomeWithOut_andThen o _ fun t => ?_
  rw [enqueuePhase_withOut, tickPhase_withOut, outcomeWithOut_next]

/-! ### A read has no side effect (R68) -/

/-- The cycle with another read in it, or with none, answers the same but for the data port. -/
theorem step_withRead {s : State} {i : CycleIn} {rest : List CycleIn} (hin : s.inputs = i :: rest)
    (hi : i.refusedRead = none) (rd : Option HostRead) (hrd : CycleIn.refusedRead { i with read := rd } = none) :
    step { s with inputs := { i with read := rd } :: rest } =
      outcomeWithOut { portOut s.nextInput s with rdData := rd.bind s.hostRead } (step s) := by
  have hnext : s.nextInput = i := by rw [State.nextInput, hin]; rfl
  cases hl : s.params.legal with
  | false => rw [step_illegal hl, step_illegal (by exact hl)]; rfl
  | true =>
    have hbegin : State.beginCycle { s with inputs := { i with read := rd } :: rest } =
        s.beginCycle.withOut { portOut s.nextInput s with rdData := rd.bind s.hostRead } := by
      simp only [State.beginCycle, State.dropInput, hnext, hin]; rfl
    rw [step_eq hl (by rw [State.ReadAllowed, hnext]; exact hi), step_eq (by exact hl) (by exact hrd), hbegin,
      commandPhase_withOut, outcomeWithOut_andThen _ _ (afterCommand_withOut _ _), hnext,
      apply_ite (outcomeWithOut _)]
    rfl

/-- A cycle that accepts no command, consumes and receives no byte and has no tick keeps every field (R50). -/
theorem step_quiet {s : State} (hl : s.params.legal = true) (hr : s.ReadAllowed) (hrst : s.nextInput.rst = false)
    (ha : s.accepted = none) (hc : s.faState.isConsuming = false ∨ s.fifo = []) (hrx : s.nextInput.rx = none)
    (ht : s.nextInput.tick = false) : step s = .next s.beginCycle := by
  obtain ⟨s1, h1⟩ := commandPhase_next s.nextInput.cmd s.beginCycle
  obtain ⟨rfl, -⟩ | ⟨w, -, -, hw, -⟩ := commandPhase_accepted hrst h1
  · rw [step_eq_phases hl hr hrst, h1, andThen_next, afterCommand, consumePhase_idle (by exact hc), hrx, ht]
    rfl
  · rw [ha] at hw
    cases hw

/-- Settles O7: adding or removing the read by `step_withRead`, with the data port that `step_out` gives; the idle cycle
by `step_quiet`. -/
theorem hostReadsHaveNoSideEffect : Obligations.HostReadsHaveNoSideEffect := by
  refine ⟨fun s i rest hin hi => ⟨fun t h => ?_, fun t h => ?_⟩, fun s => hostRead_four s rfl,
    fun s hl hr hrst ha hc hrx ht => ⟨_, step_quiet hl hr hrst ha hc hrx ht⟩⟩
  · rw [step_withRead hin hi none rfl, h, step_out h]
    rfl
  · have hself : s = { s with inputs := { i with read := i.read } :: rest } := by rw [← hin]
    have hadd := step_withRead (s := { s with inputs := { i with read := none } :: rest }) rfl rfl i.read hi
    rw [h, ← step_out h] at hadd
    rw [hself]
    exact hadd

end Sys2Proof.Machine
end

section
/-! PROOF. The encoding family, part 1: the decoder against the encoder (spec/30_encoding.md R80 to R84) and the rows of
the response function-code decode (R91, R92). -/

namespace Sys2Proof.Machine

/-! ### The rows of the response decode -/

/-- Row 3 is taken exactly by the exception code of the latched request; no sum REQ_FC + 0x80 is one of the two codes
of the rows before it. -/
theorem decodeResponse_eq_exception_iff (reqFc f : Byte) :
    decodeResponse reqFc f = .rspFcException f ↔ f.toNat = reqFc.toNat + 0x80 := by
  rcases decodeResponse_cases reqFc f with ⟨rfl, h⟩ | ⟨rfl, h⟩ | ⟨-, -, he, h⟩ | ⟨-, -, he, h⟩ <;> rw [h]
  · exact iff_of_false nofun (by simp only [BitVec.toNat_ofNat]; omega)
  · exact iff_of_false nofun (by simp only [BitVec.toNat_ofNat]; omega)
  · exact iff_of_true rfl he
  · exact iff_of_false nofun he

/-- Row 4 is taken by what the first three rows leave. -/
theorem decodeResponse_eq_other_iff (reqFc f : Byte) :
    decodeResponse reqFc f = .rspFcOther f ↔ f ≠ 0x03#8 ∧ f ≠ 0x10#8 ∧ f.toNat ≠ reqFc.toNat + 0x80 := by
  rcases decodeResponse_cases reqFc f with ⟨h3, h⟩ | ⟨h16, h⟩ | ⟨-, -, he, h⟩ | ⟨h3, h16, he, h⟩ <;> rw [h]
  · exact iff_of_false nofun fun ⟨n3, _⟩ => n3 h3
  · exact iff_of_false nofun fun ⟨_, n16, _⟩ => n16 h16
  · exact iff_of_false nofun fun ⟨_, _, ne⟩ => ne he
  · exact iff_of_true rfl ⟨h3, h16, he⟩

theorem decodeResponse_eq_readHolding_iff (reqFc f : Byte) :
    decodeResponse reqFc f = .rspFcReadHolding ↔ f = 0x03#8 := by
  rcases decodeResponse_cases reqFc f with ⟨h3, h⟩ | ⟨rfl, h⟩ | ⟨h3, -, -, h⟩ | ⟨h3, -, -, h⟩ <;> rw [h]
  · exact iff_of_true rfl h3
  · exact iff_of_false nofun (by decide)
  · exact iff_of_false nofun h3
  · exact iff_of_false nofun h3

theorem decodeResponse_eq_writeMultiple_iff (reqFc f : Byte) :
    decodeResponse reqFc f = .rspFcWriteMultiple ↔ f = 0x10#8 := by
  rcases decodeResponse_cases reqFc f with ⟨rfl, h⟩ | ⟨h16, h⟩ | ⟨-, h16, -, h⟩ | ⟨-, h16, -, h⟩ <;> rw [h]
  · exact iff_of_false nofun (by decide)
  · exact iff_of_true rfl h16
  · exact iff_of_false nofun h16
  · exact iff_of_false nofun h16

/-- For a request code up to 0x7F the sum of R92 is the code with its high bit set. -/
theorem toNat_or_0x80 {c : Byte} (h : c.toNat ≤ 0x7F) : (c ||| 0x80#8).toNat = c.toNat + 0x80 := by
  have hsum : 2 ^ 7 * 1 + c.toNat = 2 ^ 7 * 1 ||| c.toNat := Nat.two_pow_add_eq_or_of_lt (by omega) 1
  rw [BitVec.toNat_or, Nat.or_comm]
  exact hsum.symm.trans (Nat.add_comm _ _)

/-! ### The validator's exception test -/

/-- A frame that is long enough and whose CRC agrees is judged by the exception test alone (R170). -/
theorem classify_of_verify (codes : List Byte) (fc : Byte) {s : List Byte} (hlen : 4 ≤ s.length)
    (hv : verify s = true) :
    classify codes fc s =
      if isExceptionFc fc (s.getD 1 0#8) then (decodeExc codes (s.getD 2 0#8), s.getD 2 0#8) else (0x00#8, 0x00#8) := by
  rw [classify, if_neg (by omega), hv]
  rfl

/-- Settles O17: each row by its lemma, and the validator's test by `classify_of_verify`, which asks the same question
as row 3. -/
theorem responseFunctionCodeRows : Obligations.ResponseFunctionCodeRows := by
  intro reqFc f
  have hlt : f.toNat < 2 ^ 8 := f.isLt
  have hexc := decodeResponse_eq_exception_iff reqFc f
  have htest : isExceptionFc reqFc f = true ↔ decodeResponse reqFc f = .rspFcException f :=
    beq_iff_eq.trans hexc.symm
  refine ⟨decodeResponse_eq_readHolding_iff reqFc f, decodeResponse_eq_writeMultiple_iff reqFc f, hexc,
    decodeResponse_eq_other_iff reqFc f, fun h => hexc.not.2 (by omega), fun h => ?_, fun codes s hlen hv hf => ?_⟩
  · rw [← toNat_or_0x80 h, BitVec.toNat_inj]
  · rw [classify_of_verify codes reqFc hlen hv, hf]
    exact ⟨fun h => if_pos (htest.2 h), fun h => if_neg (htest.not.2 h)⟩

/-! ### Decode after encode -/

/-- Settles O13: each word is decoded by evaluation. -/
theorem specWordsDecode : Obligations.SpecWordsDecode := by
  and_intros <;> decide

/-- A reserved opcode takes the decoder's last row (R84). -/
theorem decodeCommand_of_reserved {w : Word} (h : isReservedOpc (opcOf w) = true) :
    decodeCommand w = .reserved (opcOf w) := by
  unfold decodeCommand
  split
  case h_16 => rfl
  all_goals
    rename_i hopc
    rw [hopc] at h
    exact absurd h (by decide)

/-- Every command word selects its instruction whatever REQ_FC is: REQ_FC matters to response rows only. -/
theorem decodeCommand_selectedUnder (reqFc : Byte) (w : Word) : (decodeCommand w).selectedUnder reqFc = true := by
  obtain ⟨-, -, h3, h4⟩ := decodeCommand_ne_response w
  cases h : decodeCommand w with
  | rspFcException f => exact absurd h (h3 f)
  | rspFcOther f => exact absurd h (h4 f)
  | _ => rfl

/-- The decoder reads back every operand the encoder writes. -/
theorem decode_encode {reqFc : Byte} {i : Instr} (hwf : i.wellFormed = true) (hsel : i.selectedUnder reqFc = true) :
    decode reqFc (encode i) = i := by
  cases i with
  | reserved opc =>
    have hopc : isReservedOpc (opcOf (commandWord opc 0#16)) = true := by rwa [opcOf_commandWord]
    simpa [decode, encode] using decodeCommand_of_reserved hopc
  | rspFcReadHolding | rspFcWriteMultiple => rfl
  | rspFcException f => exact (decodeResponse_eq_exception_iff reqFc f).2 (beq_iff_eq.1 hsel)
  | rspFcOther f =>
    simp only [Instr.wellFormed, Bool.and_eq_true, bne_iff_ne] at hwf
    exact (decodeResponse_eq_other_iff reqFc f).2 ⟨hwf.1, hwf.2, bne_iff_ne.1 hsel⟩
  | _ => simp [decode, encode, decodeCommand]

/-- Every encoding decodes to a well-formed instruction that its REQ_FC selects. -/
theorem decode_wellFormed (reqFc : Byte) (e : Encoded) :
    (decode reqFc e).wellFormed = true ∧ (decode reqFc e).selectedUnder reqFc = true := by
  cases e with
  | cmd32 w => exact ⟨decodeCommand_wellFormed w, decodeCommand_selectedUnder reqFc w⟩
  | rxFc8 f => exact decodeResponse_wellFormed reqFc f

/-- Settles O14: `decode_encode`, and its use on what `decode` answers, which `decode_wellFormed` admits. -/
theorem decodeInvertsEncode : Obligations.DecodeInvertsEncode := by
  refine ⟨fun reqFc i hwf hsel => decode_encode hwf hsel, fun reqFc e => ?_⟩
  obtain ⟨hwf, hsel⟩ := decode_wellFormed reqFc e
  exact ⟨hwf, hsel, decode_encode hwf hsel⟩

/-! ### The ignored bits (R82) -/

/-- A command word is its fields OPC, RSV and ARG (R80). -/
theorem word_eq_append (w : Word) : w = opcOf w ++ (w.extractLsb' 16 8 ++ argOf w) := by
  have hlow : w.extractLsb' 16 8 ++ argOf w = w.extractLsb' 0 24 :=
    BitVec.extractLsb'_append_extractLsb'_eq_extractLsb' rfl
  have hall : opcOf w ++ w.extractLsb' 0 24 = w.extractLsb' 0 32 :=
    BitVec.extractLsb'_append_extractLsb'_eq_extractLsb' rfl
  rw [hlow, hall, BitVec.extractLsb'_eq_self]

/-- A mask that keeps OPC, drops RSV and keeps the bits `m` of ARG. -/
theorem and_commandWord (w : Word) (m : Half) :
    w &&& commandWord 0xFF#8 m = commandWord (opcOf w) (argOf w &&& m) := by
  have hopc : opcOf w &&& 0xFF#8 = opcOf w := BitVec.and_allOnes
  have hrsv : w.extractLsb' 16 8 &&& 0x00#8 = 0x00#8 := BitVec.and_zero
  conv_lhs => rw [word_eq_append w]
  rw [commandWord, BitVec.and_append, BitVec.and_append, hopc, hrsv, commandWord]

/-- The used bits of every opcode are such a mask. -/
theorem usedBits_eq_commandWord (opc : Byte) : usedBits opc = commandWord 0xFF#8 (argOf (usedBits opc)) := by
  unfold usedBits
  split_ifs <;> rfl

/-- A word without its ignored bits: RSV is 0 and ARG keeps the bits its opcode uses. -/
theorem and_usedBits (w : Word) :
    w &&& usedBits (opcOf w) = commandWord (opcOf w) (argOf w &&& argOf (usedBits (opcOf w))) := by
  conv_lhs => rw [usedBits_eq_commandWord]
  exact and_commandWord w _

/-- A word that keeps its low `n` bits only. -/
theorem zero_append_extractLsb' {m n : Nat} (a : BitVec (m + n)) :
    0#m ++ a.extractLsb' 0 n = a &&& (0#m ++ BitVec.allOnes n) := by
  ext i h
  by_cases hn : i < n <;> simp [BitVec.getElem_append, BitVec.getLsbD_eq_getElem h, hn]

theorem zero_append_argLow (a : Half) : 0x00#8 ++ argLow a = a &&& 0x00FF#16 :=
  zero_append_extractLsb' (m := 8) (n := 8) a

theorem zero_append_argBits (a : Half) : 0x0000#13 ++ argBits a = a &&& 0x0007#16 :=
  zero_append_extractLsb' (m := 13) (n := 3) a

theorem argHigh_append_argLow (a : Half) : argHigh a ++ argLow a = a := by
  have h : argHigh a ++ argLow a = a.extractLsb' 0 16 := BitVec.extractLsb'_append_extractLsb'_eq_extractLsb' rfl
  rw [h, BitVec.extractLsb'_eq_self]

/-- The encoder writes the used bits of an assigned command as they stand and the ignored bits 0 (log 12). The cases are
the rows of R83, by what of ARG they use: nothing, ARG[7:0], ARG[15:8] and ARG[7:0], ARG[15:0], ARG[2:0]. -/
theorem encode_decodeCommand {w : Word} (h : isReservedOpc (opcOf w) = false) :
    encode (decodeCommand w) = .cmd32 (w &&& usedBits (opcOf w)) := by
  have hnone : argOf w &&& 0x0000#16 = 0x0000#16 := BitVec.and_zero
  have hall : argOf w &&& 0xFFFF#16 = argOf w := BitVec.and_allOnes
  have word : ∀ {a b : Half} (opc : Byte), a = b → Encoded.cmd32 (commandWord opc a) = .cmd32 (commandWord opc b) :=
    fun _ hab => by rw [hab]
  rw [and_usedBits]
  unfold decodeCommand
  split <;> rename_i hopc
  case h_16 =>
    -- The last row is well formed for a reserved opcode only.
    have hwf := decodeCommand_wellFormed w
    simp_all [decodeCommand, Instr.wellFormed]
  all_goals rw [hopc]
  case h_1 | h_2 | h_4 | h_5 | h_9 | h_10 | h_12 | h_15 => exact word _ hnone.symm
  case h_3 | h_6 => exact word _ (zero_append_argLow _)
  case h_7 => exact word _ ((argHigh_append_argLow _).trans hall.symm)
  case h_8 | h_11 => exact word _ hall.symm
  case h_13 | h_14 => exact word _ (zero_append_argBits _)

/-- The ignored bits reach no instruction: an assigned command is read back from its encoding, a reserved one from
OPC. -/
theorem decodeCommand_and_usedBits (w : Word) : decodeCommand (w &&& usedBits (opcOf w)) = decodeCommand w := by
  cases h : isReservedOpc (opcOf w) with
  | true =>
    have hopc : opcOf (w &&& usedBits (opcOf w)) = opcOf w := by rw [and_usedBits, opcOf_commandWord]
    rw [decodeCommand_of_reserved h, decodeCommand_of_reserved (by rw [hopc, h]), hopc]
  | false =>
    have hdec := decode_encode (reqFc := 0x00#8) (decodeCommand_wellFormed w) (decodeCommand_selectedUnder 0x00#8 w)
    rwa [encode_decodeCommand h] at hdec

/-- Settles O15: agreeing words have one masked word, which decodes as each of them. -/
theorem ignoredBitsDoNotMatter : Obligations.IgnoredBitsDoNotMatter := by
  refine ⟨fun w v hopc hused => ?_, fun w => ⟨decodeCommand_and_usedBits w, fun i hres henc => ?_⟩⟩
  · rw [← decodeCommand_and_usedBits w, hused, hopc, decodeCommand_and_usedBits v]
  · rw [encode_decodeCommand hres] at henc
    exact (Encoded.cmd32.inj henc).symm

end Sys2Proof.Machine
end

section
/-! PROOF. The encoding family, part 2: the pseudo-instructions of spec/30_encoding.md R87 run as cycles of the machine
(R86). -/

namespace Sys2Proof.Machine

/-! ### Runs over given inputs, cycle by cycle -/

/-- The state the phases of a cycle with inputs `x` begin from, `xs` the inputs still to come. -/
def State.begun (s : State) (x : CycleIn) (xs : List CycleIn) : State := State.beginCycle { s with inputs := x :: xs }

@[simp] theorem begun_params (s : State) (x : CycleIn) (xs : List CycleIn) : (s.begun x xs).params = s.params := rfl
@[simp] theorem begun_accLen (s : State) (x : CycleIn) (xs : List CycleIn) : (s.begun x xs).accLen = s.accLen := rfl

theorem begun_inv {s : State} (hi : s.Inv) (x : CycleIn) (xs : List CycleIn) : (s.begun x xs).Inv := hi

/-- A run whose first cycle has no reset and no refused read: the phases of that cycle, then the run over the rest. -/
theorem runInputs_cons_phases {s : State} {x : CycleIn} (hl : s.params.legal = true) (hrst : x.rst = false)
    (hr : x.refusedRead = none) (xs : List CycleIn) :
    runInputs (x :: xs) s =
      andThen (andThen (commandPhase x.cmd (s.begun x xs)) (afterCommand x)) (runInputs xs) := by
  rw [runInputs_cons, step_eq_phases (by exact hl) (by exact hr) (by exact hrst)]
  rfl

/-! ### A program of commands -/

/-- The cycle that presents the encoding of a command to a free block is the command's meaning (R86), for a command that
keeps FA_STATE: the block then is free in the later phases too. -/
theorem runInputs_command {i : Instr} {w : Word} (henc : encode i = .cmd32 w) (hwf : i.wellFormed = true)
    (hsel : i.selectedUnder 0x00#8 = true) {s t : State} {xs : List CycleIn} (hl : s.params.legal = true)
    (hb : s.faState.isBusy = false) (h : exec i (s.begun (CycleIn.ofCommand w) xs) = .next t)
    (hstate : t.faState = s.faState) :
    runInputs (commandCycles 0 i ++ xs) s = runInputs xs t := by
  have hcycles : commandCycles 0 i = [CycleIn.ofCommand w] := by rw [commandCycles, henc]; rfl
  have hdec : decodeCommand w = i := (congrArg (decode 0x00#8) henc).symm.trans (decode_encode hwf hsel)
  have hcmd : commandPhase (CycleIn.ofCommand w).cmd (s.begun (CycleIn.ofCommand w) xs) = .next t :=
    (commandPhase_free w (by exact hb)).trans (hdec ▸ h)
  have hfree : t.busy = false := by rw [State.busy, hstate, hb]
  rw [hcycles, List.singleton_append, runInputs_cons_phases hl rfl rfl, hcmd, andThen_next, afterCommand_free _ hfree]
  rfl

/-- CRC_BYTES feeds its bytes to the CRC register in order. -/
theorem runInputs_crcBytes (bs : List Byte) {s : State} (hl : s.params.legal = true) (hb : s.faState.isBusy = false) :
    ∃ t, runInputs ((bs.map Instr.crcByte).flatMap (commandCycles 0)) s = .next t ∧
      t.crc = bs.foldl crcStep s.crc ∧ t.faState = s.faState := by
  induction bs generalizing s with
  | nil => exact ⟨_, runInputs_nil s, rfl, rfl⟩
  | cons b bs ih =>
    rw [List.map_cons, List.flatMap_cons, runInputs_command rfl rfl rfl hl hb rfl (by rfl)]
    exact ih (by exact hl) (by exact hb)

/-- FRM_PUSH of bytes for which there is room appends them to the frame in order. -/
theorem runInputs_frmPushes (bs : List Byte) {s : State} (hl : s.params.legal = true) (hm : Memory.wf s.frame)
    (hb : s.faState.isBusy = false) (hroom : s.accLen.toNat + bs.length ≤ s.params.frameMax) :
    ∃ t, runInputs ((bs.map Instr.frmPush).flatMap (commandCycles 0)) s = .next t ∧
      t.frameBytes = s.frameBytes ++ bs ∧ t.expLen = s.expLen ∧ t.faState = s.faState := by
  induction bs generalizing s with
  | nil => exact ⟨_, runInputs_nil s, (List.append_nil _).symm, rfl, rfl⟩
  | cons b bs ih =>
    rw [List.length_cons] at hroom
    obtain ⟨-, hmax, -⟩ := legal_bounds hl
    have hpush (x xs) : exec (.frmPush b) (s.begun x xs) = .next ((s.begun x xs).appendByte b) :=
      if_pos (decide_eq_true (show s.accLen.toNat < s.params.frameMax by omega))
    have hlen : (s.accLen + 1#16).toNat = s.accLen.toNat + 1 := by simp; omega
    have hframe (x xs) : ((s.begun x xs).appendByte b).frameBytes = s.frameBytes ++ [b] :=
      appendByte_frameBytes hm (show s.accLen.toNat + 1 < 2 ^ 16 by omega) b
    have hrest (x xs) := ih (s := (s.begun x xs).appendByte b) hl (Memory.wf_write hm _ _) hb
      (by rw [appendByte_accLen, begun_accLen, hlen]; exact (Nat.add_right_comm ..).trans_le hroom)
    simp only [hframe, List.append_assoc, List.singleton_append] at hrest
    rw [List.map_cons, List.flatMap_cons, runInputs_command rfl rfl rfl hl hb (hpush _ _) (by rfl)]
    exact hrest _ _

/-- Settles O60: CRC_INIT and then `runInputs_crcBytes`, FRM_CLEAR and then `runInputs_frmPushes`. -/
theorem pseudoInstructionsRun : Obligations.PseudoInstructionsRun := by
  rintro s bs ⟨hl, ⟨hm, -⟩, -⟩ hb
  refine ⟨?_, fun hroom => ?_⟩
  · rw [Line.cycles, Pseudo.expand, List.flatMap_cons, runInputs_command rfl rfl rfl hl hb rfl (by rfl)]
    exact runInputs_crcBytes bs (by exact hl) (by exact hb)
  · rw [Line.cycles, Pseudo.expand, List.flatMap_cons, runInputs_command rfl rfl rfl hl hb rfl (by rfl)]
    exact runInputs_frmPushes bs (by exact hl) (by exact hm) (by exact hb) (by simpa using hroom)

end Sys2Proof.Machine
end

section
/-! PROOF. The encoding family, part 3: a well-formed response to the latched request (spec/30_encoding.md R88, R89) is
assembled byte by byte in idle cycles and completes with NO_ERROR (spec/41_frame_assembler.md R137 to R146). -/

namespace Sys2Proof.Machine

/-! ### Frames with their CRC -/

/-- A byte sequence with its CRC appended verifies (R118). -/
theorem verify_withCrc (b : List Byte) : verify (withCrc b) = true := by
  have hlen : (withCrc b).length = b.length + 2 := by simp [withCrc, crcBytes]
  have htake : (withCrc b).take b.length = b := List.take_left
  have hlow : (withCrc b).getD b.length 0#8 = crcLow (crc16 b) := by simp [withCrc, crcBytes]
  have hhigh : (withCrc b).getD (b.length + 1) 0#8 = crcHigh (crc16 b) := by simp [withCrc, crcBytes]
  rw [verify, hlen, if_neg (by omega), Nat.add_sub_cancel, htake, hlow, Nat.add_sub_assoc (by decide), hhigh]
  simp

/-- A response that echoes the request code is classified as NO_ERROR: REQ_FC is not REQ_FC + 0x80. -/
theorem classify_echo (codes : List Byte) (addr fc : Byte) (data : List Byte) :
    classify codes fc (withCrc (addr :: fc :: data)) = (0x00#8, 0x00#8) := by
  have hlen : 4 ≤ (withCrc (addr :: fc :: data)).length := by simp [withCrc, crcBytes]
  have hfc : isExceptionFc fc ((withCrc (addr :: fc :: data)).getD 1 0#8) = false := by simp [isExceptionFc, withCrc]
  rw [classify_of_verify codes fc hlen (verify_withCrc _), hfc]
  rfl

/-- The payload is a stretch of the valid bytes, from FRAME[1] on (R43). -/
theorem payload_eq_take (s : State) (h : 1 + s.plen.toNat ≤ s.accLen.toNat) :
    s.payload = (s.frameBytes.drop 1).take s.plen.toNat := by
  refine List.ext_getElem ?_ fun i hi hi' => ?_
  · rw [List.length_take, List.length_drop, frameBytes_length, State.payload, List.length_map, List.length_range]
    omega
  · simp [State.payload, State.frameBytes, Nat.add_comm 1 i]

/-- The payload of a frame is what stands between its address and its CRC (R43). -/
theorem payload_of_withCrc {s : State} {x : Byte} {p : List Byte} (hf : s.frameBytes = withCrc (x :: p))
    (hlen : s.resultLen = s.accLen) (hp : p ≠ []) (hmax : p.length + 3 < 2 ^ 15) : s.payload = p := by
  have hacc : s.resultLen.toNat = p.length + 3 := by
    rw [hlen, ← frameBytes_length, hf]
    simp [withCrc, crcBytes]
  have hint : s.resultLen.toInt = p.length + 3 := by
    rw [BitVec.toInt_eq_toNat_of_lt (by omega), hacc]
    rfl
  have hpos := List.length_pos_iff.2 hp
  have hplen : s.plen.toNat = p.length := by have := plen_toNat (s := s) (by omega); omega
  rw [payload_eq_take s (by rw [← hlen]; omega), hf, hplen]
  exact List.take_left

/-! ### A byte taken in an idle cycle -/

/-- A transaction in state `st`, its request `addr`, `fc`: the bytes `taken` are in the frame, `exp` bytes are expected
in all (0 while that is not known), and `rest` waits in the FIFO. -/
structure Receiving (st : FaState) (addr fc : Byte) (taken : List Byte) (exp : Nat) (rest : List Byte) (s : State) :
    Prop where
  faState : s.faState = st
  reqAddr : s.reqAddr = addr
  reqFc : s.reqFc = fc
  frameBytes : s.frameBytes = taken
  expLen : s.expLen.toNat = exp
  fifo : s.fifo = rest

section
variable {st : FaState} {addr fc b : Byte} {taken rest : List Byte} {exp : Nat} {s : State}

theorem Receiving.accLen (h : Receiving st addr fc taken exp rest s) : s.accLen.toNat = taken.length := by
  rw [← frameBytes_length, h.frameBytes]

theorem Receiving.frameByte (h : Receiving st addr fc taken exp rest s) {i : Nat} (hb : taken[i]? = some b) :
    s.frameByte i = b := by
  have hi : i < s.accLen.toNat := h.accLen ▸ (List.getElem?_eq_some_iff.1 hb).1
  exact Option.some.inj ((frameBytes_getElem? s hi).symm.trans (h.frameBytes ▸ hb))

/-- A consuming state has room in the frame buffer for the next byte (R53). -/
theorem accLen_lt_frameMax (hi : s.Inv) (hc : s.faState.isConsuming = true) : s.accLen.toNat < s.params.frameMax := by
  obtain ⟨hl, -, -, -, ⟨hhdr, hbcnt, hbody⟩, -⟩ := hi
  obtain ⟨hmax, -⟩ := legal_bounds hl
  cases hs : s.faState with
  | hdr => have := hhdr hs; omega
  | bcnt => have := hbcnt hs; omega
  | body => have := hbody hs; omega
  | idle | stall | complete | timedOut | failed => simp [hs, FaState.isConsuming] at hc

/-- An idle cycle of a consuming state takes the next byte into the frame, and the assembler acts on it. -/
theorem runInputs_idle_byte (hi : s.Inv) (h : Receiving st addr fc taken exp (b :: rest) s)
    (hc : st.isConsuming = true) (xs : List CycleIn) :
    ∃ a, Receiving st addr fc (taken ++ [b]) exp rest a ∧
      ∀ t, consumedStep a = .next t → t.Inv ∧ runInputs (CycleIn.idle :: xs) s = runInputs xs t := by
  have hcons : s.faState.isConsuming = true := h.faState ▸ hc
  have hroom := accLen_lt_frameMax hi hcons
  have ⟨hl, ⟨hm, _⟩, _⟩ := hi
  obtain ⟨-, hmax, -⟩ := legal_bounds hl
  refine ⟨(s.begun CycleIn.idle xs).takeByte b rest, ⟨h.faState, h.reqAddr, h.reqFc, ?_, h.expLen, rfl⟩, fun t ht => ?_⟩
  · rw [← h.frameBytes]
    exact appendByte_frameBytes (s := { s.begun CycleIn.idle xs with fifo := rest }) hm
      (show s.accLen.toNat + 1 < 2 ^ 16 by omega) b
  · have hbyte : consumePhase (s.begun CycleIn.idle xs) = .next t :=
      (consumePhase_byte (s := s.begun CycleIn.idle xs) hcons h.fifo hroom).trans ht
    have hphases : afterCommand CycleIn.idle (s.begun CycleIn.idle xs) = .next t := by rw [afterCommand, hbyte]; rfl
    refine ⟨consumePhase_inv (begun_inv hi _ _) hbyte, ?_⟩
    rw [runInputs_cons_phases hl rfl rfl, show CycleIn.idle.cmd = none from rfl, commandPhase, andThen_next, hphases,
      andThen_next]

/-! ### The assembler's steps on a response -/

/-- The address byte alone decodes nothing (R138). -/
theorem consumedStep_address {x : Byte} (h : Receiving .hdr addr fc [x] exp rest s) : consumedStep s = .next s := by
  have hacc : s.accLen ≠ 2#16 := fun h2 => absurd (h2 ▸ h.accLen : (2#16).toNat = 1) (by decide)
  simp [consumedStep, h.faState, headerStep, hacc]

/-- The second byte is decoded as the response function code (R138). -/
theorem consumedStep_fc {x f : Byte} (h : Receiving .hdr addr fc [x, f] exp rest s) :
    consumedStep s = exec (decodeResponse fc f) s := by
  have hbyte : s.frameByte 1 = f := h.frameByte rfl
  rw [consumedStep_header h.faState (BitVec.eq_of_toNat_eq h.accLen), h.reqFc, hbyte]

/-- The byte count gives the expected length (R143). -/
theorem consumedStep_byteCount {x f n : Byte} (h : Receiving .bcnt addr fc [x, f, n] exp rest s) :
    ∃ t, consumedStep s = .next t ∧ Receiving .body addr fc [x, f, n] (5 + n.toNat) rest t := by
  have hbyte : s.frameByte 2 = n := h.frameByte rfl
  have hn : n.toNat < 2 ^ 8 := n.isLt
  refine ⟨byteCountStep s, by simp [consumedStep, h.faState], rfl, h.reqAddr, h.reqFc, h.frameBytes, ?_, h.fifo⟩
  rw [byteCountStep_expLen, hbyte]
  simp
  omega

/-- Before the expected length the body step waits (R144). -/
theorem consumedStep_body_more (h : Receiving .body addr fc taken exp rest s) (hlen : taken.length ≠ exp) :
    consumedStep s = .next s := by
  have hne : s.accLen ≠ s.expLen := fun he => hlen (by rw [← h.accLen, he, h.expLen])
  simp [consumedStep, h.faState, bodyStep, hne]

/-- At the expected length a frame that begins with the latched request completes (R145, R146). -/
theorem consumedStep_body_last (h : Receiving .body addr fc (addr :: fc :: taken) exp rest s)
    (hlen : (addr :: fc :: taken).length = exp) : consumedStep s = .next (completeFrame s) := by
  have heq : s.accLen = s.expLen := BitVec.eq_of_toNat_eq (by rw [h.accLen, hlen, h.expLen])
  have h0 : s.frameByte 0 = addr := h.frameByte rfl
  have h1 : s.frameByte 1 = fc := h.frameByte rfl
  have hmatch : s.headerMatches = true := by simp [State.headerMatches, h0, h1, h.reqAddr, h.reqFc]
  simp [consumedStep, h.faState, bodyStep, heq, hmatch]

/-! ### Runs of idle cycles -/

/-- The two header bytes are taken in two cycles; the response row of the second is still to be run. -/
theorem runInputs_header (hi : s.Inv) (h : Receiving .hdr addr fc [] exp (addr :: b :: rest) s) (xs : List CycleIn) :
    ∃ a, Receiving .hdr addr fc [addr, b] exp rest a ∧
      ∀ t, consumedStep a = .next t →
        t.Inv ∧ runInputs (CycleIn.idle :: CycleIn.idle :: xs) s = runInputs xs t := by
  obtain ⟨a, ha, hrun⟩ := runInputs_idle_byte hi h rfl (CycleIn.idle :: xs)
  obtain ⟨hia, hruna⟩ := hrun a (consumedStep_address ha)
  rw [hruna]
  exact runInputs_idle_byte hia ha rfl xs

/-- The bytes of the body are taken one a cycle, and the last one completes the frame, `taken` and `bs` behind the
header. -/
theorem runInputs_body {bs : List Byte} (hi : s.Inv)
    (h : Receiving .body addr fc (addr :: fc :: taken) exp (bs ++ rest) s) (hne : bs ≠ [])
    (hlen : 2 + taken.length + bs.length = exp) :
    ∃ a, Receiving .body addr fc (addr :: fc :: (taken ++ bs)) exp rest a ∧
      runInputs (List.replicate bs.length CycleIn.idle) s = .next { completeFrame a with inputs := [] } := by
  induction bs generalizing taken s with
  | nil => exact absurd rfl hne
  | cons b bs ih =>
    obtain ⟨a, ha, hrun⟩ := runInputs_idle_byte hi h rfl (List.replicate bs.length CycleIn.idle)
    rw [List.cons_append, List.cons_append] at ha
    rw [List.length_cons] at hlen
    have hacc : (addr :: fc :: (taken ++ [b])).length = 3 + taken.length := by simp; omega
    rw [List.length_cons, List.replicate_succ]
    by_cases hbs : bs = []
    · subst hbs
      obtain ⟨-, hruna⟩ := hrun _ (consumedStep_body_last ha (by rw [hacc, ← hlen, List.length_nil]; omega))
      exact ⟨a, ha, hruna⟩
    · have hpos := List.length_pos_iff.2 hbs
      obtain ⟨hia, hruna⟩ := hrun a (consumedStep_body_more ha (by omega))
      rw [hruna, List.append_cons]
      exact ih hia ha hbs (by rw [← hlen, List.length_append, List.length_singleton]; omega)

end

/-! ### Good responses -/

/-- What a completed frame that echoes the request leaves in the result fields. -/
theorem completeFrame_echo {a : State} {addr fc : Byte} {data rest : List Byte} {exp : Nat}
    (h : Receiving .body addr fc (withCrc (addr :: fc :: data)) exp rest a) :
    (completeFrame a).resultCode = 0x00#8 ∧ (completeFrame a).excRaw = 0x00#8 := by
  have hcls : a.classification = (0x00#8, 0x00#8) := by
    rw [State.classification, h.frameBytes, h.reqFc, classify_echo]
  exact ⟨congrArg Prod.fst hcls, congrArg Prod.snd hcls⟩

/-- START leaves an empty frame, and the response waits in the FIFO. -/
theorem receiving_header {s : State} (hi : s.Inv) (hs : s.faState = .hdr) (hacc : s.accLen = 0#16) :
    Receiving .hdr s.reqAddr s.reqFc [] 0 s.fifo s := by
  obtain ⟨-, -, -, -, ⟨hhdr, -⟩, -⟩ := hi
  obtain ⟨-, hexp⟩ := hhdr hs
  exact ⟨hs, rfl, rfl, List.length_eq_zero_iff.1 (by rw [frameBytes_length, hacc]; rfl), by rw [hexp]; rfl, rfl⟩

/-- A read-holding-registers response: header, byte count, then the data and the CRC (R139, R143). -/
theorem runInputs_readHolding {s : State} {addr : Byte} {data rest : List Byte} (hi : s.Inv) (hlen : data.length ≤ 255)
    (h : Receiving .hdr addr 0x03#8 [] 0
      (withCrc (addr :: 0x03#8 :: BitVec.ofNat 8 data.length :: data) ++ rest) s) :
    ∃ a, Receiving .body addr 0x03#8 (withCrc (addr :: 0x03#8 :: BitVec.ofNat 8 data.length :: data))
        (5 + data.length) rest a ∧
      runInputs (List.replicate (5 + data.length) CycleIn.idle) s = .next { completeFrame a with inputs := [] } := by
  let crc := crcBytes (crc16 (addr :: 0x03#8 :: BitVec.ofNat 8 data.length :: data))
  have hn : (BitVec.ofNat 8 data.length).toNat = data.length := by rw [BitVec.toNat_ofNat]; omega
  have hbytes : (data ++ crc).length = 2 + data.length := by rw [List.length_append, Nat.add_comm]; rfl
  obtain ⟨a, ha, hruna⟩ := runInputs_header hi h (CycleIn.idle :: List.replicate (2 + data.length) CycleIn.idle)
  obtain ⟨hib, hrunb⟩ := hruna { a with faState := .bcnt } (consumedStep_fc ha)
  obtain ⟨c, hc, hrunc⟩ := runInputs_idle_byte hib
    ⟨rfl, ha.reqAddr, ha.reqFc, ha.frameBytes, ha.expLen, ha.fifo⟩ rfl (List.replicate (2 + data.length) CycleIn.idle)
  obtain ⟨d, hstep, hd⟩ := consumedStep_byteCount hc
  obtain ⟨hid, hrund⟩ := hrunc d hstep
  obtain ⟨e, he, hrune⟩ := runInputs_body (bs := data ++ crc) hid hd (by simp [crc, crcBytes])
    (by rw [hbytes, hn, List.length_singleton]; omega)
  rw [hbytes] at hrune
  rw [hn] at he
  have hcycles : List.replicate (5 + data.length) CycleIn.idle =
      CycleIn.idle :: CycleIn.idle :: CycleIn.idle :: List.replicate (2 + data.length) CycleIn.idle := by
    rw [show 5 + data.length = 2 + data.length + 1 + 1 + 1 by omega]
    rfl
  exact ⟨e, he, by rw [hcycles, hrunb, hrund, hrune]⟩

/-- A write-multiple-registers echo: header, then four bytes and the CRC (R140). -/
theorem runInputs_writeMultiple {s : State} {addr b2 b3 b4 b5 : Byte} {rest : List Byte} (hi : s.Inv)
    (h : Receiving .hdr addr 0x10#8 [] 0 (withCrc [addr, 0x10#8, b2, b3, b4, b5] ++ rest) s) :
    ∃ a, Receiving .body addr 0x10#8 (withCrc [addr, 0x10#8, b2, b3, b4, b5]) 8 rest a ∧
      runInputs (List.replicate 8 CycleIn.idle) s = .next { completeFrame a with inputs := [] } := by
  obtain ⟨a, ha, hruna⟩ := runInputs_header hi h (List.replicate 6 CycleIn.idle)
  obtain ⟨hit, hrunt⟩ := hruna { a with expLen := 8#16, faState := .body } (consumedStep_fc ha)
  obtain ⟨c, hc, hrunc⟩ := runInputs_body (taken := []) (bs := [b2, b3, b4, b5] ++ crcBytes _) hit
    ⟨rfl, ha.reqAddr, ha.reqFc, ha.frameBytes, rfl, ha.fifo⟩ (List.cons_ne_nil _ _) rfl
  exact ⟨c, hc, hrunt.trans hrunc⟩

/-- Settles O59: the run of either response by its lemma, and the result fields of the frame it completes. -/
theorem goodResponseCompletes : Obligations.GoodResponseCompletes := by
  intro s rest hi hs hacc
  have h := receiving_header hi hs hacc
  refine ⟨fun data hlen hfc hfifo => ?_, fun b2 b3 b4 b5 hfc hfifo => ?_⟩ <;> rw [hfc, hfifo] at h
  · obtain ⟨a, ha, hrun⟩ := runInputs_readHolding hi hlen h
    obtain ⟨hcode, hexc⟩ := completeFrame_echo ha
    have hwith : (withCrc (s.reqAddr :: 0x03#8 :: BitVec.ofNat 8 data.length :: data)).length = 5 + data.length := by
      simp [withCrc, crcBytes]; omega
    refine ⟨_, hrun, rfl, hcode, hexc, ha.accLen.trans hwith, rfl, ha.frameBytes, ?_, ha.fifo⟩
    exact payload_of_withCrc ha.frameBytes rfl (List.cons_ne_nil _ _) (by simp; omega)
  · obtain ⟨a, ha, hrun⟩ := runInputs_writeMultiple hi h
    obtain ⟨hcode, hexc⟩ := completeFrame_echo ha
    exact ⟨_, hrun, rfl, hcode, hexc, BitVec.eq_of_toNat_eq ha.accLen, rfl, ha.frameBytes, ha.fifo⟩

end Sys2Proof.Machine
end

section
/-! PROOF. The CRC family, part 1: the byte step bit by bit (spec/40_crc_engine.md R110, R111), and `verify` as a zero
residue (R112, R114), from which the round trip and the single-bit errors of R118 follow. -/

namespace Sys2Proof.Machine

/-! ### The byte step bit by bit -/

/-- A shift with a difference `d` folded in feeds the lowest bit of `d` and leaves its other bits for later. -/
theorem crcShift_xor_eq_feedBit (c d : Half) : crcShift (c ^^^ d) = crcFeedBit c (d.getLsbD 0) ^^^ d >>> 1 := by
  unfold crcShift crcFeedBit
  rw [BitVec.getLsbD_xor, BitVec.ushiftRight_xor_distrib]
  split
  · rw [crcPoly]; ac_rfl
  · rfl

/-- `crcShifts` with the last shift outermost. -/
theorem crcShifts_succ_last (n : Nat) (c : Half) : crcShifts (n + 1) c = crcShift (crcShifts n c) := by
  induction n generalizing c with
  | zero => rfl
  | succ n ih => exact ih (crcShift c)

/-- After `n` shifts the low `n` bits of the difference have been fed and the others still stand in the register. -/
theorem crcShifts_xor_eq_feedBits (n : Nat) (c d : Half) :
    crcShifts n (c ^^^ d) = (List.range n).foldl (fun c k => crcFeedBit c (d.getLsbD k)) c ^^^ d >>> n := by
  induction n with
  | zero => simp [crcShifts]
  | succ n ih =>
    have hbit : (d >>> n).getLsbD 0 = d.getLsbD n := BitVec.getLsbD_ushiftRight ..
    rw [crcShifts_succ_last, ih, crcShift_xor_eq_feedBit, hbit, List.range_succ, List.foldl_append,
      ← BitVec.shiftRight_add]
    rfl

/-- Settles O20: eight shifts feed the eight bits of the byte, and nothing of the byte is left in the register. -/
theorem crcStepIsBitSerial : Obligations.CrcStepIsBitSerial := by
  intro c b
  have hrest : b.setWidth 16 >>> 8 = 0#16 := by ext i hi; simp
  rw [crcStep, crcShifts_xor_eq_feedBits, hrest, BitVec.xor_zero, crcFeedByte]
  refine List.foldl_ext _ _ _ fun x k hk => ?_
  have hk8 : k < 8 := List.mem_range.1 hk
  rw [BitVec.getLsbD_setWidth, decide_eq_true (by omega), Bool.true_and]

/-! ### The zero residue -/

theorem verify_of_short {s : List Byte} (h : s.length < 2) : verify s = false := if_pos h

/-- Two bytes behind any sequence verify exactly when they are its CRC as transmitted (R113, R114). -/
theorem verify_append_two (p : List Byte) (x y : Byte) :
    verify (p ++ [x, y]) = true ↔ x = crcLow (crc16 p) ∧ y = crcHigh (crc16 p) := by
  simp [verify]

/-- The CRC of a whole sequence is 0 exactly when its last two bytes are the CRC of the others. -/
theorem crc16_append_two (p : List Byte) (x y : Byte) :
    crc16 (p ++ [x, y]) = 0#16 ↔ x = crcLow (crc16 p) ∧ y = crcHigh (crc16 p) := by
  rw [crc16, crcFold_append]
  exact crcStep_two (crc16 p) x y

/-- A sequence of two bytes or more, cut before its last two. -/
theorem exists_append_two {s : List Byte} (h : 2 ≤ s.length) : ∃ p x y, s = p ++ [x, y] := by
  have hlen : (s.drop (s.length - 2)).length = 2 := by rw [List.length_drop]; omega
  obtain ⟨x, y, hxy⟩ := List.length_eq_two.1 hlen
  exact ⟨s.take (s.length - 2), x, y, by rw [← hxy, List.take_append_drop]⟩

theorem verify_iff_crc16_eq_zero {s : List Byte} (h : 2 ≤ s.length) : verify s = true ↔ crc16 s = 0#16 := by
  obtain ⟨p, x, y, rfl⟩ := exists_append_two h
  rw [verify_append_two, crc16_append_two]

/-- Settles O22: both sides say that the last two bytes are the CRC of the others. -/
theorem verifyIsZeroResidue : Obligations.VerifyIsZeroResidue :=
  fun _ => ⟨verify_iff_crc16_eq_zero, verify_of_short⟩

/-! ### Errors in one byte -/

/-- A nonzero difference in one byte changes the CRC: it enters the register nonzero and stays so through the bytes that
follow. -/
theorem crc16_set_xor_ne {s : List Byte} {i : Nat} (hi : i < s.length) {e : Byte} (he : e ≠ 0#8) :
    crc16 (s.set i (s.getD i 0#8 ^^^ e)) ≠ crc16 s := by
  have hsplit : s = s.take i ++ s[i] :: s.drop (i + 1) := by rw [List.cons_getElem_drop_succ, List.take_append_drop]
  have he16 : e.setWidth 16 ≠ 0#16 := fun h => he (by simpa using congrArg (BitVec.setWidth 8) h)
  have henter : crcShifts 8 (e.setWidth 16) ≠ 0#16 := fun h => he16 (crcShifts_eq_zero h)
  rw [List.getD_eq_getElem _ _ hi, List.set_eq_take_append_cons_drop, if_pos hi]
  conv_rhs => rw [hsplit]
  rw [crc16, crc16, crcFold_append, crcFold_append, List.foldl_cons, List.foldl_cons, crcStep_xor_byte]
  exact crcFold_xor_ne _ _ henter

/-- The one-bit mask of a bit inside the byte. -/
theorem oneBit_ne_zero {k : Nat} (hk : k < 8) : 1#8 <<< k ≠ 0#8 := by
  intro h
  have hbit := congrArg (fun x => BitVec.getLsbD x k) h
  simp [hk] at hbit

/-- A sequence that verifies does so no more once a bit of it is flipped: its residue was 0 and changes. -/
theorem verify_flipBit {s : List Byte} (hv : verify s = true) {i k : Nat} (hi : i < s.length) (hk : k < 8) :
    verify (flipBit s i k) = false := by
  have hlen : 2 ≤ s.length := by
    by_contra h
    rw [verify_of_short (by omega)] at hv
    cases hv
  have hlen' : 2 ≤ (flipBit s i k).length := by rw [flipBit, List.length_set]; exact hlen
  have hzero : crc16 s = 0#16 := (verify_iff_crc16_eq_zero hlen).1 hv
  refine Bool.eq_false_iff.2 fun hv' => crc16_set_xor_ne hi (oneBit_ne_zero hk) ?_
  rw [hzero]
  exact (verify_iff_crc16_eq_zero hlen').1 hv'

/-- Settles O21: `verify_withCrc`, and `verify_flipBit` of what it verifies. -/
theorem crcRoundTripAndSingleBitErrors : Obligations.CrcRoundTripAndSingleBitErrors := by
  intro b
  refine ⟨verify_withCrc b, fun i k hi hk => verify_flipBit (verify_withCrc b) ?_ hk⟩
  rw [withCrc, List.length_append]
  exact hi

end Sys2Proof.Machine
end

section
/-! PROOF. The CRC family, part 2: no cycle but those of CRC_INIT and CRC_BYTE reads or writes the CRC register
(spec/40_crc_engine.md R119). -/

namespace Sys2Proof.Machine

/-! ### Meanings that neither read nor write the CRC register -/

/-- A state with another value in the CRC register. -/
def State.withCrcReg (c : Half) (s : State) : State := { s with crc := c }

/-- An outcome whose next state has another value in the CRC register. -/
def outcomeWithCrcReg (c : Half) (o : Out) : Out := andThen o fun t => .next (t.withCrcReg c)

/-- `f` neither reads nor writes the CRC register: from another value in it, `f` answers the same with that value kept. -/
def IgnoresCrc (f : State → Out) : Prop := ∀ c s, f (s.withCrcReg c) = outcomeWithCrcReg c (f s)

/-- What ignores the register leaves it as it is: replacing its value by itself changes nothing. -/
theorem IgnoresCrc.crc_eq {f : State → Out} (hf : IgnoresCrc f) {s t : State} (h : f s = .next t) : t.crc = s.crc := by
  have hself : f s = outcomeWithCrcReg s.crc (f s) := hf s.crc s
  rw [h] at hself
  have ht : t = t.withCrcReg s.crc := Host.Outcome.next.inj hself
  exact (congrArg State.crc ht :)

theorem IgnoresCrc.andThen {f g : State → Out} (hf : IgnoresCrc f) (hg : IgnoresCrc g) :
    IgnoresCrc fun s => andThen (f s) g := by
  intro c s
  simp only [hf c s]
  cases f s with
  | next t => exact hg c t
  | fault _ => rfl
  | refused _ => rfl

/-! ### The instructions -/

/-- No instruction but the two CRC commands reads or writes the register (R119). -/
theorem exec_ignoresCrc {i : Instr} (hinit : i ≠ .crcInit) (hbyte : ∀ b, i ≠ .crcByte b) : IgnoresCrc (exec i) := by
  intro c s
  cases i with
  | crcInit => exact absurd rfl hinit
  | crcByte b => exact absurd rfl (hbyte b)
  | frmPush b => simp only [exec, execFrmPush, apply_ite (outcomeWithCrcReg c)]; rfl
  | start v => simp only [exec, execStart, apply_ite (outcomeWithCrcReg c)]; rfl
  | init d => simp only [exec, execInit, apply_ite (outcomeWithCrcReg c)]; rfl
  | close => simp only [exec, execClose, apply_ite (outcomeWithCrcReg c)]; rfl
  | rspFcOther f => simp only [exec, execRspFcOther, apply_ite (outcomeWithCrcReg c)]; rfl
  | nop | crcVerify | frmClear | setReq | doneAck | validate | cfgSet | flagsClr | rxClear | reserved
  | rspFcReadHolding | rspFcWriteMultiple | rspFcException => rfl

/-- A response function code is none of the two CRC commands. -/
theorem exec_decodeResponse_ignoresCrc (reqFc f : Byte) : IgnoresCrc (exec (decodeResponse reqFc f)) := by
  rcases decodeResponse_cases reqFc f with ⟨-, h⟩ | ⟨-, h⟩ | ⟨-, -, -, h⟩ | ⟨-, -, -, h⟩ <;> rw [h] <;>
    exact exec_ignoresCrc (by simp) (by simp)

/-! ### The events of a cycle -/

theorem headerStep_ignoresCrc : IgnoresCrc headerStep := by
  intro c s
  have hrow := exec_decodeResponse_ignoresCrc s.reqFc (s.frameByte 1) c s
  simp only [headerStep, apply_ite (outcomeWithCrcReg c), ← hrow]
  rfl

theorem bodyStep_withCrcReg (c : Half) (s : State) : bodyStep (s.withCrcReg c) = (bodyStep s).withCrcReg c := by
  simp only [bodyStep, mismatchFrame, apply_ite (State.withCrcReg c)]; rfl

theorem consumedStep_ignoresCrc : IgnoresCrc consumedStep := by
  intro c s
  have hstate : (s.withCrcReg c).faState = s.faState := rfl
  unfold consumedStep
  rw [hstate]
  cases s.faState with
  | hdr => exact headerStep_ignoresCrc c s
  | body => exact congrArg Host.Outcome.next (bodyStep_withCrcReg c s)
  | idle | bcnt | stall | complete | timedOut | failed => rfl

theorem consumePhase_ignoresCrc : IgnoresCrc consumePhase := by
  intro c s
  have hfifo : (s.withCrcReg c).fifo = s.fifo := rfl
  unfold consumePhase
  rw [hfifo]
  cases s.fifo with
  | nil => simp only [apply_ite (outcomeWithCrcReg c)]; rfl
  | cons b rest =>
    have htaken := consumedStep_ignoresCrc c (State.appendByte { s with fifo := rest } b)
    simp only [apply_ite (outcomeWithCrcReg c), ← htaken]
    rfl

theorem enqueuePhase_withCrcReg (rx : Option Byte) (c : Half) (s : State) :
    enqueuePhase rx (s.withCrcReg c) = (enqueuePhase rx s).withCrcReg c := by
  cases rx with
  | none => rfl
  | some b => simp only [enqueuePhase, apply_ite (State.withCrcReg c)]; rfl

theorem tickPhase_withCrcReg (tick : Bool) (c : Half) (s : State) :
    tickPhase tick (s.withCrcReg c) = (tickPhase tick s).withCrcReg c := by
  simp only [tickPhase, apply_ite (State.withCrcReg c)]; rfl

/-- No event reads or writes the register (R119). -/
theorem afterCommand_ignoresCrc (inp : CycleIn) : IgnoresCrc (afterCommand inp) :=
  consumePhase_ignoresCrc.andThen fun c s => by
    rw [enqueuePhase_withCrcReg, tickPhase_withCrcReg]
    rfl

/-! ### A whole cycle -/

/-- The meaning of the command a cycle accepts, or nothing (R51). -/
def runAccepted (cmd : Option Instr) (s : State) : Out :=
  match cmd with
  | none => .next s
  | some i => exec i s

/-- A cycle without reset runs the command it accepts and then the three events (R50). -/
theorem step_eq_runAccepted {s : State} (hl : s.params.legal = true) (hr : s.ReadAllowed)
    (hrst : s.nextInput.rst = false) :
    step s = andThen (runAccepted s.accepted s.beginCycle) (afterCommand s.nextInput) := by
  obtain ⟨s1, h1⟩ := commandPhase_next s.nextInput.cmd s.beginCycle
  rw [step_eq_phases hl hr hrst, h1]
  rcases commandPhase_accepted hrst h1 with ⟨rfl, ha⟩ | ⟨w, -, -, ha, he⟩
  · rw [ha]; rfl
  · rw [ha, runAccepted, he]

theorem runAccepted_ignoresCrc {cmd : Option Instr} (hinit : cmd ≠ some .crcInit)
    (hbyte : ∀ b, cmd ≠ some (.crcByte b)) : IgnoresCrc (runAccepted cmd) := by
  cases cmd with
  | none => exact fun _ _ => rfl
  | some i => exact exec_ignoresCrc (fun h => hinit (congrArg some h)) fun b h => hbyte b (congrArg some h)

/-- The cycle begins alike when the host does not read: only a read shows the register. -/
theorem beginCycle_withCrcReg {s : State} (hread : s.nextInput.read = none) (c : Half) :
    (s.withCrcReg c).beginCycle = s.beginCycle.withCrcReg c := by
  have hnext : (s.withCrcReg c).nextInput = s.nextInput := rfl
  simp only [State.beginCycle, portOut, hnext, hread]
  rfl

/-- The four phases of a cycle that accepts neither CRC command. -/
theorem acceptedCycle_ignoresCrc {cmd : Option Instr} (hinit : cmd ≠ some .crcInit)
    (hbyte : ∀ b, cmd ≠ some (.crcByte b)) (inp : CycleIn) :
    IgnoresCrc fun b => andThen (runAccepted cmd b) (afterCommand inp) :=
  (runAccepted_ignoresCrc hinit hbyte).andThen (afterCommand_ignoresCrc inp)

/-- Settles O23: the phases of a cycle that accepts neither CRC command ignore the register, so the cycle keeps it and,
from another value in it, does the same. -/
theorem onlyCrcCommandsTouchTheCrcRegister : Obligations.OnlyCrcCommandsTouchTheCrcRegister := by
  refine ⟨fun s t hrst h hne => ?_, fun s t c hrst hread hinit hbyte h => ?_⟩ <;>
    obtain ⟨hl, hr, -⟩ := step_cases h <;> rw [step_eq_runAccepted hl hr hrst] at h
  · by_contra hacc
    obtain ⟨hinit, hbyte⟩ := not_or.1 hacc
    exact hne ((acceptedCycle_ignoresCrc hinit (not_exists.1 hbyte) s.nextInput).crc_eq (s := s.beginCycle) h)
  · calc step (s.withCrcReg c)
        = andThen (runAccepted s.accepted (s.withCrcReg c).beginCycle) (afterCommand s.nextInput) :=
          step_eq_runAccepted (s := s.withCrcReg c) hl hr hrst
      _ = andThen (runAccepted s.accepted (s.beginCycle.withCrcReg c)) (afterCommand s.nextInput) := by
          rw [beginCycle_withCrcReg hread]
      _ = outcomeWithCrcReg c (andThen (runAccepted s.accepted s.beginCycle) (afterCommand s.nextInput)) :=
          acceptedCycle_ignoresCrc hinit hbyte s.nextInput c s.beginCycle
      _ = .next (t.withCrcReg c) := by rw [h]; rfl

end Sys2Proof.Machine
end

section
/-! PROOF. The CRC family, part 3: the commands CRC_INIT, CRC_BYTE and CRC_VERIFY (spec/40_crc_engine.md R115 to
R117). -/

namespace Sys2Proof.Machine

/-- Every command is held while the block is busy (R51). -/
theorem heldWhileBusy (opc : Byte) : HeldWhileBusy opc := fun _ _ _ hb => commandPhase_busy _ hb

theorem decodeCommand_crcInit {w : Word} (h : opcOf w = 0x01#8) : decodeCommand w = .crcInit := by
  rw [decodeCommand, h]; rfl

theorem decodeCommand_crcByte {w : Word} (h : opcOf w = 0x02#8) : decodeCommand w = .crcByte (w.extractLsb' 0 8) := by
  rw [decodeCommand, h, argLow_argOf]; rfl

theorem decodeCommand_crcVerify {w : Word} (h : opcOf w = 0x03#8) : decodeCommand w = .crcVerify := by
  rw [decodeCommand, h]; rfl

/-- A run of CRC_BYTE commands folds its bytes into the register (R116). -/
theorem foldl_exec_crcByte (bs : List Byte) (s : State) :
    bs.foldl (fun o b => andThen o (exec (.crcByte b))) (.next s) = .next { s with crc := bs.foldl crcStep s.crc } := by
  induction bs generalizing s with
  | nil => rfl
  | cons b bs ih => exact ih { s with crc := crcStep s.crc b }

/-- Settles O18: after CRC_INIT the fold of `foldl_exec_crcByte` starts from the initial value of crc16. -/
theorem crcRegisterCommands : Obligations.CrcRegisterCommands :=
  ⟨fun _ => decodeCommand_crcInit, heldWhileBusy _, fun _ => rfl, fun _ => decodeCommand_crcByte, heldWhileBusy _,
    fun _ _ => rfl, fun bs s => foldl_exec_crcByte bs { s with crc := crcInitial }⟩

theorem classify_of_not_verify (codes : List Byte) (fc : Byte) {s : List Byte} (hlen : 4 ≤ s.length)
    (hv : verify s = false) : classify codes fc s = (0x82#8, 0x00#8) := by
  rw [classify, if_neg (by omega), hv]
  rfl

/-- A frame that echoes the request code is no exception frame, so its classification says whether its CRC agrees,
whatever codes are recognised. -/
theorem verify_eq_classify_ne {codes : List Byte} {fc : Byte} {s : List Byte} (hlen : 4 ≤ s.length)
    (hfc : s.getD 1 0#8 = fc) : verify s = ((classify codes fc s).1 != 0x82#8) := by
  cases hv : verify s with
  | false => rw [classify_of_not_verify codes fc hlen hv]; rfl
  | true =>
    have hnoexc : isExceptionFc fc fc = false := by simp [isExceptionFc]
    rw [classify_of_verify codes fc hlen hv, hfc, hnoexc]
    rfl

/-- Settles O19: CRC_OK is `verify` of the frame; on a completed frame FRAME[1] is REQ_FC, so the validator's code tells
the same. -/
theorem crcVerifyChecksTheFrame : Obligations.CrcVerifyChecksTheFrame := by
  refine ⟨fun _ => decodeCommand_crcVerify, heldWhileBusy _, fun s => ⟨rfl, fun hshort => ?_, fun hff => ?_, ?_⟩⟩
  · rw [exec, execCrcVerify, verify_of_short (by rwa [frameBytes_length])]
  · rw [exec, execCrcVerify, hff, show verify [0xFF#8, 0xFF#8] = true by decide]
  · rintro ⟨-, -, -, hlen, -, hfc⟩ hclass
    have hbyte : s.frameBytes.getD 1 0#8 = s.reqFc := (frameBytes_getD s (by omega)).trans hfc
    rw [exec, execCrcVerify, verify_eq_classify_ne (by rw [frameBytes_length]; omega) hbyte, ← hclass]

end Sys2Proof.Machine
end

section
/-! PROOF. The frame-assembler family, part 1: the commands SET_REQ, START and DONE_ACK (spec/41_frame_assembler.md R131
to R135), the response rows (R139 to R142), and the enqueue, consume and tick events (R136, R143 to R147, R150). -/

namespace Sys2Proof.Machine

/-! ### SET_REQ and DONE_ACK -/

theorem decodeCommand_setReq {w : Word} (h : opcOf w = 0x20#8) :
    decodeCommand w = .setReq (w.extractLsb' 0 8) (w.extractLsb' 8 8) := by
  rw [decodeCommand, h, argLow_argOf, argHigh_argOf]; rfl

/-- Settles O36: the decoded operands, and the meaning of SET_REQ as it stands. -/
theorem setReqLatchesTheRequest : Obligations.SetReqLatchesTheRequest :=
  ⟨fun _ => decodeCommand_setReq, heldWhileBusy _, fun _ _ _ => rfl⟩

theorem decodeCommand_doneAck {w : Word} (h : opcOf w = 0x22#8) : decodeCommand w = .doneAck := by
  rw [decodeCommand, h]; rfl

/-- Settles O38: the meaning of DONE_ACK is `acknowledge`, and IRQ needs DONE. -/
theorem doneAckDropsOnlyDone : Obligations.DoneAckDropsOnlyDone :=
  ⟨fun _ => decodeCommand_doneAck, heldWhileBusy _, fun s => ⟨acknowledge s, rfl, rfl, rfl⟩⟩

/-! ### START -/

theorem decodeCommand_start {w : Word} (h : opcOf w = 0x21#8) : decodeCommand w = .start (w.extractLsb' 0 16) := by
  rw [decodeCommand, h]; rfl

/-- START in a closed block (R133). -/
theorem exec_start_closed (v : Half) {s : State} (hi : s.inited = false) :
    exec (.start v) s = .next (terminate .failed 0x84#8 0xFFFF#16 0x00#8 { startCommon s with toEff := 0#16 }) := by
  simp only [exec, execStart, hi]; rfl

/-- START with an effective timeout of 0 (R134). -/
theorem exec_start_noTime {v : Half} {s : State} (hi : s.inited = true) (hz : s.effectiveTimeout v = 0#16) :
    exec (.start v) s = .next (timeOut { startCommon s with toEff := 0#16 }) := by
  simp only [exec, execStart, hi, hz, if_true]

/-- START that begins a transaction (R132). -/
theorem exec_start_begins {v : Half} {s : State} (hi : s.inited = true) (hz : s.effectiveTimeout v ≠ 0#16) :
    exec (.start v) s = .next { startCommon s with toEff := s.effectiveTimeout v, faState := .hdr } := by
  simp only [exec, execStart, hi, if_true, if_neg hz]

/-- A free block counts no tick (R149). -/
theorem tickPhase_free (tick : Bool) {s : State} (hb : s.busy = false) : tickPhase tick s = s := by
  rw [tickPhase, hb, Bool.and_false]; rfl

/-- Settles O37: the three outcomes by their lemmas. After the two that end at once the block is free, so it neither
consumes nor counts. -/
theorem startBeginsOrEndsAtOnce : Obligations.StartBeginsOrEndsAtOnce := by
  refine ⟨fun _ => decodeCommand_start, heldWhileBusy _, fun v s =>
    ⟨exec_start_closed v, exec_start_noTime, exec_start_begins, fun h => ?_⟩⟩
  cases hi : s.inited with
  | false => exact ⟨_, exec_start_closed v hi, consumePhase_idle (.inl rfl), tickPhase_free _ rfl⟩
  | true =>
    have hz : s.effectiveTimeout v = 0#16 := h.resolve_left (by simp [hi])
    exact ⟨_, exec_start_noTime hi hz, consumePhase_idle (.inl rfl), tickPhase_free _ rfl⟩

/-! ### The response rows -/

theorem exec_rspFcOther_failed (f : Byte) {s : State} (hu : s.ufc = false) :
    exec (.rspFcOther f) s = .next (terminate .failed 0x81#8 0xFFFF#16 0x00#8 s) := by
  simp only [exec, execRspFcOther, hu]; rfl

theorem exec_rspFcOther_stall (f : Byte) {s : State} (hu : s.ufc = true) :
    exec (.rspFcOther f) s = .next { s with faState := .stall } := by
  simp only [exec, execRspFcOther, hu, if_true]

/-- Settles O39: the row each function code takes, and the effect of each row. -/
theorem responseRowEffects : Obligations.ResponseRowEffects := by
  intro s f
  refine ⟨fun h => ?_, fun h => ?_, fun h => ?_, fun h3 h16 he => ?_, rfl, rfl, rfl, exec_rspFcOther_failed f,
    exec_rspFcOther_stall f⟩
  · rw [(decodeResponse_eq_readHolding_iff s.reqFc f).2 h]; rfl
  · rw [(decodeResponse_eq_writeMultiple_iff s.reqFc f).2 h]; rfl
  · rw [(decodeResponse_eq_exception_iff s.reqFc f).2 h]; rfl
  · rw [(decodeResponse_eq_other_iff s.reqFc f).2 ⟨h3, h16, he⟩]
    exact ⟨exec_rspFcOther_failed f, exec_rspFcOther_stall f⟩

/-! ### The enqueue event -/

theorem enqueuePhase_push {s : State} (b : Byte) (hi : s.inited = true) (hr : s.fifo.length < s.params.rxqDepth) :
    enqueuePhase (some b) s = { s with fifo := s.fifo ++ [b] } := by
  simp [enqueuePhase, hi, State.fifoHasRoom, hr, State.pushFifo]

theorem enqueuePhase_full {s : State} (b : Byte) (hi : s.inited = true) (hr : s.params.rxqDepth ≤ s.fifo.length) :
    enqueuePhase (some b) s = { s with rxovr := true } := by
  simp [enqueuePhase, hi, State.fifoHasRoom, Nat.not_lt.2 hr]

/-- Settles O40: a closed block drops the byte; an open one pushes it or flags it, by the room in the FIFO. -/
theorem enqueueDropsPushesOrFlags : Obligations.EnqueueDropsPushesOrFlags :=
  fun _ b => ⟨rfl, fun hi => by simp [enqueuePhase, hi], enqueuePhase_push b, enqueuePhase_full b⟩

/-! ### The tick event -/

/-- ELAPSED does not wrap while busy: it is below TO_EFF (R53). -/
theorem elapsed_succ_toNat {s : State} (ht : s.TimerInv) (hb : s.busy = true) :
    (s.elapsed + 1#16).toNat = s.elapsed.toNat + 1 := by
  have hlt := ht.2 hb
  have hmax : s.toEff.toNat < 2 ^ 16 := s.toEff.isLt
  simp
  omega

theorem tickPhase_counts {s : State} (hb : s.busy = true) (hlt : (s.elapsed + 1#16).toNat < s.toEff.toNat) :
    tickPhase true s = { s with elapsed := s.elapsed + 1#16 } := by
  simp only [tickPhase, hb, Bool.and_self, if_true, if_neg (Nat.not_le.2 hlt)]

theorem tickPhase_timesOut {s : State} (hb : s.busy = true) (hle : s.toEff.toNat ≤ (s.elapsed + 1#16).toNat) :
    tickPhase true s = timeOut { s with elapsed := s.elapsed + 1#16 } := by
  simp only [tickPhase, hb, Bool.and_self, if_true, if_pos hle]

/-- Settles O43: a busy block's tick counts below TO_EFF and times out at it. -/
theorem tickCountsAndTimesOut : Obligations.TickCountsAndTimesOut := by
  rintro s ⟨-, -, -, ht, -⟩
  exact ⟨rfl, tickPhase_free true, fun hb =>
    ⟨s.elapsed + 1#16, elapsed_succ_toNat ht hb, tickPhase_counts hb, tickPhase_timesOut hb⟩⟩

/-! ### The consume event -/

/-- A consuming state takes the oldest byte of the FIFO, and the assembler acts on it (R137). -/
theorem consumePhase_takeByte {s : State} {b : Byte} {rest : List Byte} (hi : s.Inv)
    (hc : s.faState.isConsuming = true) (hf : s.fifo = b :: rest) :
    consumePhase s = consumedStep (s.takeByte b rest) :=
  consumePhase_byte hc hf (accLen_lt_frameMax hi hc)

/-- ACC_LEN does not wrap when a byte is taken: it is at most FRAME_MAX (R53). -/
theorem takeByte_accLen_toNat {s : State} (hi : s.Inv) (b : Byte) (rest : List Byte) :
    (s.takeByte b rest).accLen.toNat = s.accLen.toNat + 1 := by
  obtain ⟨hl, ⟨-, -, hacc⟩, -⟩ := hi
  have hmax := legal_bounds hl
  simp
  omega

theorem headerMatches_iff (s : State) :
    s.headerMatches = true ↔ s.frameByte 0 = s.reqAddr ∧ s.frameByte 1 = s.reqFc := by
  simp [State.headerMatches]

theorem headerMatches_eq_false_iff (s : State) :
    s.headerMatches = false ↔ ¬(s.frameByte 0 = s.reqAddr ∧ s.frameByte 1 = s.reqFc) := by
  rw [← headerMatches_iff, Bool.not_eq_true]

/-- A first header byte decodes nothing (R138). -/
theorem consumedStep_hdr_wait {a : State} (hs : a.faState = .hdr) (hl : a.accLen ≠ 2#16) : consumedStep a = .next a := by
  simp only [consumedStep, hs, headerStep, if_neg hl]

theorem consumedStep_bcnt {a : State} (hs : a.faState = .bcnt) : consumedStep a = .next (byteCountStep a) := by
  simp only [consumedStep, hs]

/-- The frame goes on (R144). -/
theorem consumedStep_body_wait {a : State} (hs : a.faState = .body) (hl : a.accLen ≠ a.expLen) :
    consumedStep a = .next a := by
  simp only [consumedStep, hs, bodyStep, if_neg hl]

/-- The frame is full and matches the request (R145, R146). -/
theorem consumedStep_body_match {a : State} (hs : a.faState = .body) (hl : a.accLen = a.expLen)
    (hm : a.headerMatches = true) : consumedStep a = .next (completeFrame a) := by
  simp only [consumedStep, hs, bodyStep, if_pos hl, hm, if_true]

/-- The frame is full and does not match the request (R145, R147). -/
theorem consumedStep_body_mismatch {a : State} (hs : a.faState = .body) (hl : a.accLen = a.expLen)
    (hm : a.headerMatches = false) : consumedStep a = .next (mismatchFrame a) := by
  simp only [consumedStep, hs, bodyStep, if_pos hl, hm, Bool.false_eq_true, if_false]

/-- A mismatched frame is dropped under MM = 0 (R147). -/
theorem mismatchFrame_drop {a : State} (h : a.mm = false) :
    mismatchFrame a = { a with accLen := 0#16, expLen := 0#16, faState := .hdr } := by
  simp only [mismatchFrame, h, Bool.false_eq_true, if_false]

/-- A mismatched frame is held under MM = 1 (R147). -/
theorem mismatchFrame_hold {a : State} (h : a.mm = true) : mismatchFrame a = { a with faState := .stall } := by
  simp only [mismatchFrame, h, if_true]

/-- EXP_LEN = 5 + FRAME[2] does not wrap (R143). -/
theorem byteCountStep_expLen_toNat (a : State) : (byteCountStep a).expLen.toNat = 5 + (a.frameByte 2).toNat := by
  have hlt : (a.frameByte 2).toNat < 2 ^ 8 := (a.frameByte 2).isLt
  rw [byteCountStep_expLen]
  simp
  omega

/-- PLEN of a completed frame: its length without address and CRC (R43). -/
theorem plen_of_resultLen {s : State} (h4 : 4 ≤ s.resultLen.toNat) (hmax : s.resultLen.toNat ≤ 768) :
    s.plen = s.resultLen - 3#16 := by
  have hint : s.resultLen.toInt = s.resultLen.toNat := BitVec.toInt_eq_toNat_of_lt (by omega)
  have hplen := plen_toNat (s := s) (by omega)
  apply BitVec.eq_of_toNat_eq
  rw [BitVec.toNat_sub]
  simp only [BitVec.toNat_ofNat]
  omega

/-- In BODY at least five bytes and at most 260 are expected (R139 to R143). -/
theorem expLen_bounds {s : State} (hi : s.Inv) (hs : s.faState = .body) :
    5 ≤ s.expLen.toNat ∧ s.expLen.toNat ≤ 260 := by
  obtain ⟨-, -, -, -, ⟨-, -, hbody⟩, -⟩ := hi
  obtain ⟨-, -, hmax, hbranch⟩ := hbody hs
  refine ⟨?_, hmax⟩
  rcases hbranch with ⟨-, -, h⟩ | ⟨-, h⟩ | ⟨-, h⟩ <;> omega

/-- Settles O41: the state with the byte in the frame is `takeByte`, and the step on it by FA_STATE is its lemma. -/
theorem consumeBuildsTheFrame : Obligations.ConsumeBuildsTheFrame := by
  intro s b rest hi hf
  have ⟨_, ⟨hm, _⟩, _, _, ⟨_, hbcnt, hbody⟩, _⟩ := hi
  have hacc := takeByte_accLen_toNat hi b rest
  have hbyte := takeByte_frameByte hm b rest
  have htake : s.faState.isConsuming = true → consumePhase s = consumedStep (s.takeByte b rest) :=
    fun hc => consumePhase_takeByte hi hc hf
  refine ⟨s.takeByte b rest, rfl, hacc, Memory.wf_write hm _ _, hbyte, fun hc => consumePhase_idle (.inl hc),
    fun hs h0 => ?_, fun hs => ?_, fun hs => ?_⟩
  · rw [htake (by rw [hs]; rfl)]
    exact consumedStep_hdr_wait hs (by rw [takeByte_accLen, h0]; decide)
  · obtain ⟨h2, -⟩ := hbcnt hs
    refine ⟨byteCountStep (s.takeByte b rest), ?_, rfl, ?_⟩
    · rw [htake (by rw [hs]; rfl)]
      exact consumedStep_bcnt hs
    · rw [byteCountStep_expLen_toNat, hbyte, if_pos h2.symm]
  · obtain ⟨-, hlt, -⟩ := hbody hs
    rw [htake (by rw [hs]; rfl)]
    refine ⟨hacc.trans_le hlt, consumedStep_body_wait hs, fun hl hm => ⟨?_, ?_⟩, fun hl hm => ?_⟩
    · exact consumedStep_body_match hs hl ((headerMatches_iff _).2 hm)
    · obtain ⟨hmin, hmax⟩ := expLen_bounds hi hs
      have hexp : (s.takeByte b rest).accLen.toNat = s.expLen.toNat := congrArg BitVec.toNat hl
      exact plen_of_resultLen (s := { s.takeByte b rest with resultLen := (s.takeByte b rest).accLen })
        ((Nat.le_of_succ_le hmin).trans_eq hexp.symm) (hexp.trans_le (hmax.trans (by decide)))
    · rw [consumedStep_body_mismatch (a := s.takeByte b rest) hs hl ((headerMatches_eq_false_iff _).2 hm)]
      exact ⟨fun hmm => congrArg _ (mismatchFrame_drop hmm), fun hmm => congrArg _ (mismatchFrame_hold hmm)⟩

end Sys2Proof.Machine
end

section
/-! PROOF. The frame-assembler family, part 2: the transitions of FA_STATE (spec/41_frame_assembler.md R130), a whole
cycle of a busy block, STALL (R148), exception responses (R152), and the results of a completed frame (R153). -/

namespace Sys2Proof.Machine

/-! ### The transitions of FA_STATE -/

/-- Only the opcode of START decodes to it. -/
theorem opcOf_of_decodeCommand_start {w : Word} {v : Half} (h : decodeCommand w = .start v) : opcOf w = 0x21#8 := by
  unfold decodeCommand at h
  split at h
  case h_8 hopc => exact hopc
  all_goals cases h

/-- START leaves to FAILED, TIMED_OUT or HDR (R132 to R134). -/
theorem exec_start_faState {v : Half} {s t : State} (h : exec (.start v) s = .next t) :
    s.inited = false ∧ t.faState = .failed ∧ t.resultCode = 0x84#8 ∨
      s.inited = true ∧ t.toEff = 0#16 ∧ t.faState = .timedOut ∨
      s.inited = true ∧ t.toEff ≠ 0#16 ∧ t.faState = .hdr := by
  cases hi : s.inited with
  | false =>
    rw [exec_start_closed v hi] at h
    obtain rfl := Host.Outcome.next.inj h
    exact .inl ⟨rfl, rfl, rfl⟩
  | true =>
    by_cases hz : s.effectiveTimeout v = 0#16
    · rw [exec_start_noTime hi hz] at h
      obtain rfl := Host.Outcome.next.inj h
      exact .inr (.inl ⟨rfl, rfl, rfl⟩)
    · rw [exec_start_begins hi hz] at h
      obtain rfl := Host.Outcome.next.inj h
      exact .inr (.inr ⟨rfl, hz, rfl⟩)

/-- The command phase of a free block changes FA_STATE by START alone. -/
theorem commandPhase_faState {s t : State} {w : Word} (hb : s.busy = false) (h : commandPhase (some w) s = .next t) :
    (opcOf w ≠ 0x21#8 → t.faState = s.faState) ∧
    (opcOf w = 0x21#8 → s.inited = false ∧ t.faState = .failed ∧ t.resultCode = 0x84#8 ∨
      s.inited = true ∧ t.toEff = 0#16 ∧ t.faState = .timedOut ∨
      s.inited = true ∧ t.toEff ≠ 0#16 ∧ t.faState = .hdr) := by
  rw [commandPhase_free w hb] at h
  refine ⟨fun hopc => ?_, fun hopc => ?_⟩
  · have hst : ∀ v, decodeCommand w ≠ .start v := fun v hv => hopc (opcOf_of_decodeCommand_start hv)
    exact (exec_resultsKept hst h).faState
  · rw [decodeCommand_start hopc] at h
    exact exec_start_faState h

/-- The tick event keeps FA_STATE, or ends a busy block's transaction TIMED_OUT (R150). -/
theorem tickPhase_faState (tick : Bool) (s : State) :
    (tickPhase tick s).faState = s.faState ∧
      (tick = false ∨ s.busy = false ∨ (tickPhase tick s).elapsed.toNat < s.toEff.toNat) ∨
    s.busy = true ∧ tick = true ∧ (tickPhase tick s).faState = .timedOut ∧
      s.toEff.toNat ≤ (tickPhase tick s).elapsed.toNat := by
  rcases tickPhase_cases tick s with ⟨h, hidle⟩ | ⟨-, -, hlt, h⟩ | ⟨htick, hb, hle, h⟩ <;> rw [h]
  · exact .inl ⟨rfl, hidle.imp_right .inl⟩
  · exact .inl ⟨rfl, .inr (.inr hlt)⟩
  · exact .inr ⟨hb, htick, rfl, hle⟩

theorem enqueuePhase_faState (rx : Option Byte) (s : State) : (enqueuePhase rx s).faState = s.faState := by
  rw [(enqueuePhase_frame rx s).2]

/-- Settles O44: START by `commandPhase_faState`, the rows of the consume event by the ways the assembler acts on a
taken byte, each in its own disjunct. -/
theorem faStateTransitions : Obligations.FaStateTransitions := by
  refine ⟨fun s t w => commandPhase_faState, fun s t hi h => ?_, fun s tick => tickPhase_faState tick s,
    fun s rx => enqueuePhase_faState rx s, fun s t hrst h => ?_⟩
  · rcases consumePhase_effect h with hidle | ⟨b, rest, -, -, -, hc⟩
    · exact .inl hidle
    have hacc := takeByte_accLen_toNat hi b rest
    obtain ⟨-, -, -, -, ⟨hhdr, hbcnt, hbody⟩, -⟩ := hi
    right
    cases hc with
    | wait hs hl =>
      obtain ⟨h1, -⟩ := hhdr hs
      have hne : (s.takeByte b rest).accLen.toNat ≠ 2 := fun he => hl (BitVec.eq_of_toNat_eq he)
      have heq : (s.takeByte b rest).accLen.toNat = 1 := by omega
      exact .inl ⟨hs, BitVec.eq_of_toNat_eq heq, hs⟩
    | row3 hs hl hf => exact .inr (.inl ⟨hs, hl, hf, rfl⟩)
    | row16 hs hl hf => exact .inr (.inr (.inl ⟨hs, hl, hf, rfl⟩))
    | rowException hs hl hf => exact .inr (.inr (.inr (.inl ⟨hs, hl, hf, rfl⟩)))
    | rowFailed hs hl h3 h16 he hu => exact .inr (.inr (.inr (.inr (.inl ⟨hs, hl, h3, h16, he, .inl ⟨hu, rfl⟩⟩))))
    | rowStall hs hl h3 h16 he hu => exact .inr (.inr (.inr (.inr (.inl ⟨hs, hl, h3, h16, he, .inr ⟨hu, rfl⟩⟩))))
    | byteCount hs =>
      obtain ⟨h2, -⟩ := hbcnt hs
      have heq : (s.takeByte b rest).accLen.toNat = 3 := by omega
      exact .inr (.inr (.inr (.inr (.inr (.inl ⟨hs, BitVec.eq_of_toNat_eq heq, rfl⟩)))))
    | more hs hl =>
      obtain ⟨-, hlt, -⟩ := hbody hs
      have hne : (s.takeByte b rest).accLen.toNat ≠ s.expLen.toNat := fun he => hl (BitVec.eq_of_toNat_eq he)
      exact .inr (.inr (.inr (.inr (.inr (.inr (.inl ⟨hs, by rw [takeByte_expLen]; omega, hs⟩))))))
    | complete hs hl hm =>
      obtain ⟨h0, h1⟩ := (headerMatches_iff _).1 hm
      exact .inr (.inr (.inr (.inr (.inr (.inr (.inr (.inl ⟨hs, hl, h0, h1, rfl⟩)))))))
    | restart hs hl hm hmm =>
      have hfull : s.accLen.toNat + 1 = s.expLen.toNat := hacc.symm.trans (congrArg BitVec.toNat hl)
      exact .inr (.inr (.inr (.inr (.inr (.inr (.inr (.inr
        ⟨hs, hfull, (headerMatches_eq_false_iff _).1 hm, .inl ⟨hmm, rfl⟩⟩)))))))
    | hold hs hl hm hmm =>
      have hfull : s.accLen.toNat + 1 = s.expLen.toNat := hacc.symm.trans (congrArg BitVec.toNat hl)
      exact .inr (.inr (.inr (.inr (.inr (.inr (.inr (.inr
        ⟨hs, hfull, (headerMatches_eq_false_iff _).1 hm, .inr ⟨hmm, rfl⟩⟩)))))))
  · obtain ⟨-, -, ⟨-, rfl⟩ | ⟨hno, -⟩⟩ := step_cases h
    · rfl
    · rw [hno] at hrst
      cases hrst

/-! ### A whole cycle of a busy block -/

/-- A busy block runs no command: its cycle is the consume, enqueue and tick events (R51). -/
theorem step_busy {s t : State} (hb : s.busy = true) (hrst : s.nextInput.rst = false) (h : step s = .next t) :
    ∃ c, consumePhase s.beginCycle = .next c ∧ t = tickPhase s.nextInput.tick (enqueuePhase s.nextInput.rx c) := by
  obtain ⟨-, -, s1, c, h1, hc, ht⟩ := step_phases h hrst
  rw [commandPhase_busy (s := s.beginCycle) _ hb] at h1
  obtain rfl := Host.Outcome.next.inj h1
  exact ⟨c, hc, ht⟩

/-- What the enqueue and tick events make of FA_STATE after the consume event led to `c`: they keep it, unless the tick
brings ELAPSED to TO_EFF. -/
theorem step_busy_faState {s c : State} (hi : s.Inv) (hb : s.busy = true) (hc : consumePhase s.beginCycle = .next c)
    (tick : Bool) (rx : Option Byte) :
    (tickPhase tick (enqueuePhase rx c)).faState = c.faState ∨
      (tickPhase tick (enqueuePhase rx c)).faState = .timedOut ∧ tick = true ∧ s.toEff.toNat ≤ s.elapsed.toNat + 1 := by
  obtain ⟨-, -, -, ht, -⟩ := hi
  obtain ⟨hframe, helapsed, -⟩ := consumePhase_frame hc
  rw [beginCycle_elapsed] at helapsed
  rw [tickPhase_enqueuePhase]
  rcases tickPhase_cases tick c with ⟨h, -⟩ | ⟨-, -, -, h⟩ | ⟨htick, -, hle, h⟩ <;> rw [h]
  · exact .inl rfl
  · exact .inl rfl
  · refine .inr ⟨rfl, htick, ?_⟩
    rw [helapsed, hframe.toEff] at hle
    exact hle.trans_eq (elapsed_succ_toNat ht hb)

/-! ### STALL -/

/-- The enqueue event only adds behind what waits in the FIFO. -/
theorem enqueuePhase_fifo_append (rx : Option Byte) (s : State) :
    ∃ more, (enqueuePhase rx s).fifo = s.fifo ++ more := by
  rcases enqueuePhase_cases rx s with ⟨h, -⟩ | ⟨b, -, -, -, h⟩ | ⟨b, -, -, -, h⟩ <;> rw [h]
  · exact ⟨[], (List.append_nil _).symm⟩
  · exact ⟨[b], rfl⟩
  · exact ⟨[], (List.append_nil _).symm⟩

theorem enqueuePhase_frame_lengths (rx : Option Byte) (s : State) :
    (enqueuePhase rx s).frame = s.frame ∧ (enqueuePhase rx s).accLen = s.accLen ∧
      (enqueuePhase rx s).expLen = s.expLen := by
  rw [(enqueuePhase_frame rx s).2]
  exact ⟨rfl, rfl, rfl⟩

/-- The enqueue event depends on neither the inputs to come nor the output ports. -/
theorem enqueuePhase_beginCycle (rx : Option Byte) (s : State) :
    (enqueuePhase rx s.beginCycle).fifo = (enqueuePhase rx s).fifo ∧
      (enqueuePhase rx s.beginCycle).rxovr = (enqueuePhase rx s).rxovr := by
  cases rx with
  | none => exact ⟨rfl, rfl⟩
  | some b =>
    simp only [enqueuePhase, apply_ite State.fifo, apply_ite State.rxovr]
    exact ⟨rfl, rfl⟩

/-- Settles O42: the consume event does nothing in STALL, the enqueue event shows in the FIFO and RXOVR only, and the
tick event keeps the frame, the lengths and the FIFO. -/
theorem stallConsumesNothing : Obligations.StallConsumesNothing := by
  intro s t hi hs hrst h
  have hb : s.busy = true := by rw [State.busy, hs]; rfl
  have hidle : consumePhase s.beginCycle = .next s.beginCycle :=
    consumePhase_idle (.inl (by rw [beginCycle_faState, hs]; rfl))
  obtain ⟨c, hc, rfl⟩ := step_busy hb hrst h
  obtain rfl := Host.Outcome.next.inj (hidle.symm.trans hc)
  have hstate := step_busy_faState hi hb hidle s.nextInput.tick s.nextInput.rx
  rw [beginCycle_faState, hs] at hstate
  obtain ⟨-, hframe, hfifo, hacc, hexp, hovr⟩ :=
    tickPhase_frame s.nextInput.tick (enqueuePhase s.nextInput.rx s.beginCycle)
  obtain ⟨hframe', hacc', hexp'⟩ := enqueuePhase_frame_lengths s.nextInput.rx s.beginCycle
  obtain ⟨hqueue, hflag⟩ := enqueuePhase_beginCycle s.nextInput.rx s
  refine ⟨hb, by simp [State.accepted, cmdReady, hb], hframe.trans hframe', hacc.trans hacc', hexp.trans hexp', ?_,
    hfifo.trans hqueue, hovr.trans hflag, hstate⟩
  rw [hfifo, hqueue]
  exact enqueuePhase_fifo_append _ s

/-! ### Completion -/

/-- The consume event of a busy block completes a transaction by a full frame that matches the request (R145, R146). -/
theorem consumePhase_completes {s t : State} (hi : s.Inv) (hb : s.busy = true) (h : consumePhase s = .next t)
    (ht : t.faState = .complete) :
    ∃ a, t = completeFrame a ∧ a.accLen = a.expLen ∧ 5 ≤ a.accLen.toNat ∧ a.frameByte 0 = a.reqAddr ∧
      a.frameByte 1 = a.reqFc := by
  rcases consumePhase_effect h with ⟨rfl, -⟩ | ⟨b, rest, -, -, -, hc⟩
  · rw [State.busy, ht] at hb
    cases hb
  cases hc with
  | complete hs hl hm =>
    obtain ⟨h0, h1⟩ := (headerMatches_iff _).1 hm
    refine ⟨s.takeByte b rest, rfl, hl, ?_, h0, h1⟩
    rw [hl]
    exact (expLen_bounds hi hs).1
  | wait hs | more hs => rw [hs] at ht; cases ht
  | row3 | row16 | rowException | rowFailed | rowStall | byteCount | restart | hold => cases ht

/-- A cycle of a busy block completes a transaction by its consume event; the events behind it show in the FIFO and
RXOVR only. -/
theorem step_completes {s t : State} (hi : s.Inv) (hb : s.busy = true) (h : step s = .next t)
    (ht : t.faState = .complete) :
    ∃ a q r, t = { completeFrame a with fifo := q, rxovr := r } ∧ a.accLen = a.expLen ∧ 5 ≤ a.accLen.toNat ∧
      a.frameByte 0 = a.reqAddr ∧ a.frameByte 1 = a.reqFc := by
  obtain ⟨-, -, ⟨-, rfl⟩ | ⟨hrst, -⟩⟩ := step_cases h
  · cases ht
  obtain ⟨c, hc, rfl⟩ := step_busy hb hrst h
  have hstate : c.faState = .complete := by
    rcases step_busy_faState hi hb hc s.nextInput.tick s.nextInput.rx with h | ⟨h, -⟩
    · exact h.symm.trans ht
    · cases h.symm.trans ht
  obtain ⟨a, rfl, ha⟩ := consumePhase_completes (beginCycle_inv hi) hb hc hstate
  have ⟨_, henq⟩ := enqueuePhase_frame s.nextInput.rx (completeFrame a)
  refine ⟨a, _, _, Eq.trans ?_ henq, ha⟩
  exact tickPhase_free _ (by rw [henq]; rfl)

/-- A frame of four bytes or more that echoes the request code is classified as NO_ERROR or CRC_MISMATCH, and as no
exception: REQ_FC is not REQ_FC + 0x80 (R153, R170). -/
theorem classify_of_echo {codes : List Byte} {fc : Byte} {s : List Byte} (hlen : 4 ≤ s.length)
    (hfc : s.getD 1 0#8 = fc) :
    ((classify codes fc s).1 = 0x00#8 ∨ (classify codes fc s).1 = 0x82#8) ∧ (classify codes fc s).2 = 0x00#8 := by
  cases hv : verify s with
  | false => rw [classify_of_not_verify codes fc hlen hv]; exact ⟨.inr rfl, rfl⟩
  | true =>
    have hnoexc : isExceptionFc fc fc = false := by simp [isExceptionFc]
    rw [classify_of_verify codes fc hlen hv, hfc, hnoexc]
    exact ⟨.inl rfl, rfl⟩

/-- Settles O46: the completed frame echoes the request code and is long enough, so `classify_of_echo` gives its
results, and its code tells whether the CRC agrees. -/
theorem completionIsClassified : Obligations.CompletionIsClassified := by
  intro s t hi hb h ht
  obtain ⟨a, q, r, rfl, hl, h5, h0, h1⟩ := step_completes hi hb h ht
  have hlen : 4 ≤ a.frameBytes.length := by rw [frameBytes_length]; omega
  have hfc : a.frameBytes.getD 1 0#8 = a.reqFc := (frameBytes_getD a (by omega)).trans h1
  obtain ⟨hcode, hexc⟩ := classify_of_echo (codes := a.params.recCodes) hlen hfc
  have hverify : verify a.frameBytes = (a.classification.1 != 0x82#8) := verify_eq_classify_ne hlen hfc
  refine ⟨hcode, hexc, ⟨rfl, rfl, hl, h5, h0, h1⟩, rfl, ?_⟩
  exact congrArg (fun ok => Host.Outcome.next { completeFrame a with fifo := q, rxovr := r, crcOk := ok }) hverify

/-! ### Exception responses -/

/-- While an exception response is received, five bytes are expected: no exception code is one of the two codes that
come before it in R91. -/
theorem expLen_of_exception {s : State} (hi : s.Inv) (hs : s.faState = .body)
    (he : (s.frameByte 1).toNat = s.reqFc.toNat + 0x80) : s.expLen.toNat = 5 := by
  obtain ⟨-, -, -, -, ⟨-, -, hbody⟩, -⟩ := hi
  obtain ⟨-, -, -, ⟨h3, -⟩ | ⟨h16, -⟩ | ⟨-, h5⟩⟩ := hbody hs
  · rw [h3] at he
    simp only [BitVec.toNat_ofNat] at he
    omega
  · rw [h16] at he
    simp only [BitVec.toNat_ofNat] at he
    omega
  · exact h5

/-- The consume event never completes an exception response: its second byte is not REQ_FC. Its fifth byte drops or
holds it (R147). -/
theorem consumePhase_exception {s t : State} (hi : s.Inv) (hs : s.faState = .body)
    (he : (s.frameByte 1).toNat = s.reqFc.toNat + 0x80) (h : consumePhase s = .next t) :
    t.faState ≠ .complete ∧
    (s.accLen = 4#16 → s.fifo ≠ [] →
      s.mm = false ∧ t.faState = .hdr ∧ t.accLen = 0#16 ∨ s.mm = true ∧ t.faState = .stall ∧ t.accLen = 5#16) := by
  have hexp := expLen_of_exception hi hs he
  rcases consumePhase_effect h with ⟨rfl, hidle⟩ | ⟨b, rest, -, -, -, hc⟩
  · refine ⟨by rw [hs]; decide, fun _ hne => ?_⟩
    rcases hidle with hnc | hempty
    · rw [hs] at hnc
      cases hnc
    · exact absurd hempty hne
  have hacc : s.accLen = 4#16 → (s.takeByte b rest).accLen = 5#16 := fun h4 => by rw [takeByte_accLen, h4]; rfl
  have hfull : (5#16 : Half) = s.expLen := BitVec.eq_of_toNat_eq hexp.symm
  cases hc with
  | more _ hl => exact ⟨by rw [takeByte_faState, hs]; decide, fun h4 _ => absurd ((hacc h4).trans hfull) hl⟩
  | complete _ _ hm =>
    obtain ⟨-, ⟨hm', -⟩, -, -, ⟨-, -, hbody⟩, -⟩ := hi
    obtain ⟨h2, -⟩ := hbody hs
    have hbyte : (s.takeByte b rest).frameByte 1 = s.frameByte 1 := by
      rw [takeByte_frameByte hm', if_neg (by omega)]
    have h1 : s.frameByte 1 = s.reqFc := hbyte.symm.trans ((headerMatches_iff _).1 hm).2
    rw [h1] at he
    omega
  | restart _ _ _ hmm => exact ⟨nofun, fun _ _ => .inl ⟨hmm, rfl, rfl⟩⟩
  | hold _ _ _ hmm => exact ⟨nofun, fun h4 _ => .inr ⟨hmm, rfl, hacc h4⟩⟩
  | wait hs' | row3 hs' | row16 hs' | rowException hs' | rowFailed hs' | rowStall hs' | byteCount hs' =>
    cases hs.symm.trans hs'

/-- Settles O45: the consume event by `consumePhase_exception`, and the tick leads only to TIMED_OUT. -/
theorem exceptionResponseNeverCompletes : Obligations.ExceptionResponseNeverCompletes := by
  intro s t hi hs he hrst h
  have hb : s.busy = true := by rw [State.busy, hs]; rfl
  obtain ⟨c, hc, rfl⟩ := step_busy hb hrst h
  obtain ⟨hne, hfifth⟩ := consumePhase_exception (beginCycle_inv hi) hs he hc
  have hacc : (tickPhase s.nextInput.tick (enqueuePhase s.nextInput.rx c)).accLen = c.accLen := by
    obtain ⟨-, -, -, htick, -⟩ := tickPhase_frame s.nextInput.tick (enqueuePhase s.nextInput.rx c)
    obtain ⟨-, henq, -⟩ := enqueuePhase_frame_lengths s.nextInput.rx c
    exact htick.trans henq
  rcases step_busy_faState hi hb hc s.nextInput.tick s.nextInput.rx with hkeep | ⟨hend, hdeadline⟩
  · rw [hkeep, hacc]
    exact ⟨hne, fun h4 hf => .inr (hfifth h4 hf)⟩
  · rw [hend]
    exact ⟨by decide, fun _ _ => .inl ⟨rfl, hdeadline⟩⟩

end Sys2Proof.Machine
end

section
/-! PROOF. The frame-assembler family, part 3: chunking does not matter (spec/41_frame_assembler.md R154). The bytes
alone decide what the assembler makes of them, so a run that completes leaves what `assemble` makes of its byte
sequence, however the bytes were delivered. -/

namespace Sys2Proof.Machine

/-! ### What the bytes decide -/

/-- A state without what the delivery of bytes and ticks decides: the FIFO, RXOVR, ELAPSED, the inputs to come and the
output ports. -/
def State.assembly (s : State) : State :=
  { s with fifo := [], rxovr := false, elapsed := 0#16, inputs := [],
           out := { cmdReady := false, rdData := none, irq := false } }

/-- An outcome without these parts of its next state. -/
def outcomeAssembly (o : Out) : Out := andThen o fun t => .next t.assembly

/-- What the assembler makes of a byte sequence, when every byte is there as soon as it is asked for. -/
def assemble : List Byte → State → Out
  | [], s => .next s
  | b :: bs, s => if s.faState.isConsuming then andThen (consumedStep (s.appendByte b)) (assemble bs) else .next s

/-- What the assembler makes of the bytes that wait in the FIFO and those still to come. -/
def State.assembled (s : State) (coming : List Byte) : Out := assemble (s.fifo ++ coming) s.assembly

theorem assemble_of_not_consuming {s : State} (bs : List Byte) (h : s.faState.isConsuming = false) :
    assemble bs s = .next s := by
  cases bs with
  | nil => rfl
  | cons b bs => rw [assemble, h]; rfl

theorem assembled_of_not_consuming {s : State} (coming : List Byte) (h : s.faState.isConsuming = false) :
    s.assembled coming = .next s.assembly :=
  assemble_of_not_consuming (s := s.assembly) _ h

/-! ### The assembler's steps read only the assembly -/

theorem exec_decodeResponse_assembly (reqFc f : Byte) (s : State) :
    exec (decodeResponse reqFc f) s.assembly = outcomeAssembly (exec (decodeResponse reqFc f) s) := by
  rcases decodeResponse_cases reqFc f with ⟨-, h⟩ | ⟨-, h⟩ | ⟨-, -, -, h⟩ | ⟨-, -, -, h⟩ <;> rw [h]
  case inr.inr.inr => simp only [exec, execRspFcOther, apply_ite outcomeAssembly]; rfl
  all_goals rfl

theorem bodyStep_assembly (s : State) : bodyStep s.assembly = (bodyStep s).assembly := by
  simp only [bodyStep, mismatchFrame, apply_ite State.assembly]; rfl

theorem consumedStep_assembly (s : State) : consumedStep s.assembly = outcomeAssembly (consumedStep s) := by
  have hstate : s.assembly.faState = s.faState := rfl
  unfold consumedStep
  rw [hstate]
  cases s.faState with
  | hdr =>
    have hrow := exec_decodeResponse_assembly s.reqFc (s.frameByte 1) s
    simp only [headerStep, apply_ite outcomeAssembly, ← hrow]
    rfl
  | body => exact congrArg Host.Outcome.next (bodyStep_assembly s)
  | idle | bcnt | stall | complete | timedOut | failed => rfl

/-! ### A cycle without a command -/

/-- The consume event is the next step of `assemble`. -/
theorem consumePhase_assembled {s c : State} (h : consumePhase s = .next c) (coming : List Byte) :
    c.assembled coming = s.assembled coming := by
  rcases consumePhase_cases h with ⟨rfl, -⟩ | ⟨b, rest, hc, hf, -, hstep⟩
  · rfl
  have hc' : s.assembly.faState.isConsuming = true := hc
  have hfifo : c.fifo = rest := by
    obtain ⟨-, -, hfifo, -⟩ := (consumed_of_step (a := s.takeByte b rest) hc hstep).frame
    exact hfifo
  have hbyte : consumedStep (s.assembly.appendByte b) = .next c.assembly := by
    exact (consumedStep_assembly (s.takeByte b rest)).trans (congrArg outcomeAssembly hstep)
  rw [State.assembled, State.assembled, hf, hfifo, List.cons_append, assemble, if_pos hc', hbyte, andThen_next]

/-- No received byte is lost while the assembler consumes: the consume event makes room for it (R261). -/
theorem enqueuePhase_assembled {s c : State} (hi : s.Inv) (h : consumePhase s = .next c) (rx : Option Byte)
    (coming : List Byte) : (enqueuePhase rx c).assembled coming = c.assembled (rx.toList ++ coming) := by
  cases hc : c.faState.isConsuming with
  | false =>
    have hc' : (enqueuePhase rx c).faState.isConsuming = false := by rw [enqueuePhase_faState, hc]
    rw [assembled_of_not_consuming _ hc, assembled_of_not_consuming _ hc', (enqueuePhase_frame rx c).2]
    rfl
  | true =>
    cases rx with
    | none => rfl
    | some b =>
      obtain ⟨-, -, -, -, -, -, hbusy, -⟩ := consumePhase_inv hi h
      have hopen : c.inited = true := (hbusy (busy_of_isConsuming hc)).1
      have hsc : s.faState.isConsuming = true := by
        rcases consumePhase_cases h with ⟨rfl, -⟩ | ⟨-, -, hsc, -⟩
        · exact hc
        · exact hsc
      obtain ⟨hl, -, hq, -⟩ := hi
      rw [enqueuePhase_push b hopen (consumePhase_leaves_room hl hq hsc h)]
      exact congrArg (assemble · c.assembly) (List.append_assoc ..)

/-- The tick event changes ELAPSED only, or times the transaction out. -/
theorem tickPhase_assembled (tick : Bool) (s : State) (coming : List Byte) :
    (tickPhase tick s).faState = .timedOut ∨ (tickPhase tick s).assembled coming = s.assembled coming := by
  rcases tickPhase_cases tick s with ⟨h, -⟩ | ⟨-, -, -, h⟩ | ⟨-, -, -, h⟩ <;> rw [h]
  · exact .inr rfl
  · exact .inr rfl
  · exact .inl rfl

/-- A cycle without reset and command keeps what the assembler makes of the bytes, unless it times the transaction
out. -/
theorem step_assembled {s t : State} (hi : s.Inv) (hrst : s.nextInput.rst = false) (hcmd : s.nextInput.cmd = none)
    (h : step s = .next t) (coming : List Byte) :
    t.faState = .timedOut ∨ t.assembled coming = s.assembled (s.nextInput.rx.toList ++ coming) := by
  obtain ⟨-, -, s1, c, h1, hc, rfl⟩ := step_phases h hrst
  rw [hcmd] at h1
  obtain rfl : s.beginCycle = s1 := Host.Outcome.next.inj h1
  refine (tickPhase_assembled _ _ coming).imp_right fun htick => ?_
  rw [htick, enqueuePhase_assembled (beginCycle_inv hi) hc, consumePhase_assembled hc]
  rfl

/-! ### A whole run -/

theorem rxBytes_cons (x : CycleIn) (xs : List CycleIn) : rxBytes (x :: xs) = x.rx.toList ++ rxBytes xs := by
  rw [rxBytes, List.filterMap_cons]
  cases x.rx <;> rfl

/-- A run without reset and command that ends COMPLETE leaves what the assembler makes of the bytes. -/
theorem runInputs_assembled {xs : List CycleIn} {s t : State} (hi : s.Inv) (hq : quietInputs xs) (hn : noCommands xs)
    (h : runInputs xs s = .next t) (ht : t.faState = .complete) : s.assembled (rxBytes xs) = .next t.assembly := by
  induction xs generalizing s with
  | nil =>
    obtain rfl := Host.Outcome.next.inj h
    exact assembled_of_not_consuming (s := s) _ (by rw [show s.faState = .complete from ht]; rfl)
  | cons x xs ih =>
    rw [runInputs_cons] at h
    obtain ⟨u, hstep, hrun⟩ := andThen_eq_next.1 h
    have hrest := ih (everyStepKeepsTheInvariant _ _ (by exact hi) hstep) (fun i hx => hq i (List.mem_cons_of_mem _ hx))
      (fun i hx => hn i (List.mem_cons_of_mem _ hx)) hrun
    obtain ⟨hrst, -⟩ := hq x List.mem_cons_self
    rcases step_assembled (s := { s with inputs := x :: xs }) hi hrst (hn x List.mem_cons_self) hstep (rxBytes xs)
      with hend | hkeep
    · rw [assembled_of_not_consuming _ (by rw [hend]; rfl)] at hrest
      have hstate : u.faState = t.faState := (congrArg State.faState (Host.Outcome.next.inj hrest) :)
      rw [hend, ht] at hstate
      cases hstate
    · rw [rxBytes_cons, ← hrest, hkeep]
      rfl

/-- Settles O57: both runs leave what the assembler makes of the one byte sequence. -/
theorem chunkingDoesNotMatter : Obligations.ChunkingDoesNotMatter := by
  intro s t u waiting xs ys hi hi' _ hqx hqy hnx hny hbytes hx hy ht hu
  have hleft : assemble (s.fifo ++ rxBytes xs) s.assembly = .next t.assembly := runInputs_assembled hi hqx hnx hx ht
  have hright : assemble (waiting ++ rxBytes ys) s.assembly = .next u.assembly := runInputs_assembled hi' hqy hny hy hu
  rw [hbytes, hright] at hleft
  have heq : t.assembly = u.assembly := (Host.Outcome.next.inj hleft).symm
  exact ⟨(congrArg State.frameBytes heq :), (congrArg State.accLen heq :), (congrArg State.resultCode heq :),
    (congrArg State.excRaw heq :), (congrArg State.resultLen heq :)⟩

end Sys2Proof.Machine
end

section
/-! PROOF. The frame-assembler family, part 4: every transaction ends no later than its deadline tick
(spec/41_frame_assembler.md R150, R155). -/

namespace Sys2Proof.Machine

/-- From a state that meets the invariant every cycle whose read is allowed has a next state (R137, R220). -/
theorem step_next {s : State} (hi : s.Inv) (hr : s.ReadAllowed) : ∃ t, step s = .next t := by
  have ⟨hl, _⟩ := hi
  cases h : step s with
  | next t => exact ⟨t, rfl⟩
  | fault r =>
    obtain ⟨-, s1, h1, hfault⟩ := step_fault h
    obtain ⟨hc, hmax⟩ := consumePhase_fault hfault
    exact absurd hmax (Nat.not_le.2 (accLen_lt_frameMax (commandPhase_inv (beginCycle_inv hi) h1) hc))
  | refused q => exact absurd h (step_ne_refused hl hr q)

/-- The transaction has ended, and the host is told. -/
def State.Ended (s : State) : Prop := s.faState.isTerminal = true ∧ s.done = true

/-- The consume event of a busy block keeps it busy or ends the transaction. -/
theorem consumePhase_busy_or_ended {s t : State} (hb : s.busy = true) (h : consumePhase s = .next t) :
    t.busy = true ∨ t.Ended := by
  rcases consumePhase_effect h with ⟨rfl, -⟩ | ⟨b, rest, -, -, -, hc⟩
  · exact .inl hb
  cases hc with
  | wait | more => exact .inl hb
  | rowFailed | complete => exact .inr ⟨rfl, rfl⟩
  | row3 | row16 | rowException | rowStall | byteCount | restart | hold => exact .inl rfl

theorem busy_eq_false_of_isTerminal {s : State} (h : s.faState.isTerminal = true) : s.busy = false := by
  unfold State.busy
  cases hs : s.faState <;> simp [hs, FaState.isTerminal, FaState.isBusy] at h ⊢

/-- A cycle of a busy block ends the transaction, or goes on with its tick counted. -/
theorem step_busy_progress {s t : State} (hi : s.Inv) (hb : s.busy = true) (hrst : s.nextInput.rst = false)
    (h : step s = .next t) :
    t.Ended ∨ t.busy = true ∧ t.toEff = s.toEff ∧ t.elapsed.toNat = s.elapsed.toNat + s.nextInput.tick.toNat := by
  obtain ⟨c, hc, rfl⟩ := step_busy hb hrst h
  obtain ⟨hframe, helapsed, -⟩ := consumePhase_frame hc
  have htoEff : c.toEff = s.toEff := hframe.toEff
  rw [beginCycle_elapsed] at helapsed
  rw [tickPhase_enqueuePhase]
  rcases consumePhase_busy_or_ended (s := s.beginCycle) hb hc with hbusy | hend
  · rcases tickPhase_cases s.nextInput.tick c with ⟨h, htick | hfree⟩ | ⟨htick, -, -, h⟩ | ⟨-, -, -, h⟩ <;> rw [h]
    · exact .inr ⟨hbusy, htoEff, by rw [htick]; exact congrArg BitVec.toNat helapsed⟩
    · rw [hbusy] at hfree
      cases hfree
    · obtain ⟨-, -, -, ht, -⟩ := hi
      have hcount : (c.elapsed + 1#16).toNat = s.elapsed.toNat + 1 := by
        rw [helapsed, elapsed_succ_toNat ht hb]
      exact .inr ⟨hbusy, htoEff, by rw [htick]; exact hcount⟩
    · exact .inl ⟨rfl, rfl⟩
  · have ⟨hterminal, _⟩ := hend
    rw [tickPhase_free _ (busy_eq_false_of_isTerminal hterminal)]
    exact .inl hend

theorem tickCount_cons (x : CycleIn) (xs : List CycleIn) : tickCount (x :: xs) = x.tick.toNat + tickCount xs := by
  rw [tickCount, List.filter_cons]
  cases x.tick
  · exact (Nat.zero_add _).symm
  · exact Nat.add_comm _ 1

/-- A busy block that is given the ticks left to its deadline ends its transaction on the way. -/
theorem runFor_ends {xs : List CycleIn} {s : State} (hi : s.Inv) (hb : s.busy = true) (hq : quietInputs xs)
    (hin : s.inputs = xs) (hticks : s.toEff.toNat - s.elapsed.toNat ≤ tickCount xs) :
    ∃ k t, k ≤ xs.length ∧ runFor k s = .next t ∧ t.Ended := by
  induction xs generalizing s with
  | nil =>
    obtain ⟨-, -, -, ⟨-, hlt⟩, -⟩ := hi
    have hlt := hlt hb
    rw [show tickCount [] = 0 from rfl] at hticks
    omega
  | cons x xs ih =>
    have hx : s.nextInput = x := by rw [State.nextInput, hin]; rfl
    obtain ⟨hrst, hr⟩ := hq x List.mem_cons_self
    obtain ⟨t, hstep⟩ := step_next hi (by rw [State.ReadAllowed, hx]; exact hr)
    have hrun (k : Nat) : runFor (k + 1) s = runFor k t := by rw [runFor_succ, hstep, andThen_next]
    rcases step_busy_progress hi hb (hx ▸ hrst) hstep with hend | ⟨hbusy, htoEff, helapsed⟩
    · exact ⟨1, t, Nat.succ_pos _, hrun 0, hend⟩
    · have hleft : t.toEff.toNat - t.elapsed.toNat ≤ tickCount xs := by
        rw [tickCount_cons] at hticks
        rw [htoEff, helapsed, hx]
        omega
      obtain ⟨k, u, hk, hu, hend⟩ := ih (everyStepKeepsTheInvariant _ _ hi hstep) hbusy
        (fun i h => hq i (List.mem_cons_of_mem _ h)) (by rw [step_inputs hstep, hin]; rfl) hleft
      exact ⟨k + 1, u, Nat.succ_le_succ hk, (hrun k).trans hu, hend⟩

/-- Settles O58: each cycle of the run ends the transaction or brings it closer to TO_EFF by its tick. -/
theorem everyTransactionEnds : Obligations.EveryTransactionEnds := by
  intro s xs hi hb hq hticks
  exact runFor_ends (s := { s with inputs := xs }) hi hb hq rfl hticks

end Sys2Proof.Machine
end

section
/-! PROOF. The response-validator family (spec/42_response_validator.md): the exception decoder (R172), each check of
`classify` (R170), the codes it returns (R174), and VALIDATE (R173). -/

namespace Sys2Proof.Machine

/-! ### The exception decoder -/

theorem decodeExc_of_mem {codes : List Byte} {e : Byte} (h : e ∈ codes) : decodeExc codes e = e :=
  if_pos (List.contains_iff_mem.2 h)

theorem decodeExc_of_not_mem {codes : List Byte} {e : Byte} (h : e ∉ codes) : decodeExc codes e = 0xFF#8 :=
  if_neg (List.contains_iff_mem.not.2 h)

/-- The recognised codes of this block, as numbers (R172). -/
theorem mem_block_recCodes_iff (e : Byte) :
    e ∈ Params.block.recCodes ↔ e.toNat ∈ [1, 2, 3, 4, 5, 6, 8, 10, 11] :=
  (List.mem_map_of_injective BitVec.toNat_injective).symm

/-! ### The checks in their order -/

theorem classify_of_short (codes : List Byte) (fc : Byte) {s : List Byte} (hlen : s.length < 4) :
    classify codes fc s = (0x83#8, 0x00#8) :=
  if_pos hlen

theorem classify_of_exception (codes : List Byte) {fc : Byte} {s : List Byte} (hlen : 4 ≤ s.length)
    (hv : verify s = true) (hfc : (s.getD 1 0#8).toNat = fc.toNat + 0x80) :
    classify codes fc s = (decodeExc codes (s.getD 2 0#8), s.getD 2 0#8) :=
  (classify_of_verify codes fc hlen hv).trans (if_pos (beq_iff_eq.2 hfc))

theorem classify_of_not_exception (codes : List Byte) {fc : Byte} {s : List Byte} (hlen : 4 ≤ s.length)
    (hv : verify s = true) (hfc : (s.getD 1 0#8).toNat ≠ fc.toNat + 0x80) :
    classify codes fc s = (0x00#8, 0x00#8) :=
  (classify_of_verify codes fc hlen hv).trans (if_neg (beq_iff_eq.not.2 hfc))

/-- Settles O24: one lemma for each check and for each answer of the exception decoder. -/
theorem classifyDecidesInOrder : Obligations.ClassifyDecidesInOrder := by
  refine ⟨fun codes fc s => ⟨classify_of_short codes fc, classify_of_not_verify codes fc, classify_of_exception codes,
    classify_of_not_exception codes⟩, fun codes e => ⟨decodeExc_of_mem, decodeExc_of_not_mem⟩, fun e => ?_⟩
  rw [← mem_block_recCodes_iff]
  exact ⟨decodeExc_of_mem, decodeExc_of_not_mem⟩

/-! ### The codes the validator returns -/

/-- The code is that of the check that applies; only the exception decoder answers with a recognised code (R174). -/
theorem classify_code_mem (codes : List Byte) (fc : Byte) (s : List Byte) :
    (classify codes fc s).1 ∈ [0x00#8, 0x82#8, 0x83#8, 0xFF#8] ∨ (classify codes fc s).1 ∈ codes := by
  rcases Nat.lt_or_ge s.length 4 with hlen | hlen
  · rw [classify_of_short codes fc hlen]
    exact .inl (by decide)
  cases hv : verify s with
  | false =>
    rw [classify_of_not_verify codes fc hlen hv]
    exact .inl (by decide)
  | true =>
    by_cases hfc : (s.getD 1 0#8).toNat = fc.toNat + 0x80
    · rw [classify_of_exception codes hlen hv hfc]
      by_cases hmem : s.getD 2 0#8 ∈ codes
      · rw [decodeExc_of_mem hmem]
        exact .inr hmem
      · rw [decodeExc_of_not_mem hmem]
        exact .inl (by simp)
    · rw [classify_of_not_exception codes hlen hv hfc]
      exact .inl (by decide)

/-- A legal set of recognised codes holds protocol codes only, which end at 11 (R6). -/
theorem le_eleven_of_mem_recCodes {p : Params} (hp : p.legal = true) {c : Byte} (hc : c ∈ p.recCodes) :
    c.toNat ≤ 11 := by
  obtain ⟨-, -, -, hcodes⟩ := (legal_iff p).1 hp
  obtain ⟨hrange, -⟩ := (recCodesLegal_iff p.recCodes).1 hcodes
  exact (hrange c hc).2

/-- Settles O25: `classify_code_mem`, and no code it names is one of the assembler's; the recognised ones lie below. -/
theorem classifyNeverReturnsAssemblerCodes : Obligations.ClassifyNeverReturnsAssemblerCodes := by
  intro p fc s
  have hcode := classify_code_mem p.recCodes fc s
  refine ⟨hcode, fun hp => ?_⟩
  generalize (classify p.recCodes fc s).1 = c at hcode
  rcases hcode with hown | hrec
  · revert c
    decide
  · have hle := le_eleven_of_mem_recCodes hp hrec
    and_intros <;> rintro rfl <;> exact absurd hle (by decide)

/-! ### VALIDATE -/

theorem decodeCommand_validate {w : Word} (h : opcOf w = 0x30#8) : decodeCommand w = .validate := by
  rw [decodeCommand, h]; rfl

theorem exec_validate (s : State) :
    exec .validate s =
      .next { s with resultCode := s.classification.1, excRaw := s.classification.2, resultLen := s.accLen } := rfl

/-- Settles O26: the meaning of VALIDATE as it stands; an empty frame fails the length check. -/
theorem validateClassifiesTheFrame : Obligations.ValidateClassifiesTheFrame := by
  refine ⟨fun _ => decodeCommand_validate, heldWhileBusy _, fun s => ⟨exec_validate s, fun hempty => ?_⟩⟩
  have hlen : s.frameBytes.length < 4 := by
    rw [frameBytes_length, hempty]
    decide
  rw [exec_validate, State.classification, classify_of_short _ _ hlen, hempty]

/-- An exception response with its CRC is classified by its exception byte; up to 0x7F the request code plus 0x80 does
not overflow the byte (R170, R118). -/
theorem classify_exceptionFrame (codes : List Byte) {fc : Byte} (addr e : Byte) (hfc : fc.toNat ≤ 0x7F) :
    classify codes fc (withCrc [addr, fc + 0x80#8, e]) = (decodeExc codes e, e) := by
  have hsum : (fc + 0x80#8).toNat = fc.toNat + 0x80 := BitVec.toNat_add_of_lt (by simp; omega)
  have hlen : 4 ≤ (withCrc [addr, fc + 0x80#8, e]).length := by simp [withCrc, crcBytes]
  exact classify_of_exception codes hlen (verify_withCrc _) hsum

/-- Settles O27: the frame is classified by `classify_exceptionFrame`, and its five bytes leave a payload of two. -/
theorem exceptionFrameIsDecodedByValidate : Obligations.ExceptionFrameIsDecodedByValidate := by
  intro s addr e hfc hframe
  have hclass : s.classification = (decodeExc s.params.recCodes e, e) := by
    rw [State.classification, hframe]
    exact classify_exceptionFrame _ addr e hfc
  have hacc : s.accLen = 5#16 := BitVec.eq_of_toNat_eq (by rw [← frameBytes_length, hframe]; rfl)
  refine ⟨_, exec_validate s, congrArg Prod.fst hclass, congrArg Prod.snd hclass, hacc, ?_⟩
  rw [State.plen, hacc]
  rfl

end Sys2Proof.Machine
end

section
/-! PROOF. The control family (spec/43_control.md R190 to R198): NOP, the frame-buffer commands, the transport's lifetime,
the policies and flags, RX_CLEAR and the reserved opcodes. -/

namespace Sys2Proof.Machine

/-! ### The reserved opcodes -/

/-- The decoder's last row carries OPC, and only a reserved OPC reaches it (R84). -/
theorem decodeCommand_eq_reserved_iff {w : Word} {opc : Byte} :
    decodeCommand w = .reserved opc ↔ isReservedOpc (opcOf w) = true ∧ opc = opcOf w := by
  refine ⟨fun h => ?_, fun ⟨hres, hopc⟩ => hopc ▸ decodeCommand_of_reserved hres⟩
  -- Of the decoder's rows only the last gives `reserved`, and what it gives is well formed for a reserved OPC only.
  have hwf := decodeCommand_wellFormed w
  rw [h] at hwf
  have hopc : opc = opcOf w := by
    unfold decodeCommand at h
    split at h
    case h_16 => exact (Instr.reserved.inj h).symm
    all_goals cases h
  exact ⟨hopc ▸ hwf, hopc⟩

/-- Settles O16: the last row is `decodeCommand_eq_reserved_iff`; the reserved values are counted by evaluation. -/
theorem reservedOpcodesOnlySetIllcmd : Obligations.ReservedOpcodesOnlySetIllcmd := by
  refine ⟨fun w => ⟨fun h => ⟨_, decodeCommand_of_reserved h⟩, fun ⟨_, h⟩ => (decodeCommand_eq_reserved_iff.1 h).1⟩,
    fun _ _ h => (decodeCommand_eq_reserved_iff.1 h).2, ?_, fun opc _ => heldWhileBusy opc, fun _ _ => rfl⟩
  decide +kernel

/-! ### NOP and FRM_CLEAR -/

theorem decodeCommand_nop {w : Word} (h : opcOf w = 0x00#8) : decodeCommand w = .nop := by
  rw [decodeCommand, h]; rfl

/-- Settles O28: the meaning of NOP as it stands. -/
theorem nopChangesNothing : Obligations.NopChangesNothing :=
  ⟨fun _ => decodeCommand_nop, heldWhileBusy _, fun _ => rfl⟩

theorem decodeCommand_frmClear {w : Word} (h : opcOf w = 0x10#8) : decodeCommand w = .frmClear := by
  rw [decodeCommand, h]; rfl

/-- Settles O29: the bytes stay in FRAME, and with ACC_LEN = 0 the window shows none of them. -/
theorem frmClearEmptiesTheFrame : Obligations.FrmClearEmptiesTheFrame :=
  ⟨fun _ => decodeCommand_frmClear, heldWhileBusy _, fun _ =>
    ⟨_, rfl, rfl, fun _ => rfl, windowFrameByte_of_accLen_zero rfl⟩⟩

/-! ### FRM_PUSH -/

theorem decodeCommand_frmPush {w : Word} (h : opcOf w = 0x11#8) : decodeCommand w = .frmPush (w.extractLsb' 0 8) := by
  rw [decodeCommand, h, argLow_argOf]; rfl

theorem exec_frmPush_room (b : Byte) {s : State} (h : s.accLen.toNat < s.params.frameMax) :
    exec (.frmPush b) s = .next (s.appendByte b) := if_pos (decide_eq_true h)

theorem exec_frmPush_full (b : Byte) {s : State} (h : s.params.frameMax ≤ s.accLen.toNat) :
    exec (.frmPush b) s = .next { s with frmovr := true } := by
  have hfull : s.frameHasRoom = false := decide_eq_false (Nat.not_lt.2 h)
  rw [exec, execFrmPush, hfull]; rfl

/-- Settles O30: with room the byte is appended, and `appendByte_frameByte` says what FRAME holds then. -/
theorem frmPushAppendsOrFlags : Obligations.FrmPushAppendsOrFlags := by
  refine ⟨fun _ => decodeCommand_frmPush, heldWhileBusy _, fun b s => ⟨fun hwf hroom => ?_, exec_frmPush_full b⟩⟩
  refine ⟨s.appendByte b, exec_frmPush_room b hroom, rfl, ?_, fun a ha => ?_⟩
  · rw [appendByte_frameByte hwf, if_pos rfl]
  · rw [appendByte_frameByte hwf, if_neg ha]

/-! ### INIT and CLOSE -/

theorem decodeCommand_init {w : Word} (h : opcOf w = 0x40#8) : decodeCommand w = .init (w.extractLsb' 0 16) := by
  rw [decodeCommand, h]; rfl

theorem exec_init_closed (d : Half) {s : State} (hi : s.inited = false) :
    exec (.init d) s = .next { s with inited := true, defTimeout := d } := by
  rw [exec, execInit, hi]; rfl

theorem exec_init_open (d : Half) {s : State} (hi : s.inited = true) : exec (.init d) s = .next s := if_pos hi

/-- Every INIT leaves the block open. -/
theorem exec_init_inited (d : Half) (s : State) : ∃ t, exec (.init d) s = .next t ∧ t.inited = true := by
  cases hi : s.inited with
  | false => exact ⟨_, exec_init_closed d hi, rfl⟩
  | true => exact ⟨s, exec_init_open d hi, hi⟩

/-- Settles O31: a first INIT leaves the block open, where a second does nothing. After INIT 0 the default timeout of START
is 0, which is R134's case. -/
theorem initIsIdempotent : Obligations.InitIsIdempotent := by
  refine ⟨fun _ => decodeCommand_init, heldWhileBusy _, fun d e s =>
    ⟨exec_init_closed d, exec_init_open d, ?_, fun hi => ?_⟩⟩
  · obtain ⟨t, ht, hopen⟩ := exec_init_inited d s
    rw [ht, andThen_next, exec_init_open e hopen]
  · rw [exec_init_closed _ hi, andThen_next]
    exact ⟨_, exec_start_noTime rfl rfl, rfl, rfl⟩

theorem decodeCommand_close {w : Word} (h : opcOf w = 0x41#8) : decodeCommand w = .close := by
  rw [decodeCommand, h]; rfl

theorem exec_close_open {s : State} (hi : s.inited = true) :
    exec .close s = .next { s with inited := false, fifo := [] } := if_pos hi

theorem exec_close_closed {s : State} (hi : s.inited = false) : exec .close s = .next s := by
  rw [exec, execClose, hi]; rfl

/-- Every CLOSE leaves the block closed. -/
theorem exec_close_inited (s : State) : ∃ t, exec .close s = .next t ∧ t.inited = false := by
  cases hi : s.inited with
  | false => exact ⟨s, exec_close_closed hi, hi⟩
  | true => exact ⟨_, exec_close_open hi, rfl⟩

/-- A closed block drops a received byte (R136). -/
theorem enqueuePhase_closed (rx : Option Byte) {s : State} (hi : s.inited = false) : enqueuePhase rx s = s := by
  cases rx with
  | none => rfl
  | some b => rw [enqueuePhase, hi]; rfl

/-- Settles O32: after any CLOSE the block is closed, and the rest is what a closed block does with a second CLOSE, a
received byte, START and INIT. -/
theorem closeReleasesOnce : Obligations.CloseReleasesOnce := by
  refine ⟨fun _ => decodeCommand_close, heldWhileBusy _, fun d s => ?_⟩
  obtain ⟨t, ht, hclosed⟩ := exec_close_inited s
  refine ⟨exec_close_open, exec_close_closed, ?_, ⟨t, ht, hclosed, fun b => enqueuePhase_closed _ hclosed, ?_⟩, ?_⟩
  · rw [ht, andThen_next, exec_close_closed hclosed]
  · exact ⟨_, exec_start_closed d hclosed, rfl, rfl⟩
  · rw [ht, andThen_next]
    exact ⟨_, exec_init_closed d hclosed, rfl, rfl⟩

/-! ### CFG_SET and FLAGS_CLR -/

theorem decodeCommand_cfgSet {w : Word} (h : opcOf w = 0x42#8) : decodeCommand w = .cfgSet (w.extractLsb' 0 3) := by
  rw [decodeCommand, h, argBits_argOf]; rfl

/-- Settles O33: the meaning of CFG_SET as it stands; IRQ is DONE and the new IE. -/
theorem cfgSetWritesThePolicies : Obligations.CfgSetWritesThePolicies :=
  ⟨fun _ => decodeCommand_cfgSet, heldWhileBusy _, fun _ _ => ⟨_, rfl, rfl, rfl⟩⟩

theorem decodeCommand_flagsClr {w : Word} (h : opcOf w = 0x43#8) :
    decodeCommand w = .flagsClr (w.extractLsb' 0 3) := by
  rw [decodeCommand, h, argBits_argOf]; rfl

/-- A flag masked by a clear bit, as R196 words it. -/
theorem and_not_eq_ite (flag clear : Bool) : (flag && !clear) = if clear then false else flag := by
  cases clear <;> simp

theorem exec_flagsClr (clr : BitVec 3) (s : State) :
    exec (.flagsClr clr) s = .next { s with
      rxovr := if clr.getLsbD 0 then false else s.rxovr
      frmovr := if clr.getLsbD 1 then false else s.frmovr
      illcmd := if clr.getLsbD 2 then false else s.illcmd } := by
  rw [exec, execFlagsClr, and_not_eq_ite, and_not_eq_ite, and_not_eq_ite]; rfl

/-- Settles O34: each flag by its bit; with the operand 0 every flag keeps its value. -/
theorem flagsClrClearsTheNamedFlags : Obligations.FlagsClrClearsTheNamedFlags :=
  ⟨fun _ => decodeCommand_flagsClr, heldWhileBusy _, fun clr s => ⟨exec_flagsClr clr s, exec_flagsClr 0#3 s⟩⟩

/-! ### RX_CLEAR -/

theorem decodeCommand_rxClear {w : Word} (h : opcOf w = 0x50#8) : decodeCommand w = .rxClear := by
  rw [decodeCommand, h]; rfl

theorem exec_rxClear_pending {s : State} (h : s.fifo ≠ []) :
    exec .rxClear s = .next { s with fifo := [], discard := BitVec.ofNat 16 s.fifo.length } := by
  rw [exec, execRxClear, discardCount, if_pos (List.length_pos_iff.2 h)]

theorem exec_rxClear_none {s : State} (h : s.fifo = []) :
    exec .rxClear s = .next { s with fifo := [], discard := 0xFFFF#16 } := by
  rw [exec, execRxClear, h]; rfl

/-- The number of bytes in the FIFO as a signed 16-bit value: RXQ_DEPTH is at most 0x7FFF (R6, R45). -/
theorem toInt_ofNat_fifo_length {s : State} (hl : s.params.legal = true) (hq : s.FifoInv) :
    (BitVec.ofNat 16 s.fifo.length).toInt = s.fifo.length := by
  have hcount : (BitVec.ofNat 16 s.fifo.length).toNat = s.fifo.length := rxCount_toNat hl hq
  obtain ⟨-, -, -, hdepth⟩ := legal_bounds hl
  obtain ⟨hle, -⟩ := hq
  rw [BitVec.toInt_eq_toNat_of_lt (by omega), hcount]

/-- Settles O35: the count does not wrap below RXQ_DEPTH, and the emptied FIFO of an open block has room for the byte that
arrives in the same cycle, since RXQ_DEPTH ≥ 1. -/
theorem rxClearCountsTheDiscarded : Obligations.RxClearCountsTheDiscarded := by
  refine ⟨fun _ => decodeCommand_rxClear, heldWhileBusy _, fun s =>
    ⟨exec_rxClear_pending, exec_rxClear_none, fun hl hq hne => ?_, fun hl hi => ?_⟩⟩
  · exact ⟨_, exec_rxClear_pending hne, toInt_ofNat_fifo_length hl hq⟩
  · obtain ⟨-, -, hroom, -⟩ := legal_bounds hl
    exact ⟨_, rfl, rfl, fun b => enqueuePhase_push b hi hroom⟩

end Sys2Proof.Machine
end

section
/-! PROOF. The exceptions family (spec/60_exceptions.md R220 to R228): no cycle faults, how a transaction ends, and that
the end stands before the tick of its cycle. -/

namespace Sys2Proof.Machine

/-! ### No faults -/

/-- Settles O55: a cycle whose read is allowed has a next state by `step_next`, and any other is refused. -/
theorem noStepFaults : Obligations.NoStepFaults := by
  intro s hi
  have ⟨hl, _⟩ := hi
  refine ⟨fun f hfault => ?_, step_next hi⟩
  cases hr : s.nextInput.refusedRead with
  | none =>
    obtain ⟨t, hnext⟩ := step_next hi hr
    cases hnext.symm.trans hfault
  | some r => cases (step_refusedRead hl hr).symm.trans hfault

/-! ### After the end of a transaction -/

/-- A free block consumes nothing (R137). -/
theorem consumePhase_free {s : State} (hb : s.busy = false) : consumePhase s = .next s := by
  refine consumePhase_idle (.inl (Bool.eq_false_iff.2 fun hc => ?_))
  rw [busy_of_isConsuming hc] at hb
  cases hb

/-- Settles O52: a terminal state is free, so no byte is consumed and no tick counted after it. -/
theorem terminationIsPreciseAndFinal : Obligations.TerminationIsPreciseAndFinal := by
  intro st code exc rlen s hst
  have hfree : (terminate st code rlen exc s).busy = false := busy_eq_false_of_isTerminal hst
  refine ⟨_, rfl, rfl, hfree, consumePhase_free hfree, fun tick => tickPhase_free tick hfree, fun rx => ?_, rfl⟩
  exact (enqueuePhase_frame rx _).2

/-! ### When DONE rises -/

/-- A block in flight or just ended is so after the events of its cycle. -/
theorem afterCommand_busy_or_ended {inp : CycleIn} {s t : State} (hs : s.busy = true ∨ s.Ended)
    (h : afterCommand inp s = .next t) : t.busy = true ∨ t.Ended := by
  rcases hs with hb | hend
  · obtain ⟨c, hc, h⟩ := andThen_eq_next.1 h
    obtain rfl := Host.Outcome.next.inj h
    have hcons := consumePhase_busy_or_ended hb hc
    rw [tickPhase_enqueuePhase]
    rcases tickPhase_cases inp.tick c with ⟨h, -⟩ | ⟨-, hbusy, -, h⟩ | ⟨-, -, -, h⟩ <;> rw [h]
    · exact hcons
    · exact .inl hbusy
    · exact .inr ⟨rfl, rfl⟩
  · have ⟨hterminal, _⟩ := hend
    rw [afterCommand_free inp (busy_eq_false_of_isTerminal hterminal), (enqueuePhase_frame _ _).2] at h
    obtain rfl := Host.Outcome.next.inj h
    exact .inr hend

/-- START puts a transaction in flight, or ends it at once (R132 to R134). -/
theorem exec_start_busy_or_ended {v : Half} {s t : State} (h : exec (.start v) s = .next t) :
    t.busy = true ∨ t.Ended := by
  cases hi : s.inited with
  | false =>
    obtain rfl := Host.Outcome.next.inj ((exec_start_closed v hi).symm.trans h)
    exact .inr ⟨rfl, rfl⟩
  | true =>
    by_cases hz : s.effectiveTimeout v = 0#16
    · obtain rfl := Host.Outcome.next.inj ((exec_start_noTime hi hz).symm.trans h)
      exact .inr ⟨rfl, rfl⟩
    · obtain rfl := Host.Outcome.next.inj ((exec_start_begins hi hz).symm.trans h)
      exact .inl rfl

/-- A cycle of a busy block, or one that accepts START, leaves a transaction in flight or just ended. -/
theorem step_busy_or_ended {s t : State} (hrst : s.nextInput.rst = false) (h : step s = .next t)
    (hs : s.busy = true ∨ ∃ v, s.accepted = some (.start v)) : t.busy = true ∨ t.Ended := by
  obtain ⟨hl, hr, -⟩ := step_phases h hrst
  rw [step_eq_runAccepted hl hr hrst] at h
  obtain ⟨s1, h1, h2⟩ := andThen_eq_next.1 h
  refine afterCommand_busy_or_ended ?_ h2
  rcases hs with hb | ⟨v, hv⟩
  · have hnone : s.accepted = none := by simp [State.accepted, cmdReady, hb]
    rw [hnone] at h1
    obtain rfl := Host.Outcome.next.inj h1
    exact .inl hb
  · rw [hv] at h1
    exact exec_start_busy_or_ended h1

/-- Under the invariant a block in flight or just ended shows which by DONE: it is 0 in flight (R27). -/
theorem done_iff_not_busy {t : State} (hi : t.Inv) (ht : t.busy = true ∨ t.Ended) : t.done = true ↔ t.busy = false := by
  obtain ⟨-, -, -, -, -, -, hflight, -⟩ := hi
  rcases ht with hb | ⟨hterminal, hdone⟩
  · obtain ⟨-, hdone, -⟩ := hflight hb
    simp [hb, hdone]
  · simp [hdone, busy_eq_false_of_isTerminal hterminal]

/-- No command but START raises DONE. -/
theorem exec_command_done {w : Word} {s t : State} (hst : ∀ v, decodeCommand w ≠ .start v)
    (h : exec (decodeCommand w) s = .next t) (hdone : t.done = true) : s.done = true := by
  obtain ⟨-, -, -, hother⟩ := decodeCommand_ne_response w
  generalize decodeCommand w = i at *
  cases i with
  | start v => exact absurd rfl (hst v)
  | rspFcOther f => exact absurd rfl (hother f)
  | doneAck =>
    obtain rfl := Host.Outcome.next.inj h
    cases hdone
  | frmPush | init | close =>
    simp only [exec, execFrmPush, execInit, execClose] at h
    split at h <;> obtain rfl := Host.Outcome.next.inj h <;> exact hdone
  | nop | crcInit | crcByte | crcVerify | frmClear | setReq | validate | cfgSet | flagsClr | rxClear | reserved
  | rspFcReadHolding | rspFcWriteMultiple | rspFcException =>
    obtain rfl := Host.Outcome.next.inj h
    exact hdone

/-- A free block's cycle without START stays free and raises no DONE. -/
theorem step_free_done {s t : State} (hb : s.busy = false) (hrst : s.nextInput.rst = false)
    (hst : ∀ v, s.accepted ≠ some (.start v)) (h : step s = .next t) :
    t.busy = false ∧ (t.done = true → s.done = true) := by
  obtain ⟨-, -, s1, s2, h1, h2, rfl⟩ := step_phases h hrst
  have hcmd : s1.faState = s.faState ∧ (s1.done = true → s.done = true) := by
    rcases commandPhase_accepted hrst h1 with ⟨rfl, -⟩ | ⟨w, -, -, ha, he⟩
    · exact ⟨rfl, id⟩
    · have hcom : ∀ v, decodeCommand w ≠ .start v := fun v hv => hst v (hv ▸ ha)
      exact ⟨(exec_resultsKept hcom he).faState, exec_command_done (s := s.beginCycle) hcom he⟩
  obtain ⟨hstate, hdone⟩ := hcmd
  have hfree : s1.busy = false := by rw [State.busy, hstate]; exact hb
  obtain rfl := Host.Outcome.next.inj ((consumePhase_free hfree).symm.trans h2)
  rw [tickPhase_enqueuePhase, tickPhase_free _ hfree]
  exact ⟨hfree, hdone⟩

/-- Settles O49: a transaction in flight and START by `step_busy_or_ended`, where the invariant after the step ties DONE
to BUSY; every other cycle by `step_free_done`. -/
theorem doneRisesOncePerTransaction : Obligations.DoneRisesOncePerTransaction := by
  intro s t hi hrst h
  have hi' : t.Inv := everyStepKeepsTheInvariant s t hi h
  have hrises (hs : s.busy = true ∨ ∃ v, s.accepted = some (.start v)) : t.done = true ↔ t.busy = false :=
    done_iff_not_busy hi' (step_busy_or_ended hrst h hs)
  refine ⟨fun hb => ⟨?_, hrises (.inl hb)⟩, fun v hv => hrises (.inr ⟨v, hv⟩),
    fun hb hst => step_free_done hb hrst hst h⟩
  obtain ⟨-, -, -, -, -, -, hflight, -⟩ := hi
  obtain ⟨-, hdone, -⟩ := hflight hb
  exact hdone

/-! ### Byte work before the tick -/

/-- The byte that brings ACC_LEN to EXP_LEN. -/
theorem takeByte_accLen_eq_expLen {s : State} (hi : s.Inv) (hlast : s.accLen.toNat + 1 = s.expLen.toNat) (b : Byte)
    (rest : List Byte) : (s.takeByte b rest).accLen = s.expLen :=
  BitVec.eq_of_toNat_eq ((takeByte_accLen_toNat hi b rest).trans hlast)

/-- The byte that fills a frame with the request's header completes it (R144 to R146). -/
theorem consumePhase_lastByte {s : State} {b : Byte} {rest : List Byte} (hi : s.Inv) (hs : s.faState = .body)
    (hf : s.fifo = b :: rest) (hlast : s.accLen.toNat + 1 = s.expLen.toNat) (h0 : s.frameByte 0 = s.reqAddr)
    (h1 : s.frameByte 1 = s.reqFc) : consumePhase s = .next (completeFrame (s.takeByte b rest)) := by
  have ⟨_, ⟨hm, _⟩, _, _, ⟨_, _, hbody⟩, _⟩ := hi
  obtain ⟨h2, -⟩ := hbody hs
  have hheader (k : Nat) (hk : k < 2) : (s.takeByte b rest).frameByte k = s.frameByte k := by
    rw [takeByte_frameByte hm, if_neg (by omega)]
  rw [consumePhase_takeByte hi (by rw [hs]; rfl) hf]
  exact consumedStep_body_match hs (takeByte_accLen_eq_expLen hi hlast b rest)
    ((headerMatches_iff _).2 ⟨(hheader 0 (by decide)).trans h0, (hheader 1 (by decide)).trans h1⟩)

/-- A START that ends at once leaves a free block with ELAPSED = 0 and the code of its reason (R133, R134). -/
theorem exec_start_endsAtOnce {v : Half} {s : State} (h : s.inited = false ∨ s.effectiveTimeout v = 0#16) :
    ∃ t, exec (.start v) s = .next t ∧ t.busy = false ∧ t.elapsed = 0#16 ∧
      t.resultCode = (if s.inited = false then 0x84#8 else 0x80#8) := by
  cases hi : s.inited with
  | false => exact ⟨_, exec_start_closed v hi, rfl, rfl, rfl⟩
  | true => exact ⟨_, exec_start_noTime hi (h.resolve_left (by simp [hi])), rfl, rfl, rfl⟩

/-- A cycle that accepts a command is no reset cycle (R51). -/
theorem rst_of_accepted {s : State} {i : Instr} (h : s.accepted = some i) : s.nextInput.rst = false := by
  cases hrst : s.nextInput.rst with
  | false => rfl
  | true => simp [State.accepted, cmdReady, hrst] at h

/-- Settles O50: in each of the three cycles the transaction has ended before the tick event, which does nothing in a
free block. -/
theorem byteWorkBeatsTheDeadline : Obligations.ByteWorkBeatsTheDeadline := by
  refine ⟨fun s b rest hi hr hrst hs hf hlast h0 h1 _ => ?_, fun s f rest hi hr hrst hs hacc hf h3 h16 he hu _ => ?_,
    fun s v hi hr hacc hends _ => ?_⟩
  · have ⟨hl, _⟩ := hi
    have hb : s.busy = true := by rw [State.busy, hs]; rfl
    rw [step_eq_phases hl hr hrst, commandPhase_busy (s := s.beginCycle) _ hb, andThen_next, afterCommand,
      consumePhase_lastByte (beginCycle_inv hi) hs hf hlast h0 h1, andThen_next, tickPhase_enqueuePhase,
      tickPhase_free _ rfl]
    exact ⟨_, rfl, rfl, rfl, takeByte_accLen_eq_expLen hi hlast b rest⟩
  · rw [stepRunsTheResponseFunctionCode s f rest hi hr hrst hs hacc hf,
      (decodeResponse_eq_other_iff s.reqFc f).2 ⟨h3, h16, he⟩, exec_rspFcOther_failed f (by exact hu), andThen_next,
      tickPhase_enqueuePhase, tickPhase_free _ rfl]
    exact ⟨_, rfl, rfl, rfl, rfl⟩
  · have ⟨hl, _⟩ := hi
    obtain ⟨c, hc, hfree, helapsed, hcode⟩ := exec_start_endsAtOnce (s := s.beginCycle) (v := v) hends
    rw [step_eq_runAccepted hl hr (rst_of_accepted hacc), hacc, runAccepted, hc, andThen_next,
      afterCommand_free _ hfree, (enqueuePhase_frame _ _).2]
    exact ⟨_, rfl, helapsed, hcode⟩

end Sys2Proof.Machine
end

section
/-! PROOF. The reset and hazards family (spec/70_reset_and_hazards.md): the reset cycle (R250) and held commands (R253). -/

namespace Sys2Proof.Machine

/-! ### The reset cycle -/

/-- The step of a reset cycle (R250). -/
theorem step_reset {s : State} (hl : s.params.legal = true) (hr : s.ReadAllowed) (hrst : s.nextInput.rst = true) :
    step s = .next (resetStep s.beginCycle) := by
  rw [step_eq hl hr, if_pos hrst]

/-- `cmd_ready` is 0 in a reset cycle (R51). -/
theorem cmdReady_reset {i : CycleIn} (s : State) (h : i.rst = true) : cmdReady i s = false := by
  rw [cmdReady, h]; rfl

/-- Settles O2: the reset step keeps the parameters, the inputs to come and the outputs of its cycle, of which `cmd_ready`
is 0 by `cmdReady_reset`. -/
theorem resetCycleGivesResetState : Obligations.ResetCycleGivesResetState := by
  intro s hl hr hrst
  rw [step_reset hl hr hrst, ← cmdReady_reset s hrst]
  rfl

/-! ### Held commands -/

/-- Outside a reset cycle `cmd_ready` is NOT BUSY (R51). -/
theorem cmdReady_of_rst_eq_false {i : CycleIn} (s : State) (h : i.rst = false) : cmdReady i s = !s.busy := by
  rw [cmdReady, h]; rfl

/-- A cycle of a busy block is the same without the command it presents (R253). -/
theorem step_withoutCommand {s : State} {i : CycleIn} {rest : List CycleIn} (hin : s.inputs = i :: rest)
    (hb : s.busy = true) : step s = step { s with inputs := { i with cmd := none } :: rest } := by
  have hnext : s.nextInput = i := by rw [State.nextInput, hin]; rfl
  cases hl : s.params.legal with
  | false => rw [step_illegal hl, step_illegal (by exact hl)]
  | true =>
    cases hr : i.refusedRead with
    | some r => rw [step_refusedRead hl (hnext ▸ hr), step_refusedRead (by exact hl) (by exact hr)]
    | none =>
      have hbegin : State.beginCycle { s with inputs := { i with cmd := none } :: rest } = s.beginCycle := by
        simp only [State.beginCycle, State.dropInput, hnext, hin]; rfl
      rw [step_eq hl (by rw [State.ReadAllowed, hnext]; exact hr), step_eq (by exact hl) (by exact hr), hbegin, hnext,
        commandPhase_busy _ (by exact hb), commandPhase_busy _ (by exact hb)]
      rfl

/-- Settles O11: a busy block runs the same cycle without the command, and a free one runs the word presented. -/
theorem heldCommandsDoNothing : Obligations.HeldCommandsDoNothing :=
  ⟨fun _ _ _ hin hb => step_withoutCommand hin hb, fun s _ _ _ hrst => cmdReady_of_rst_eq_false s hrst,
    fun _ w hb => commandPhase_free w hb⟩

end Sys2Proof.Machine
end
